-- ==== Sys2Proof/Word.lean ====
section
/-! DEFINITION. The word types of HUFF-CORE (spec/00_scope.md R7, R9, R10). -/

namespace Sys2Proof

/-- A 32-bit word of the host's data bus (R7 DATA_BITS) and of every CSR (R32). -/
abbrev Word := BitVec 32

/-- A byte of BYTE_IN or BYTE_OUT, and the unit of the block's address space (R80). -/
abbrev Byte := BitVec 8

/-- A block byte address: 23 bits (R7 ADDR_BITS, R80). -/
abbrev Addr := BitVec 23

/-- A symbol as the tables hold it: 24 bits (R7 SYMBOL_BITS). -/
abbrev Sym := BitVec 24

/-- A bit string, first bit at the head (R10). `true` is the bit 1. -/
abbrev BitStr := List Bool

end Sys2Proof
end

