-- ==== Sys2Proof/Syntax.lean ====
section
/-! DEFINITION. The ten commands of spec/30_encoding.md R123 (spec/opcode_table.json), and nothing else: a command word
has no immediate, register or address field (R121). -/

namespace Sys2Proof

/-- A legal command (R123). -/
inductive Instr where
  /-- FREQ, OP 0x01: count symbol occurrences (R170). -/
  | freq
  /-- SORT, OP 0x02: order the records by descending frequency (R172). -/
  | sort
  /-- BUILD, OP 0x03: build the prefix tree (R200). -/
  | build
  /-- CODEGEN, OP 0x04: assign a code to every leaf (R205). -/
  | codegen
  /-- PACK, OP 0x05: write the container (R230). -/
  | pack
  /-- COMPRESS, OP 0x08: the whole compression data flow (R235). -/
  | compress
  /-- PARSE, OP 0x11: read the trailer and the tree region (R260). -/
  | parse
  /-- MATCH, OP 0x12: decode the payload region (R264). -/
  | matchCodes
  /-- DECOMPRESS, OP 0x18: the whole decompression data flow (R267). -/
  | decompress
  /-- CLEAR, OP 0x7F: discard the per-call state (R295). -/
  | clear
deriving DecidableEq, Repr

end Sys2Proof
end

