-- ==== Sys2Proof/WellFormed.lean ====
section
/-! DEFINITION. What makes a command word and a pair of capacities well formed (R120, R122, R123, R7). A term of `Instr` has no
operand (R121), so every term of it is well formed; what can be ill formed is a 32-bit word. -/

namespace Sys2Proof

/-- The OP field of a command word, bits [7:0] (R120). -/
def opField (w : Word) : Byte := w.extractLsb' 0 8

/-- The RSVD field of a command word, bits [31:8] (R120). -/
def rsvdField (w : Word) : BitVec 24 := w.extractLsb' 8 24

/-- The OP values that R123 lists. -/
def listedOps : List Byte := [0x01#8, 0x02#8, 0x03#8, 0x04#8, 0x05#8, 0x08#8, 0x11#8, 0x12#8, 0x18#8, 0x7F#8]

/-- RSVD must be 0 (R120, R122). -/
def rsvdClear (w : Word) : Bool := rsvdField w == 0#24

/-- OP is a value R123 lists; every other value is reserved (R124). -/
def opListed (w : Word) : Bool := listedOps.contains (opField w)

/-- A legal command word (R122, R124, R296). -/
def legalWord (w : Word) : Bool := rsvdClear w && opListed w

/-- A command has no operand field, so nothing of it can be ill formed (R121). -/
def Instr.wf (_ : Instr) : Bool := true

/-- SYM_CAP in its range (R7). -/
def symCapOk (symCap : Nat) : Bool := decide (1 ≤ symCap) && decide (symCap ≤ 262144)

/-- BYTE_CAP in its range (R7). -/
def byteCapOk (byteCap : Nat) : Bool := decide (3 ≤ byteCap) && decide (byteCap ≤ 1048576)

/-- Both parameters in their ranges (R7). -/
def capsOk (symCap byteCap : Nat) : Bool := symCapOk symCap && byteCapOk byteCap

end Sys2Proof
end

