-- ==== Sys2Proof/Decode.lean ====
section
/-! DEFINITION. Decoding of a command word, total and rejecting by name, and the encoder (R120-R124). -/

namespace Sys2Proof

/-- Why a word is no command; the engine reports both as ILLEGAL_COMMAND (R296). -/
inductive Rejection where
  /-- A bit of RSVD is set (R122). -/
  | reservedBitsSet
  /-- OP is a reserved value (R124). -/
  | reservedOp
deriving DecidableEq, Repr

/-- What the decoder makes of a word. -/
inductive Decoded where
  /-- The word spells this command. -/
  | command (i : Instr)
  /-- The word spells no command. -/
  | rejected (r : Rejection)
deriving DecidableEq, Repr

/-- The opcode map, row by row (R123). -/
def opcodeMap : List (Byte × Instr) :=
  [ (0x01#8, .freq), (0x02#8, .sort), (0x03#8, .build), (0x04#8, .codegen), (0x05#8, .pack),
    (0x08#8, .compress), (0x11#8, .parse), (0x12#8, .matchCodes), (0x18#8, .decompress), (0x7F#8, .clear) ]

/-- Decode a command word: RSVD first (R122), then OP (R123, R124). -/
def decode (w : Word) : Decoded :=
  if rsvdField w = 0#24 then
    match opcodeMap.lookup (opField w) with
    | some i => .command i
    | none => .rejected .reservedOp
  else .rejected .reservedBitsSet

/-- The command, where there is one. -/
def Decoded.toOption : Decoded → Option Instr
  | .command i => some i
  | .rejected _ => none

/-- The OP value of a command (R123). -/
def opcode : Instr → Byte
  | .freq => 0x01#8
  | .sort => 0x02#8
  | .build => 0x03#8
  | .codegen => 0x04#8
  | .pack => 0x05#8
  | .compress => 0x08#8
  | .parse => 0x11#8
  | .matchCodes => 0x12#8
  | .decompress => 0x18#8
  | .clear => 0x7F#8

/-- The command word of a command: `zext_32(OP)` (R120, R140). -/
def encode (i : Instr) : Word := (opcode i).setWidth 32

/-- The word of an opcode-table row: the row's low `nbits` bits, the bits above them 0, as one 32-bit command word.
A command is one 32-bit word on the data bus (R120), so the table's bit numbers are the word's. -/
def tableWord (nbits w : Nat) : Word := BitVec.ofNat 32 (w % 2 ^ nbits)

/-- What the decoder reads from an opcode-table word. A value that needs more than the 32 bits of a command is none. -/
def decodeTableWord (nbits w : Nat) : Option Instr :=
  if w % 2 ^ nbits < 2 ^ 32 then (decode (tableWord nbits w)).toOption else none

end Sys2Proof
end

