-- ==== Sys2Proof/Config.lean ====
section
/-! DEFINITION. What an implementation fixes (R7, R49) and the free values (R57, R60, R93). -/

namespace Sys2Proof.Config

/-- The SYM_CAP that `State.reset` takes. The spec leaves it open in 1 to 2^18 (R7, D5); every other value is reached
through `State.resetWith`, and a state holds its own SYM_CAP. DESIGN CHOICE (log 2), unsafe for a claim about
`State.reset` alone. -/
def symCap : Nat := 262144

/-- The BYTE_CAP that `State.reset` takes. The spec leaves it open in 3 to 2^20 (R7, D5). DESIGN CHOICE (log 2), unsafe for
a claim about `State.reset` alone. -/
def byteCap : Nat := 1048576

/-- The value of an unspecified 32-bit host read, the `n`-th value drawn (R57, R60, R93). Nothing constrains it (DESIGN CHOICE, log 4, safe). -/
opaque freeWord : Nat → Word

/-- The value of an unspecified byte lane of a host read: lane `lane` of the `n`-th value drawn (R60, R93, R322).
Nothing constrains it (DESIGN CHOICE, log 4, safe). -/
opaque freeByte : (n lane : Nat) → Byte

end Sys2Proof.Config
end

