-- ==== Sys2Proof/Machine/State.lean ====
section
/-! DEFINITION. The state of HUFF-CORE as plain data (spec/10_state.md R30-R63), the events that drive it (R8, R94), the errors a
command reports (R320), the model's faults and refusals, and reset (R63, R360). -/

namespace Sys2Proof.Machine

/-- The stage the internal tables hold (R34). The values 6, 7 and 10 to 15 are never produced (Z4). -/
inductive Phase where
  /-- 0: no table is valid. -/
  | idle
  /-- 1: FREQ_TAB holds counts in first-appearance order. -/
  | counted
  /-- 2: FREQ_TAB holds the frequency-descending order. -/
  | sorted
  /-- 3: NODE holds the finished tree. -/
  | tree
  /-- 4: CODE_TAB holds the code table in mapping order. -/
  | coded
  /-- 5: BYTE_OUT[0..OUT_LEN) holds a container. -/
  | packed
  /-- 8: CODE_TAB holds the decode table, longest code first. -/
  | parsed
  /-- 9: SYM_OUT[0..OUT_LEN) holds the decoded symbols. -/
  | decoded
deriving DecidableEq, Repr

/-- The errors of R320, in the order of their codes. -/
inductive Err where
  /-- 1 -/
  | emptyInput
  /-- 2 -/
  | alphabetOverflow
  /-- 3 -/
  | truncatedHeader
  /-- 4 -/
  | truncatedPayload
  /-- 5 -/
  | unknownMode
  /-- 6 -/
  | unmatchedCode
  /-- 7, unreachable (R211) -/
  | degenerateTree
  /-- 8, unreachable for SYM_CAP up to 2^18 (R211) -/
  | codeLengthOverflow
  /-- 9 -/
  | headerFormat
  /-- 10 -/
  | outputOverflow
  /-- 11 -/
  | inputLength
  /-- 12 -/
  | sequence
  /-- 13 -/
  | illegalCommand
deriving DecidableEq, Repr

/-- The STATUS register (R36). Bits [7:4] and [31:12] are reserved and read 0. -/
structure Status where
  /-- bit 0 (R37) -/
  busy : Bool
  /-- bit 1 (R38) -/
  done : Bool
  /-- bit 2 (R39) -/
  err : Bool
  /-- bit 3 (R40) -/
  ovr : Bool
  /-- bits [11:8] (R39) -/
  errCode : BitVec 4
deriving DecidableEq, Repr

/-- An entry of FREQ_TAB (R54). The host cannot read `first`. -/
structure FreqRecord where
  /-- the symbol -/
  sym : Sym
  /-- how often it occurs (COUNT_BITS = 32) -/
  count : BitVec 32
  /-- the smallest i with SYM_IN[i] = sym -/
  first : BitVec 18
deriving DecidableEq, Repr

/-- The kind of a tree node (R55): 0, 1, 2, 3. -/
inductive NodeKind where
  /-- 0: an unused slot -/
  | empty
  /-- 1 -/
  | leaf
  /-- 2 -/
  | internal
  /-- 3 -/
  | root
deriving DecidableEq, Repr

/-- A slot of NODE (R55). A child is `some id` where its valid bit is set. -/
structure Node where
  /-- the kind -/
  kind : NodeKind
  /-- the frequency -/
  freq : BitVec 32
  /-- the symbol, of a LEAF only -/
  sym : Sym
  /-- the left child -/
  left : Option (BitVec 9)
  /-- the right child -/
  right : Option (BitVec 9)
deriving DecidableEq, Repr

/-- An entry of CODE_TAB (R56). `len` and the right-aligned 64-bit value are computed from the bit string. -/
structure CodeEntry where
  /-- the symbol -/
  sym : Sym
  /-- the code, first bit at the head -/
  code : BitStr
deriving DecidableEq, Repr

/-- The width of a host access (R83). -/
inductive Width where
  /-- 8 bits: allowed to BYTE_IN and BYTE_OUT only. -/
  | w8
  /-- 32 bits: allowed everywhere. -/
  | w32
  /-- Any other width: always a bus error. -/
  | other
deriving DecidableEq, Repr

/-- One event of the total order of R94. -/
inductive HostEvent where
  /-- The host reads at a block address (R140 R32, R8). -/
  | read (width : Width) (addr : Addr)
  /-- The host writes at a block address (R140 W32, W8); an 8-bit write carries its byte on bits [7:0] (R87). -/
  | write (width : Width) (addr : Addr) (data : Word)
  /-- The engine's turn: it takes its step if one is enabled (R292). -/
  | engine
  /-- The platform drives the reset input (R360). -/
  | reset
deriving DecidableEq, Repr

/-- Why the model stops. Each is what the spec tells a model to record as a fault. -/
inductive Fault where
  /-- Raised by a host access of a width R83 does not allow or a misaligned 32-bit one: "A model records such an access as a
  host fault and gives it no step" (R84, U8, log 9). Safe: the hardware answers a bus error and goes on. -/
  | busError
  /-- Raised by a host write to IN_LEN, SYM_IN or BYTE_IN while BUSY = 1 (R364, U7). Safe: "the run stops being one the spec
  describes". -/
  | inputWriteWhileBusy
  /-- Raised by FREQ, PACK, COMPRESS, PARSE, MATCH and DECOMPRESS when they read an entry of SYM_IN or BYTE_IN never
  written since reset (R93, U4). Safe: "toward unprovable". -/
  | unwrittenInput
deriving DecidableEq, Repr

/-- Why the model has no meaning for a command. -/
inductive Refusal where
  /-- Raised by `exec` for a command that has no meaning yet. No arm raises it. Safe. -/
  | notModelled (mnemonic : String)
deriving DecidableEq, Repr

/-- The whole state. The last three fields are the model's own. -/
structure State where
  /-- CMD: the last accepted command word, the latch of R58 (R35). -/
  cmd : Word
  /-- STATUS (R36). -/
  status : Status
  /-- PHASE (R34). -/
  phase : Phase
  /-- IN_LEN (R41). -/
  inLen : Word
  /-- OUT_LEN (R42). -/
  outLen : Word
  /-- NSYM, bits [7:0] (R43). -/
  nsym : BitVec 8
  /-- MAXLEN, bits [5:0] (R44). -/
  maxLen : BitVec 6
  /-- MODE, bits [1:0] (R45). -/
  mode : BitVec 2
  /-- PAY_START (R46). -/
  payStart : Word
  /-- PAY_END (R46). -/
  payEnd : Word
  /-- ENC_N (R47). -/
  encN : Word
  /-- NNODES (R48). -/
  nnodes : Word
  /-- The parameter SYM_CAP, constant (R7, R49). -/
  symCap : Nat
  /-- The parameter BYTE_CAP, constant (R7, R49). -/
  byteCap : Nat
  /-- FREQ_TAB: the entries from 0 on; an entry beyond the list holds no known value (R54, log 7). -/
  freqTab : List FreqRecord
  /-- NODE: the slots from 0 on; a slot beyond the list is unused (R55, log 7). -/
  nodeTab : List Node
  /-- CODE_TAB: the entries from 0 on; an entry beyond the list holds no known value (R56, log 7). -/
  codeTab : List CodeEntry
  /-- The four buffers, as (block address, byte) pairs in one canonical form; an address not listed holds no known
  value: "never written", or discarded by a failure (R50-R53, R80, R93, R322, log 6). -/
  mem : List Host.Cell
  /-- The model's own: the events still to come, in the total order of R94 (DESIGN CHOICE, log 1). -/
  host : List HostEvent
  /-- The model's own: the data the latest host read returned (DESIGN CHOICE, log 5). -/
  lastRead : Option Word
  /-- The model's own: how many free values have been drawn (DESIGN CHOICE, log 4). -/
  draws : Nat
deriving DecidableEq, Repr

/-- STATUS after reset (R63). -/
def Status.reset : Status := ⟨false, false, false, false, 0⟩

/-- The state after reset of a block with the given parameters (R63, R360): CMD, STATUS, PHASE, IN_LEN and every result
register 0, nothing pending, the tables unspecified and not valid, every buffer entry "never written". -/
def State.resetWith (symCap byteCap : Nat) : State where
  cmd := 0
  status := Status.reset
  phase := .idle
  inLen := 0
  outLen := 0
  nsym := 0
  maxLen := 0
  mode := 0
  payStart := 0
  payEnd := 0
  encN := 0
  nnodes := 0
  symCap := symCap
  byteCap := byteCap
  freqTab := []
  nodeTab := []
  codeTab := []
  mem := []
  host := []
  lastRead := none
  draws := 0

/-- The state after reset (R63), with the parameters of Config (DESIGN CHOICE, log 2). -/
def State.reset : State := State.resetWith Config.symCap Config.byteCap

end Sys2Proof.Machine
end

