-- ==== Sys2Proof/Machine/AddressMap.lean ====
section
/-! DEFINITION. The address map of the block (spec/20_memory.md R80). -/

namespace Sys2Proof.Machine

/-- FREQ_TAB_BASE (R80). -/
def freqTabBase : Nat := 0x001000
/-- NODE_BASE (R80). -/
def nodeBase : Nat := 0x002000
/-- CODE_TAB_BASE (R80). -/
def codeTabBase : Nat := 0x004000
/-- SYM_IN_BASE (R80). -/
def symInBase : Nat := 0x100000
/-- SYM_OUT_BASE (R80). -/
def symOutBase : Nat := 0x200000
/-- BYTE_IN_BASE (R80). -/
def byteInBase : Nat := 0x300000
/-- BYTE_OUT_BASE (R80). -/
def byteOutBase : Nat := 0x400000

/-- CSR offsets (R32). -/
def offId : Nat := 0x000
/-- CMD -/
def offCmd : Nat := 0x004
/-- STATUS -/
def offStatus : Nat := 0x008
/-- PHASE -/
def offPhase : Nat := 0x00C
/-- IN_LEN -/
def offInLen : Nat := 0x010
/-- OUT_LEN -/
def offOutLen : Nat := 0x014
/-- NSYM -/
def offNsym : Nat := 0x018
/-- MAXLEN -/
def offMaxLen : Nat := 0x01C
/-- MODE -/
def offMode : Nat := 0x020
/-- PAY_START -/
def offPayStart : Nat := 0x024
/-- PAY_END -/
def offPayEnd : Nat := 0x028
/-- ENC_N -/
def offEncN : Nat := 0x02C
/-- SYM_CAP -/
def offSymCap : Nat := 0x030
/-- BYTE_CAP -/
def offByteCap : Nat := 0x034
/-- NNODES -/
def offNnodes : Nat := 0x038

/-- The regions of the map (R80). -/
inductive Region where
  /-- the CSR block, its reserved offsets among it -/
  | csr
  /-- reserved: reads 0, writes ignored -/
  | reserved
  /-- the FREQ_TAB window -/
  | freqTab
  /-- the NODE window -/
  | node
  /-- the CODE_TAB window -/
  | codeTab
  /-- SYM_IN, up to SYM_CAP entries -/
  | symIn
  /-- SYM_OUT, up to SYM_CAP entries -/
  | symOut
  /-- BYTE_IN, up to BYTE_CAP bytes -/
  | byteIn
  /-- BYTE_OUT, up to BYTE_CAP bytes -/
  | byteOut
deriving DecidableEq, Repr

/-- lo ≤ a < hi -/
abbrev within (a lo hi : Nat) : Prop := lo ≤ a ∧ a < hi

/-- The region of a block address (R80). The bytes of a buffer's window above its capacity are reserved. -/
def regionOf (symCap byteCap a : Nat) : Region :=
  if a < 0x100 then .csr
  else if within a freqTabBase (freqTabBase + 0x800) then .freqTab
  else if within a nodeBase (nodeBase + 0x2000) then .node
  else if within a codeTabBase (codeTabBase + 0x1000) then .codeTab
  else if within a symInBase (symInBase + 4 * symCap) then .symIn
  else if within a symOutBase (symOutBase + 4 * symCap) then .symOut
  else if within a byteInBase (byteInBase + byteCap) then .byteIn
  else if within a byteOutBase (byteOutBase + byteCap) then .byteOut
  else .reserved

/-- The region of an address of this block. -/
def State.region (s : State) (a : Nat) : Region := regionOf s.symCap s.byteCap a

end Sys2Proof.Machine
end

