-- ==== Sys2Proof/Machine/Bits.lean ====
section
/-! DEFINITION. Bit strings (R10) and the bit utilities that are normative for the container (R90, R91). -/

namespace Sys2Proof.Machine

/-- `bin_w(v)`: the w-bit string of v, most significant bit first (R10, R91). -/
def bin : (w v : Nat) → BitStr
  | 0, _ => []
  | w + 1, v => v.testBit w :: bin w v

/-- `val` of a bit string that continues the value `acc`. -/
def valFrom (acc : Nat) : BitStr → Nat
  | [] => acc
  | b :: bs => valFrom (2 * acc + b.toNat) bs

/-- `val(s)`: the value of s read most significant bit first; `val("") = 0` (R10). -/
def val (s : BitStr) : Nat := valFrom 0 s

/-- `zeros(k)` (R10). -/
def zeros (k : Nat) : BitStr := List.replicate k false

/-- `bits(b)`: bit 7 of byte 0 is the first bit (R90). -/
def bits (bs : List Byte) : BitStr := bs.flatMap fun b => bin 8 b.toNat

/-- `bytes(s)`: byte j is `val(s[8j..8j+8))`, for a string whose length is a multiple of 8 (R90). -/
def bytes : BitStr → List Byte
  | b7 :: b6 :: b5 :: b4 :: b3 :: b2 :: b1 :: b0 :: rest =>
    BitVec.ofNat 8 (val [b7, b6, b5, b4, b3, b2, b1, b0]) :: bytes rest
  | _ => []

/-- Bit 31 to bit 0 from four bytes, the first the least significant (R87). -/
def joinLanes (b0 b1 b2 b3 : Byte) : Word := b3 ++ b2 ++ b1 ++ b0

/-- The byte on lane k of a word: bits [8k+7:8k] (R87). -/
def lane (w : Word) (k : Nat) : Byte := w.extractLsb' (8 * k) 8

end Sys2Proof.Machine
end

