-- ==== Sys2Proof/Machine/Flags.lean ====
section
/-! DEFINITION. STATUS and PHASE: their values as words, and every write of STATUS (R34, R36-R40, R62, R290-R293, R320). -/

namespace Sys2Proof.Machine

/-- `code(E)`: the number of an error (R320). -/
def Err.code : Err → BitVec 4
  | .emptyInput => 1
  | .alphabetOverflow => 2
  | .truncatedHeader => 3
  | .truncatedPayload => 4
  | .unknownMode => 5
  | .unmatchedCode => 6
  | .degenerateTree => 7
  | .codeLengthOverflow => 8
  | .headerFormat => 9
  | .outputOverflow => 10
  | .inputLength => 11
  | .sequence => 12
  | .illegalCommand => 13

/-- The value of PHASE (R34). -/
def Phase.word : Phase → Word
  | .idle => 0
  | .counted => 1
  | .sorted => 2
  | .tree => 3
  | .coded => 4
  | .packed => 5
  | .parsed => 8
  | .decoded => 9

/-- The value of STATUS: BUSY, DONE, ERR, OVR in bits 0 to 3, ERRCODE in bits [11:8], the rest 0 (R36). -/
def Status.word (st : Status) : Word :=
  BitVec.ofNat 32 (st.busy.toNat + 2 * st.done.toNat + 4 * st.err.toNat + 8 * st.ovr.toNat + 256 * st.errCode.toNat)

/-- Acceptance of the command word v, one indivisible action (R291). -/
def accept (v : Word) (s : State) : State :=
  { s with cmd := v, status := { busy := true, done := false, err := false, ovr := false, errCode := 0 } }

/-- A CMD write dropped while busy (R293, R40). -/
def overrun (s : State) : State :=
  { s with status := { s.status with ovr := true } }

/-- Completion of a command that succeeded (R292). OVR is left (R62). -/
def completeOk (s : State) : State :=
  { s with status := { s.status with busy := false, done := true, err := false, errCode := 0 } }

/-- The STATUS part of the completion of a command that failed with e (R292). OVR is left (R62). -/
def completeErr (e : Err) (s : State) : State :=
  { s with status := { s.status with busy := false, done := true, err := true, errCode := e.code } }

end Sys2Proof.Machine
end

