-- ==== Sys2Proof/Machine/Ops.lean ====
section
/-! DEFINITION. The shared operations: memory (R81, R82, R87, R93), raising an error (R322, R323), and the shape of a stage of a
command (R292, R294). -/

namespace Sys2Proof.Machine

/-! ### Memory -/

/-- The byte at a block address; none where the address holds no known value: never written, or discarded by a failed
PACK or MATCH (R93, R322). -/
def Memory.read : List Host.Cell → Nat → Option Byte
  | [], _ => none
  | c :: rest, a => if c.1 = a then some c.2 else Memory.read rest a

/-- Store a byte at a block address, keeping the addresses rising. -/
def Memory.write : List Host.Cell → Nat → Byte → List Host.Cell
  | [], a, b => [(a, b)]
  | c :: rest, a, b =>
    if c.1 < a then c :: Memory.write rest a b
    else if c.1 = a then (a, b) :: rest
    else (a, b) :: c :: rest

/-- Every byte at an address from lo to hi - 1 becomes unspecified (R322). -/
def Memory.forget (m : List Host.Cell) (lo hi : Nat) : List Host.Cell :=
  m.filter fun c => !(decide (lo ≤ c.1) && decide (c.1 < hi))

/-- The canonical form: addresses strictly rising. An unlisted address reads as no value and a listed one as a byte, so no
entry equals what an unlisted address reads as. -/
def Memory.wf : List Host.Cell → Bool
  | [] => true
  | [_] => true
  | c :: d :: rest => decide (c.1 < d.1) && Memory.wf (d :: rest)

/-- `MemRead(addr, 4)`: four bytes as one little-endian value; none when one of them holds no known value (R81, R87, R93). -/
def Memory.readWord (m : List Host.Cell) (a : Nat) : Option Word :=
  match Memory.read m a, Memory.read m (a + 1), Memory.read m (a + 2), Memory.read m (a + 3) with
  | some b0, some b1, some b2, some b3 => some (joinLanes b0 b1 b2 b3)
  | _, _, _, _ => none

/-- `MemWrite(addr, 4, v)` (R82, R87). -/
def Memory.writeWord (m : List Host.Cell) (a : Nat) (v : Word) : List Host.Cell :=
  Memory.write (Memory.write (Memory.write (Memory.write m a (lane v 0)) (a + 1) (lane v 1)) (a + 2) (lane v 2)) (a + 3)
    (lane v 3)

/-- Store bytes at a, a + 1, ... -/
def Memory.writeBytes (m : List Host.Cell) (a : Nat) : List Byte → List Host.Cell
  | [] => m
  | b :: bs => Memory.writeBytes (Memory.write m a b) (a + 1) bs

/-- Store words at a, a + 4, ... -/
def Memory.writeWords (m : List Host.Cell) (a : Nat) : List Word → List Host.Cell
  | [] => m
  | v :: vs => Memory.writeWords (Memory.writeWord m a v) (a + 4) vs

/-- `some` of all the values `f i, ..., f (i + n - 1)`, or none when one of them is none. -/
def collect {α : Type} (f : Nat → Option α) : (i n : Nat) → Option (List α)
  | _, 0 => some []
  | i, n + 1 =>
    match f i with
    | none => none
    | some x =>
      match collect f (i + 1) n with
      | none => none
      | some xs => some (x :: xs)

/-! ### Raising an error -/

/-- PHASE and the result registers at 0: what CLEAR does (R295) and what a failure does (R322). -/
def clearResults (s : State) : State :=
  { s with phase := .idle, outLen := 0, nsym := 0, maxLen := 0, mode := 0, payStart := 0, payEnd := 0, encN := 0, nnodes := 0 }

/-- The errors that change nothing but STATUS (R323). -/
def Err.isProtocol (e : Err) : Bool := e == .illegalCommand || e == .sequence

/-- A command fails with e: the one shared way (R292, R322, R323). STATUS takes the error; PHASE and the results are cleared
unless e is ILLEGAL_COMMAND or SEQUENCE. There is no return from an error: the next accepted command clears it (R325). -/
def raiseError (e : Err) (s : State) : State :=
  completeErr e (if e.isProtocol then s else clearResults s)

/-- Every byte of BYTE_OUT is unspecified: a failing PACK stage (R322, U6). -/
def discardByteOut (s : State) : State :=
  { s with mem := Memory.forget s.mem byteOutBase (byteOutBase + s.byteCap) }

/-- Every entry of SYM_OUT is unspecified: a failing MATCH stage (R322, U6). -/
def discardSymOut (s : State) : State :=
  { s with mem := Memory.forget s.mem symOutBase (symOutBase + 4 * s.symCap) }

/-! ### Stages -/

/-- What a computation inside a stage ends in. -/
inductive Result (α : Type) where
  /-- a value -/
  | ok (a : α)
  /-- `raise e` (R11) -/
  | raised (e : Err)
  /-- a fault of the model (R93) -/
  | fault (f : Fault)
deriving DecidableEq, Repr

/-- How a stage of a command ends: the state it leaves; or an error, with the state it leaves before R322 clears the registers;
or a fault of the model. -/
inductive Stage where
  /-- the stage ran -/
  | ok (s : State)
  /-- the stage raised e -/
  | raised (e : Err) (s : State)
  /-- the model stops -/
  | fault (f : Fault)
deriving DecidableEq, Repr

/-- Perform the next stage; the first `raise` ends the command (R235, R267). -/
def Stage.andThen (r : Stage) (next : State → Stage) : Stage :=
  match r with
  | .ok s => next s
  | .raised e s => .raised e s
  | .fault f => .fault f

/-- Completion (R292). -/
def complete : Stage → Host.Outcome State Fault Refusal
  | .ok s => .next (completeOk s)
  | .raised e s => .next (raiseError e s)
  | .fault f => .fault f

/-- The prerequisite check comes before anything else a command does (R294): without it the command fails with SEQUENCE and
has no other effect (R323). -/
def requirePhase (allowed : List Phase) (stage : State → Stage) (s : State) : Stage :=
  if allowed.contains s.phase then stage s else .raised .sequence s

end Sys2Proof.Machine
end

