-- ==== Sys2Proof/Machine/Control.lean ====
section
/-! DEFINITION. CLEAR (spec/44_control.md R295) and words that spell no command (R296). -/

namespace Sys2Proof.Machine

/-- CLEAR (R295): always succeeds; IN_LEN and the buffers are unchanged. -/
def execClear (s : State) : Host.Outcome State Fault Refusal := complete (.ok (clearResults s))

/-- A latched word that spells no command fails with ILLEGAL_COMMAND, before any prerequisite check, and has no other
effect (R296, R323). -/
def execIllegal (s : State) : Host.Outcome State Fault Refusal := complete (.raised .illegalCommand s)

end Sys2Proof.Machine
end

