-- ==== Sys2Proof/Machine/Operands.lean ====
section
/-! DEFINITION. The operands of the commands (R92, R121): buffer elements, table entries, and the widths the container format
takes from MODE and MAXLEN (R6, R131-R136). -/

namespace Sys2Proof.Machine

/-! ### Buffers -/

/-- `SYM_IN[i]` (R11). -/
def State.symIn (s : State) (i : Nat) : Option Word := Memory.readWord s.mem (symInBase + 4 * i)
/-- `SYM_OUT[i]` (R11). -/
def State.symOut (s : State) (i : Nat) : Option Word := Memory.readWord s.mem (symOutBase + 4 * i)
/-- `BYTE_IN[j]` (R11). -/
def State.byteIn (s : State) (j : Nat) : Option Byte := Memory.read s.mem (byteInBase + j)
/-- `BYTE_OUT[j]` (R11). -/
def State.byteOut (s : State) (j : Nat) : Option Byte := Memory.read s.mem (byteOutBase + j)

/-- SYM_IN[0..n); none when an entry was never written (R93). -/
def State.symbols (s : State) (n : Nat) : Option (List Word) := collect s.symIn 0 n

/-- BYTE_IN[lo..hi); none when a byte was never written (R93). -/
def State.inputBytes (s : State) (lo hi : Nat) : Option (List Byte) := collect s.byteIn lo (hi - lo)

/-! ### Tables -/

/-- FREQ_TAB[0..NSYM). A table shorter than NSYM, which no run reaches, gives what it has (DESIGN CHOICE, log 8). -/
def State.records (s : State) : List FreqRecord := s.freqTab.take s.nsym.toNat

/-- CODE_TAB[0..NSYM), as `State.records` (log 8). -/
def State.codes (s : State) : List CodeEntry := s.codeTab.take s.nsym.toNat

/-- An unused NODE slot (R55). -/
def Node.unused : Node := ⟨.empty, 0, 0, none, none⟩

/-- NODE[k] of a list of slots. -/
def slotOf (nodes : List Node) (k : Nat) : Node := nodes.getD k Node.unused

/-! ### Container widths -/

/-- CHAR_BYTES(mode): 1, 1, 2, 3 (R6, R134). -/
def charBytes (mode : BitVec 2) : Nat :=
  match mode.toNat with
  | 0 => 1
  | 1 => 1
  | 2 => 2
  | _ => 3

/-- MODE_LIMIT(mode) (R6, R171). -/
def modeLimit (mode : BitVec 2) : Nat :=
  match mode.toNat with
  | 0 => 127
  | 1 => 255
  | 2 => 65535
  | _ => 16777215

/-- `code_slot_bits = 8 * ((max_code_length div 8) + 1)` (R132). -/
def codeSlotBits (maxLen : Nat) : Nat := 8 * (maxLen / 8 + 1)

/-- The width of a tree-region entry in bits: `8*CHAR_BYTES(mode) + 8 + code_slot_bits` (R131). -/
def entryBits (mode : BitVec 2) (maxLen : Nat) : Nat := 8 * charBytes mode + 8 + codeSlotBits maxLen

/-- `filler = (8 - ((1 + S) mod 8)) mod 8` (R135). -/
def fillerBits (payloadBits : Nat) : Nat := (8 - (1 + payloadBits) % 8) % 8

end Sys2Proof.Machine
end

