-- ==== Sys2Proof/Machine/Order.lean ====
section
/-! DEFINITION. Lists ordered by a key, largest first: the stable sort of R12 and the queue insertion of R201. -/

namespace Sys2Proof.Machine

/-- Insert x before the first element whose key is not greater than x's own; append when every key is greater (R201). -/
def insertDesc {α : Type} (key : α → Nat) (x : α) : List α → List α
  | [] => [x]
  | y :: ys => if key y ≤ key x then x :: y :: ys else y :: insertDesc key x ys

/-- `stable_sort_desc(xs, key)`: largest key first, equal keys in their original order (R12). -/
def sortDesc {α : Type} (key : α → Nat) : List α → List α
  | [] => []
  | x :: xs => insertDesc key x (sortDesc key xs)

end Sys2Proof.Machine
end

