-- ==== Sys2Proof/Machine/Frequency.lean ====
section
/-! DEFINITION. FREQ and SORT (spec/40_frequency.md R170-R173). -/

namespace Sys2Proof.Machine

/-- MAX_SYMBOLS (R6). -/
abbrev maxSymbols : Nat := 255

/-- One more occurrence, at index i, of the symbol x: its record's count goes up by one, or a record is appended (R170). -/
def countOne (x : Sym) (i : Nat) : List FreqRecord → List FreqRecord
  | [] => [⟨x, 1, BitVec.ofNat 18 i⟩]
  | r :: rs => if r.sym = x then { r with count := r.count + 1 } :: rs else r :: countOne x i rs

/-- The records of the symbols from index i on, added to the records t (R170). -/
def countFrom (i : Nat) (t : List FreqRecord) : List Sym → List FreqRecord
  | [] => t
  | x :: xs => countFrom (i + 1) (countOne x i t) xs

/-- The symbol a 32-bit value at most 0xFFFFFF stands for (R50). -/
def toSym (x : Word) : Sym := x.setWidth 24

/-- The records of an input, in first-appearance order (R170). -/
def recordsOf (xs : List Word) : List FreqRecord := countFrom 0 [] (xs.map toSym)

/-- Every symbol is at most the mode's limit (R171). -/
def covered (xs : List Word) (mode : BitVec 2) : Bool := xs.all fun x => decide (x.toNat ≤ modeLimit mode)

/-- `select_mode`: the smallest mode whose limit covers every symbol (R171). -/
def selectMode (xs : List Word) : BitVec 2 :=
  if covered xs 0 then 0 else if covered xs 1 then 1 else if covered xs 2 then 2 else 3

/-- FREQ's registers and table when the input xs gives the records t (R170). -/
def afterFreq (xs : List Word) (t : List FreqRecord) (s : State) : State :=
  { s with
    freqTab := t
    nsym := BitVec.ofNat 8 t.length
    mode := selectMode xs
    encN := s.inLen
    maxLen := 0
    nnodes := 0
    payStart := 0
    payEnd := 0
    outLen := 0
    phase := .counted }

/-- FREQ once its input is read: UNKNOWN_MODE before ALPHABET_OVERFLOW, each over the whole input (R170, R324). -/
def freqOf (xs : List Word) (s : State) : Stage :=
  if covered xs 3 then
    if (recordsOf xs).length > maxSymbols then .raised .alphabetOverflow s else .ok (afterFreq xs (recordsOf xs) s)
  else .raised .unknownMode s

/-- The FREQ stage (R170). -/
def freqStage (s : State) : Stage :=
  if s.inLen.toNat > s.symCap then .raised .inputLength s
  else if s.inLen.toNat = 0 then .raised .emptyInput s
  else
    match s.symbols s.inLen.toNat with
    | none => .fault .unwrittenInput
    | some xs => freqOf xs s

/-- The key of SORT: the count (R172). -/
def FreqRecord.key (r : FreqRecord) : Nat := r.count.toNat

/-- The SORT stage (R172). PAY_START and PAY_END become 0 by R46 (DEDUCED, log 13). -/
def sortStage (s : State) : Stage :=
  .ok { s with
    freqTab := sortDesc FreqRecord.key s.records
    payStart := 0
    payEnd := 0
    outLen := 0
    phase := .sorted }

/-- FREQ (R170): accepted in every phase. -/
def execFreq (s : State) : Host.Outcome State Fault Refusal := complete (freqStage s)

/-- SORT (R172): PHASE = 1. -/
def execSort (s : State) : Host.Outcome State Fault Refusal := complete (requirePhase [.counted] sortStage s)

end Sys2Proof.Machine
end

