-- ==== Sys2Proof/Machine/Tree.lean ====
section
/-! DEFINITION. BUILD and CODEGEN (spec/41_tree.md R200-R211). -/

namespace Sys2Proof.Machine

/-! ### BUILD -/

/-- A node id in the working queue Q (R59), with f(id) = NODE[id].freq beside it. -/
structure QEntry where
  /-- the node id -/
  id : Nat
  /-- NODE[id].freq -/
  freq : BitVec 32
deriving DecidableEq, Repr

/-- The key of the queue: the frequency (R201). -/
def QEntry.key (e : QEntry) : Nat := e.freq.toNat

/-- A leaf for a record (R200). -/
def leafOf (r : FreqRecord) : Node := ⟨.leaf, r.count, r.sym, none, none⟩

/-- A child id as a NODE slot holds it: 9 bits (R55). -/
def childId (k : Nat) : Option (BitVec 9) := some (BitVec.ofNat 9 k)

/-- The queue of the leaves from id k on, in record order (R200). -/
def leafQueue (k : Nat) : List FreqRecord → List QEntry
  | [] => []
  | r :: rs => ⟨k, r.count⟩ :: leafQueue (k + 1) rs

/-- Take the two entries at the tail: (the rest, b the one nearer the head, a the tail entry) (R200, R202). -/
def takeTail : List QEntry → Option (List QEntry × QEntry × QEntry)
  | [] => none
  | [_] => none
  | [b, a] => some ([], b, a)
  | x :: y :: z :: rest =>
    match takeTail (y :: z :: rest) with
    | none => none
    | some (q, b, a) => some (x :: q, b, a)

/-- The node that merges the tail entry a and the next smallest b: b goes right, a goes left (R202). -/
def mergedNode (b a : QEntry) : Node := ⟨.internal, a.freq + b.freq, 0, childId a.id, childId b.id⟩

/-- `while len(Q) >= 3`: merge the two entries at the tail and insert the new node, whose id is the next free one (R200, R201).
Each turn shortens Q by one, so `fuel = len(Q)` lets it end. -/
def mergeLoop : (fuel : Nat) → List Node → List QEntry → List Node × List QEntry
  | 0, nodes, q => (nodes, q)
  | fuel + 1, nodes, q =>
    if q.length < 3 then (nodes, q)
    else
      match takeTail q with
      | none => (nodes, q)
      | some (rest, b, a) =>
        mergeLoop fuel (nodes ++ [mergedNode b a]) (insertDesc QEntry.key ⟨nodes.length, a.freq + b.freq⟩ rest)

/-- The sum of the counts, the root's frequency (R203). -/
def sumCounts : List FreqRecord → BitVec 32
  | [] => 0
  | r :: rs => r.count + sumCounts rs

/-- The root over what is left of the queue: right the first entry, left the second if present (R203). -/
def rootOver (freq : BitVec 32) : List QEntry → Node
  | [] => ⟨.root, freq, 0, none, none⟩
  | [r] => ⟨.root, freq, 0, none, childId r.id⟩
  | r :: l :: _ => ⟨.root, freq, 0, childId l.id, childId r.id⟩

/-- The whole tree of the sorted records: leaves, internal nodes in merge order, the root last (R200, R204). -/
def buildNodes (rs : List FreqRecord) : List Node :=
  let (nodes, q) := mergeLoop rs.length (rs.map leafOf) (leafQueue 0 rs)
  nodes ++ [rootOver (sumCounts rs) q]

/-- The BUILD stage (R200). PAY_START and PAY_END become 0 by R46 (DEDUCED, log 13). -/
def buildStage (s : State) : Stage :=
  if s.nsym = 0 then .raised .degenerateTree s
  else
    .ok { s with
      nodeTab := buildNodes s.records
      nnodes := BitVec.ofNat 32 (buildNodes s.records).length
      payStart := 0
      payEnd := 0
      outLen := 0
      phase := .tree }

/-! ### CODEGEN -/

/-- MAX_CODE_LEN (R6). -/
abbrev maxCodeLen : Nat := 63

/-- `code(k)` as far as it is assigned; "" for the root, and for a node no assigned node points to, which no run reaches
(R205; DESIGN CHOICE, log 8). -/
def codeAt (cs : List (Nat × BitStr)) (k : Nat) : BitStr := (cs.lookup k).getD []

/-- The codes of the children of node x: right `code(x) ++ "1"`, left `code(x) ++ "0"`, where valid (R205). -/
def childCodes (nodes : List Node) (cs : List (Nat × BitStr)) (x : Nat) : List (Nat × BitStr) :=
  (match (slotOf nodes x).right with
    | some r => [(r.toNat, codeAt cs x ++ [true])]
    | none => []) ++
  (match (slotOf nodes x).left with
    | some l => [(l.toNat, codeAt cs x ++ [false])]
    | none => [])

/-- `for x from lo + count - 1 down to lo`: assign the codes of x's children (R205). -/
def assignCodes (nodes : List Node) (lo : Nat) : (count : Nat) → List (Nat × BitStr) → List (Nat × BitStr)
  | 0, cs => cs
  | count + 1, cs => assignCodes nodes lo count (childCodes nodes cs (lo + count) ++ cs)

/-- The code table of a tree with n leaves whose nodes are given: entry k is the leaf with id k (R205, R207). -/
def codeTableOf (nodes : List Node) (n nnodes : Nat) : List CodeEntry :=
  let cs := assignCodes nodes n (nnodes - n) []
  (List.range n).map fun k => ⟨(slotOf nodes k).sym, codeAt cs k⟩

/-- The largest code length (R208). -/
def maxLength : List CodeEntry → Nat
  | [] => 0
  | e :: es => max e.code.length (maxLength es)

/-- The code table of this state's tree (R205). -/
def State.codeTable (s : State) : List CodeEntry := codeTableOf s.nodeTab s.nsym.toNat s.nnodes.toNat

/-- The CODEGEN stage (R205). PAY_START and PAY_END become 0 by R46 (DEDUCED, log 13). -/
def codegenStage (s : State) : Stage :=
  if maxLength s.codeTable > maxCodeLen then .raised .codeLengthOverflow s
  else
    .ok { s with
      codeTab := s.codeTable
      maxLen := BitVec.ofNat 6 (maxLength s.codeTable)
      payStart := 0
      payEnd := 0
      outLen := 0
      phase := .coded }

/-- BUILD (R200): PHASE = 2. -/
def execBuild (s : State) : Host.Outcome State Fault Refusal := complete (requirePhase [.sorted] buildStage s)

/-- CODEGEN (R205): PHASE = 3. -/
def execCodegen (s : State) : Host.Outcome State Fault Refusal := complete (requirePhase [.tree] codegenStage s)

end Sys2Proof.Machine
end

