-- ==== Sys2Proof/Machine/Pack.lean ====
section
/-! DEFINITION. PACK and COMPRESS (spec/42_pack.md R230-R235). -/

namespace Sys2Proof.Machine

/-- The code of a symbol: the table entry whose symbol equals its full 32-bit value (R232). -/
def codeFor (tab : List CodeEntry) (x : Word) : Option BitStr :=
  (tab.find? fun e => e.sym.setWidth 32 == x).map CodeEntry.code

/-- The codes of SYM_IN[i..i+n), read and looked up one by one (R230, R232): an entry never written is a fault (R93), a symbol
without a code raises UNMATCHED_CODE, whichever comes first (DEDUCED, log 16). -/
def payloadCodes (tab : List CodeEntry) (symIn : Nat → Option Word) : (i n : Nat) → Result (List BitStr)
  | _, 0 => .ok []
  | i, n + 1 =>
    match symIn i with
    | none => .fault .unwrittenInput
    | some x =>
      match codeFor tab x with
      | none => .raised .unmatchedCode
      | some c =>
        match payloadCodes tab symIn (i + 1) n with
        | .ok cs => .ok (c :: cs)
        | .raised e => .raised e
        | .fault f => .fault f

/-- E(k): one tree-region entry (R131, R231). -/
def entryOf (mode : BitVec 2) (maxLen : Nat) (e : CodeEntry) : BitStr :=
  let skip := codeSlotBits maxLen - e.code.length
  bin (8 * charBytes mode) e.sym.toNat ++ bin 8 skip ++ zeros skip ++ e.code

/-- TREE: one entry per table entry, in mapping order (R231). -/
def treeRegion (mode : BitVec 2) (maxLen : Nat) (tab : List CodeEntry) : BitStr := tab.flatMap (entryOf mode maxLen)

/-- The payload region: filler, the sentinel "1", the codes (R232). -/
def payloadRegion (cs : List BitStr) : BitStr := zeros (fillerBits cs.flatten.length) ++ [true] ++ cs.flatten

/-- The trailer (R233, R136). -/
def trailerBits (nsym : BitVec 8) (maxLen : BitVec 6) (mode : BitVec 2) : BitStr :=
  bin 8 nsym.toNat ++ bin 6 maxLen.toNat ++ bin 2 mode.toNat

/-- The container (R130, R230). -/
def containerOf (nsym : BitVec 8) (maxLen : BitVec 6) (mode : BitVec 2) (tab : List CodeEntry) (cs : List BitStr) : List Byte :=
  bytes (treeRegion mode maxLen.toNat tab ++ payloadRegion cs ++ trailerBits nsym maxLen mode)

/-- The container of this state's registers and table, with these payload codes (R230). -/
def State.container (s : State) (cs : List BitStr) : List Byte := containerOf s.nsym s.maxLen s.mode s.codes cs

/-- What PACK writes, or why it fails: UNMATCHED_CODE before OUTPUT_OVERFLOW (R230, R234, R324). -/
def packBytes (s : State) : Result (List Byte) :=
  match payloadCodes s.codes s.symIn 0 s.encN.toNat with
  | .raised e => .raised e
  | .fault f => .fault f
  | .ok cs => if (s.container cs).length > s.byteCap then .raised .outputOverflow else .ok (s.container cs)

/-- PACK's effect when the container is out (R230). PAY_START and PAY_END become 0 by R46 (DEDUCED, log 13). -/
def afterPack (out : List Byte) (s : State) : State :=
  { s with
    mem := Memory.writeBytes s.mem byteOutBase out
    outLen := BitVec.ofNat 32 out.length
    payStart := 0
    payEnd := 0
    phase := .packed }

/-- The PACK stage (R230). When it fails, every byte of BYTE_OUT is unspecified (R322). -/
def packStage (s : State) : Stage :=
  match packBytes s with
  | .ok out => .ok (afterPack out s)
  | .raised e => .raised e (discardByteOut s)
  | .fault f => .fault f

/-- The COMPRESS stages, without their own prerequisite checks (R235). -/
def compressStage (s : State) : Stage :=
  ((((freqStage s).andThen sortStage).andThen buildStage).andThen codegenStage).andThen packStage

/-- PACK (R230): PHASE = 4 or 5. -/
def execPack (s : State) : Host.Outcome State Fault Refusal := complete (requirePhase [.coded, .packed] packStage s)

/-- COMPRESS (R235): accepted in every phase. -/
def execCompress (s : State) : Host.Outcome State Fault Refusal := complete (compressStage s)

end Sys2Proof.Machine
end

