-- ==== Sys2Proof/Machine/Unpack.lean ====
section
/-! DEFINITION. PARSE, MATCH and DECOMPRESS (spec/43_unpack.md R260-R270). -/

namespace Sys2Proof.Machine

/-! ### PARSE -/

/-- The trailer's fields (R136, R261). -/
structure Trailer where
  /-- symbol_count -/
  count : BitVec 8
  /-- max_code_length -/
  maxLen : BitVec 6
  /-- mode -/
  mode : BitVec 2
deriving DecidableEq, Repr

/-- The trailer from the last two bytes of the container: byte L-2 is symbol_count, byte L-1 is
`max_code_length * 4 + mode` (R136, R260). -/
def trailerOf (b0 b1 : Byte) : Trailer := ⟨b0, b1.extractLsb' 2 6, b1.extractLsb' 0 2⟩

/-- Read n tree-region entries from the bits that are left before the trailer (R260, R262). An entry that does not fit whole
raises TRUNCATED_HEADER; a skip count of at least the slot width raises HEADER_FORMAT; the padding bits are dropped
unread (R270). -/
def parseEntries (symBits slot : Nat) : (n : Nat) → BitStr → Result (List CodeEntry)
  | 0, _ => .ok []
  | n + 1, rest =>
    let e := rest.take (symBits + 8 + slot)
    if e.length < symBits + 8 + slot then .raised .truncatedHeader
    else
      let skip := val ((e.drop symBits).take 8)
      if slot ≤ skip then .raised .headerFormat
      else
        match parseEntries symBits slot n (rest.drop (symBits + 8 + slot)) with
        | .ok es => .ok (⟨BitVec.ofNat 24 (val (e.take symBits)), e.drop (symBits + 8 + skip)⟩ :: es)
        | .raised err => .raised err
        | .fault f => .fault f

/-- The key of the decode table: the code length (R263). -/
def CodeEntry.key (e : CodeEntry) : Nat := e.code.length

/-- The tree region of a container whose bytes before the trailer are given (R260, R262). -/
def parseTree (t : Trailer) (body : List Byte) : Result (List CodeEntry) :=
  parseEntries (8 * charBytes t.mode) (codeSlotBits t.maxLen.toNat) t.count.toNat (bits body)

/-- PARSE's effect when the trailer is t, the entries in tree-region order are es and the container has len bytes (R260).
The entries are re-sorted longest first (R263). -/
def afterParse (t : Trailer) (es : List CodeEntry) (len : Nat) (s : State) : State :=
  { s with
    codeTab := sortDesc CodeEntry.key es
    nsym := t.count
    maxLen := t.maxLen
    mode := t.mode
    payStart := BitVec.ofNat 32 (t.count.toNat * entryBits t.mode t.maxLen.toNat / 8)
    payEnd := BitVec.ofNat 32 (len - 2)
    encN := 0
    nnodes := 0
    outLen := 0
    phase := .parsed }

/-- The trailer of a container of at least two bytes (R136). -/
def trailerIn (c : List Byte) : Trailer := trailerOf (c.getD (c.length - 2) 0) (c.getD (c.length - 1) 0)

/-- The bytes before the trailer (R260). -/
def bodyOf (c : List Byte) : List Byte := c.take (c.length - 2)

/-- PARSE once its input is read: `c` is BYTE_IN[0..L) with L at least 2 (R260). -/
def parseOf (c : List Byte) (s : State) : Stage :=
  match parseTree (trailerIn c) (bodyOf c) with
  | .ok es => .ok (afterParse (trailerIn c) es c.length s)
  | .raised e => .raised e s
  | .fault f => .fault f

/-- The PARSE stage (R260). -/
def parseStage (s : State) : Stage :=
  if s.inLen.toNat > s.byteCap then .raised .inputLength s
  else if s.inLen.toNat < 2 then .raised .truncatedHeader s
  else
    match s.inputBytes 0 s.inLen.toNat with
    | none => .fault .unwrittenInput
    | some c => parseOf c s

/-! ### MATCH -/

/-- The bits after the sentinel: leading zeros up to and including the first 1 are dropped; none when there is no 1 (R265). -/
def afterSentinel : BitStr → Option BitStr
  | [] => none
  | true :: rest => some rest
  | false :: rest => afterSentinel rest

/-- The first entry whose code is a prefix of the bits (R266). -/
def firstMatch (tab : List CodeEntry) (rest : BitStr) : Option CodeEntry := tab.find? fun e => e.code.isPrefixOf rest

/-- Greedy prefix matching with room for `room` more symbols (R264, R266): UNMATCHED_CODE before OUTPUT_OVERFLOW at each
step (R324). Every turn fills one place of SYM_OUT, so the loop ends after at most SYM_CAP + 1 turns. -/
def matchLoop (tab : List CodeEntry) : (room : Nat) → BitStr → Result (List Sym)
  | _, [] => .ok []
  | 0, b :: rest =>
    match firstMatch tab (b :: rest) with
    | none => .raised .unmatchedCode
    | some _ => .raised .outputOverflow
  | room + 1, b :: rest =>
    match firstMatch tab (b :: rest) with
    | none => .raised .unmatchedCode
    | some e =>
      match matchLoop tab room ((b :: rest).drop e.code.length) with
      | .ok out => .ok (e.sym :: out)
      | .raised err => .raised err
      | .fault f => .fault f

/-- What MATCH decodes, or why it fails (R264). -/
def matchSymbols (s : State) : Result (List Sym) :=
  match s.inputBytes s.payStart.toNat s.payEnd.toNat with
  | none => .fault .unwrittenInput
  | some p =>
    match afterSentinel (bits p) with
    | none => .raised .truncatedPayload
    | some rest => matchLoop s.codes s.symCap rest

/-- A symbol as SYM_OUT holds it: `zext_32` (R51, R92). -/
def symWord (x : Sym) : Word := x.setWidth 32

/-- MATCH's effect when the decoded symbols are out (R264). -/
def afterMatch (out : List Sym) (s : State) : State :=
  { s with
    mem := Memory.writeWords s.mem symOutBase (out.map symWord)
    outLen := BitVec.ofNat 32 out.length
    phase := .decoded }

/-- The MATCH stage (R264). When it fails, every entry of SYM_OUT is unspecified (R322). -/
def matchStage (s : State) : Stage :=
  match matchSymbols s with
  | .ok out => .ok (afterMatch out s)
  | .raised e => .raised e (discardSymOut s)
  | .fault f => .fault f

/-- The DECOMPRESS stages, MATCH without its prerequisite check (R267): the final state is that of PARSE then MATCH, PAY_START and
PAY_END as PARSE latched them (DEDUCED, log 13). -/
def decompressStage (s : State) : Stage := (parseStage s).andThen matchStage

/-- PARSE (R260): accepted in every phase. -/
def execParse (s : State) : Host.Outcome State Fault Refusal := complete (parseStage s)

/-- MATCH (R264): PHASE = 8 or 9. -/
def execMatch (s : State) : Host.Outcome State Fault Refusal := complete (requirePhase [.parsed, .decoded] matchStage s)

/-- DECOMPRESS (R267): accepted in every phase. -/
def execDecompress (s : State) : Host.Outcome State Fault Refusal := complete (decompressStage s)

end Sys2Proof.Machine
end

