-- ==== Sys2Proof/Machine/Dispatch.lean ====
section
/-! DEFINITION. One arm per command (R123): execution and completion of the latched command (R292). -/

namespace Sys2Proof.Machine

def exec (i : Instr) (s : State) : Host.Outcome State Fault Refusal :=
  match i with
  | .freq => Sys2Proof.Machine.execFreq s
  | .sort => Sys2Proof.Machine.execSort s
  | .build => Sys2Proof.Machine.execBuild s
  | .codegen => Sys2Proof.Machine.execCodegen s
  | .pack => Sys2Proof.Machine.execPack s
  | .compress => Sys2Proof.Machine.execCompress s
  | .parse => Sys2Proof.Machine.execParse s
  | .matchCodes => Sys2Proof.Machine.execMatch s
  | .decompress => Sys2Proof.Machine.execDecompress s
  | .clear => Sys2Proof.Machine.execClear s

end Sys2Proof.Machine
end

