-- ==== Sys2Proof/Machine/Engine.lean ====
section
/-! DEFINITION. The engine's turn (R292, R296). HUFF-CORE fetches no instruction (R31, R98): what selects its behaviour is the
latched command word (R58). -/

namespace Sys2Proof.Machine

/-- What the latched word spells (R58, R98). -/
def fetch (s : State) : Decoded := decode s.cmd

/-- The engine's turn: while BUSY = 1 exactly one step is enabled, the latched command's; while BUSY = 0 none is, and the
engine waits (R292, R63, R334; DEDUCED, log 15). -/
def engineTurn (s : State) : Host.Outcome State Fault Refusal :=
  if s.status.busy then
    match fetch s with
    | .command i => exec i s
    | .rejected _ => execIllegal s
  else .next s

end Sys2Proof.Machine
end

