-- ==== Sys2Proof/Machine/HostBus.lean ====
section
/-! DEFINITION. The host's accesses (spec/20_memory.md R80-R88, R93; spec/10_state.md R32-R61; spec/44_control.md R290-R293;
spec/70_reset_and_hazards.md R363, R364) and the reset input (R360, R361). -/

namespace Sys2Proof.Machine

/-! ### Which accesses are allowed -/

/-- A 32-bit access needs a multiple of 4; an 8-bit access goes to BYTE_IN and BYTE_OUT only; no other width (R83, R84). A reserved
byte of a byte window is not of BYTE_IN or BYTE_OUT (DEDUCED, log 10). -/
def accessOk (s : State) (w : Width) (a : Addr) : Bool :=
  match w with
  | .w32 => a.toNat % 4 == 0
  | .w8 => s.region a.toNat == .byteIn || s.region a.toNat == .byteOut
  | .other => false

/-! ### Reads -/

/-- An unspecified 32-bit value (R57, R60, R93). -/
def State.drawWord (s : State) : Word := Config.freeWord s.draws

/-- The value v, or an unspecified one while a command is pending (R60). -/
def whenIdle (s : State) (v : Word) : Word := if s.status.busy then s.drawWord else v

/-- ID always reads 0x48460100 (R33). -/
def idValue : Word := 0x48460100#32

/-- A read of the CSR block (R32, R33-R49, R60, R61). Reserved offsets read 0. -/
def csrRead (s : State) (off : Nat) : Word :=
  if off = offId then idValue
  else if off = offCmd then s.cmd
  else if off = offStatus then s.status.word
  else if off = offPhase then whenIdle s s.phase.word
  else if off = offInLen then s.inLen
  else if off = offOutLen then whenIdle s s.outLen
  else if off = offNsym then whenIdle s (s.nsym.setWidth 32)
  else if off = offMaxLen then whenIdle s (s.maxLen.setWidth 32)
  else if off = offMode then whenIdle s (s.mode.setWidth 32)
  else if off = offPayStart then whenIdle s s.payStart
  else if off = offPayEnd then whenIdle s s.payEnd
  else if off = offEncN then whenIdle s s.encN
  else if off = offSymCap then BitVec.ofNat 32 s.symCap
  else if off = offByteCap then BitVec.ofNat 32 s.byteCap
  else if off = offNnodes then whenIdle s s.nnodes
  else 0

/-- The phases in which FREQ_TAB entries 0 to NSYM-1 are valid (R57). -/
def Phase.freqTabValid (p : Phase) : Bool := [Phase.counted, .sorted, .tree, .coded, .packed].contains p

/-- The phases in which NODE slots 0 to NNODES-1 are valid (R57). -/
def Phase.nodeValid (p : Phase) : Bool := [Phase.tree, .coded, .packed].contains p

/-- The phases in which CODE_TAB entries 0 to NSYM-1 are valid (R57). -/
def Phase.codeTabValid (p : Phase) : Bool := [Phase.coded, .packed, .parsed, .decoded].contains p

/-- The two words of a FREQ_TAB entry (R54). -/
def FreqRecord.window (r : FreqRecord) (k : Nat) : Word := if k = 0 then r.sym.setWidth 32 else r.count

/-- The code of a node's kind (R55). -/
def NodeKind.word : NodeKind → Word
  | .empty => 0
  | .leaf => 1
  | .internal => 2
  | .root => 3

/-- A child word: bit [31] the valid bit, bits [8:0] the id; 0 when not valid (R55). -/
def childWord : Option (BitVec 9) → Word
  | none => 0
  | some i => 0x80000000#32 + i.setWidth 32

/-- The four words of a NODE slot: kind, freq, LEFT, and RIGHT or, of a LEAF, the symbol (R55). -/
def Node.window (n : Node) (k : Nat) : Word :=
  match k with
  | 0 => n.kind.word
  | 1 => n.freq
  | 2 => if n.kind = .leaf then 0 else childWord n.left
  | _ => if n.kind = .leaf then n.sym.setWidth 32 else childWord n.right

/-- The four words of a CODE_TAB entry: sym, len, val(code)[31:0], val(code)[63:32] (R56). -/
def CodeEntry.window (e : CodeEntry) (k : Nat) : Word :=
  match k with
  | 0 => e.sym.setWidth 32
  | 1 => (BitVec.ofNat 8 e.code.length).setWidth 32
  | 2 => BitVec.ofNat 32 (val e.code)
  | _ => BitVec.ofNat 32 (val e.code / 2 ^ 32)

/-- A read of a table window at word index i: defined while no command is pending, in the valid phases, for an entry below the
table's length (R57, R60); otherwise a free value. `per` is the words per entry. -/
def tableRead {α : Type} (s : State) (valid : Bool) (len per : Nat) (tab : List α) (window : α → Nat → Word) (i : Nat) : Word :=
  if !s.status.busy && valid && decide (i / per < len) then
    match tab[i / per]? with
    | some e => window e (i % per)
    | none => s.drawWord
  else s.drawWord

/-- The byte on lane k of a read at a byte window: a byte above the capacity is reserved and reads 0 (R80, R85); a byte with no
known value, and any byte of BYTE_OUT while a command is pending, is a free value (R60, R93). -/
def laneRead (s : State) (hidden : Bool) (a hi k : Nat) : Byte :=
  if a + k < hi then
    if hidden then Config.freeByte s.draws k else (Memory.read s.mem (a + k)).getD (Config.freeByte s.draws k)
  else 0

/-- A 32-bit read at a byte window (R87). -/
def lanesRead (s : State) (hidden : Bool) (a hi : Nat) : Word :=
  joinLanes (laneRead s hidden a hi 0) (laneRead s hidden a hi 1) (laneRead s hidden a hi 2) (laneRead s hidden a hi 3)

/-- The data a permitted 32-bit read returns (R80, R85). -/
def readWordAt (s : State) (a : Nat) : Word :=
  match s.region a with
  | .csr => csrRead s a
  | .reserved => 0
  | .freqTab => tableRead s s.phase.freqTabValid s.nsym.toNat 2 s.freqTab FreqRecord.window ((a - freqTabBase) / 4)
  | .node => tableRead s s.phase.nodeValid s.nnodes.toNat 4 s.nodeTab Node.window ((a - nodeBase) / 4)
  | .codeTab => tableRead s s.phase.codeTabValid s.nsym.toNat 4 s.codeTab CodeEntry.window ((a - codeTabBase) / 4)
  | .symIn => (Memory.readWord s.mem a).getD s.drawWord
  | .symOut => whenIdle s ((Memory.readWord s.mem a).getD s.drawWord)
  | .byteIn => lanesRead s false a (byteInBase + s.byteCap)
  | .byteOut => lanesRead s s.status.busy a (byteOutBase + s.byteCap)

/-- The data a permitted 8-bit read returns: its one byte, on bits [7:0] (R87); the bits above are 0 (DEDUCED, log 12). -/
def readByteAt (s : State) (a : Nat) : Word :=
  match s.region a with
  | .byteIn => (laneRead s false a (byteInBase + s.byteCap) 0).setWidth 32
  | .byteOut => (laneRead s s.status.busy a (byteOutBase + s.byteCap) 0).setWidth 32
  | _ => 0

/-- The data a permitted read returns. -/
def readValue (s : State) (w : Width) (a : Addr) : Word :=
  match w with
  | .w8 => readByteAt s a.toNat
  | _ => readWordAt s a.toNat

/-- A host read (R83, R84, R88): no state of the block changes; the host has the data. -/
def hostRead (w : Width) (a : Addr) (s : State) : Host.Outcome State Fault Refusal :=
  if accessOk s w a then .next { s with lastRead := some (readValue s w a), draws := s.draws + 1 }
  else .fault .busError

/-! ### Writes -/

/-- A write of an input while a command is pending is a protocol violation (R364); otherwise the write happens. -/
def inputWrite (s : State) (written : State) : Host.Outcome State Fault Refusal :=
  if s.status.busy then .fault .inputWriteWhileBusy else .next written

/-- A CMD write: accepted when idle (R291), dropped with OVR set while busy (R293). -/
def cmdWrite (v : Word) (s : State) : State := if s.status.busy then overrun s else accept v s

/-- Store a byte at a byte window unless it lies above the capacity (R80, R85). -/
def storeLane (hi : Nat) (m : List Host.Cell) (a : Nat) (b : Byte) : List Host.Cell :=
  if a < hi then Memory.write m a b else m

/-- Store a word's four lanes at a byte window (R87). -/
def storeLanes (hi : Nat) (m : List Host.Cell) (a : Nat) (v : Word) : List Host.Cell :=
  storeLane hi (storeLane hi (storeLane hi (storeLane hi m a (lane v 0)) (a + 1) (lane v 1)) (a + 2) (lane v 2)) (a + 3) (lane v 3)

/-- The memory after a permitted write of BYTE_IN at either width (R87). -/
def byteInWrite (s : State) (w : Width) (a : Nat) (v : Word) : List Host.Cell :=
  match w with
  | .w8 => storeLane (byteInBase + s.byteCap) s.mem a (lane v 0)
  | _ => storeLanes (byteInBase + s.byteCap) s.mem a v

/-- A permitted write (R80, R85, R86, R290, R364): CMD, IN_LEN, SYM_IN and BYTE_IN take it; every other target ignores it. -/
def writeAt (w : Width) (a : Nat) (v : Word) (s : State) : Host.Outcome State Fault Refusal :=
  match s.region a with
  | .csr =>
    if a = offCmd then .next (cmdWrite v s)
    else if a = offInLen then inputWrite s { s with inLen := v }
    else .next s
  | .symIn => inputWrite s { s with mem := Memory.writeWord s.mem a v }
  | .byteIn => inputWrite s { s with mem := byteInWrite s w a v }
  | .reserved | .freqTab | .node | .codeTab | .symOut | .byteOut => .next s

/-- A host write (R83, R84). -/
def hostWrite (w : Width) (a : Addr) (v : Word) (s : State) : Host.Outcome State Fault Refusal :=
  if accessOk s w a then writeAt w a.toNat v s else .fault .busError

/-! ### Reset -/

/-- The reset input (R360, R361): every piece of the block's state takes its reset value, a pending command is discarded. The
parameters are constant; the model's own fields belong to the host's side and stay (DESIGN CHOICE, log 14). -/
def resetInput (s : State) : State :=
  { State.resetWith s.symCap s.byteCap with host := s.host, lastRead := s.lastRead, draws := s.draws }

end Sys2Proof.Machine
end

