-- ==== Sys2Proof/Machine/Step.lean ====
section
/-! DEFINITION. One step: the next event of the total order of R94. -/

namespace Sys2Proof.Machine

/-- One event, performed on the state from which it has been taken (R8, R94). -/
def perform (e : HostEvent) (s : State) : Host.Outcome State Fault Refusal :=
  match e with
  | .read w a => hostRead w a s
  | .write w a v => hostWrite w a v s
  | .engine => engineTurn s
  | .reset => .next (resetInput s)

/-- One step: the event at the head of the total order; when no event is left, the engine takes its turn, so every accepted
command completes (R94, R368). -/
def step (s : State) : Host.Outcome State Fault Refusal :=
  match s.host with
  | [] => engineTurn s
  | e :: rest => perform e { s with host := rest }

/-- The state in which the command word of an opcode-table row has just been accepted (R291) and the engine moves next: what
a host write of the word to CMD and the engine's turn come to (DESIGN CHOICE, log 3). -/
def State.withFetchWord (s : State) (nbits w : Nat) : State :=
  accept (tableWord nbits w) { s with host := .engine :: s.host }

end Sys2Proof.Machine
end

