-- ==== Sys2Proof/Machine/HostScript.lean ====
section
/-! DEFINITION. The host-script notation of spec/30_encoding.md R140 and R141 as event lists. A run of the model is one order of
events (R94), so POLL is given by how many of its reads come before the engine's turn. EXPECT is a claim about a value read, not a
hardware action, and has no event. -/

namespace Sys2Proof.Machine

/-- `W32 addr, value` (R140). -/
def w32 (a : Nat) (v : Nat) : HostEvent := .write .w32 (BitVec.ofNat 23 a) (BitVec.ofNat 32 v)
/-- `W8 addr, value` (R140). -/
def w8 (a : Nat) (v : Nat) : HostEvent := .write .w8 (BitVec.ofNat 23 a) (BitVec.ofNat 32 v)
/-- `R32 addr` (R140). -/
def r32 (a : Nat) : HostEvent := .read .w32 (BitVec.ofNat 23 a)
/-- `R8 addr` (R140). -/
def r8 (a : Nat) : HostEvent := .read .w8 (BitVec.ofNat 23 a)

/-- `POLL`, in the order in which `early` of its STATUS reads come before the engine's turn and one after it (R141). -/
def poll (early : Nat) : List HostEvent := List.replicate early (r32 offStatus) ++ [.engine, r32 offStatus]

/-- `RUN op` (R141). -/
def runCmd (i : Instr) (early : Nat) : List HostEvent := w32 offCmd (encode i).toNat :: poll early

/-- `LOADSYM i, [v0, v1, ...]` (R141). -/
def loadSym (i : Nat) : List Nat → List HostEvent
  | [] => []
  | v :: vs => w32 (symInBase + 4 * i) v :: loadSym (i + 1) vs

/-- `LOADBYTES j, hh hh ...` (R141). -/
def loadBytes (j : Nat) : List Nat → List HostEvent
  | [] => []
  | b :: bs => w8 (byteInBase + j) b :: loadBytes (j + 1) bs

end Sys2Proof.Machine
end

