-- ==== Sys2Proof/Safety.lean ====
section
/-! DEFINITION. What a good state and a good outcome are, in the terms claims use: the spec's tables written out once more,
independently of the machine (R32, R60, R80, R83, R294, R320), the outcomes of a command (R292, R322, R323), and the invariant. -/

namespace Sys2Proof.Machine

/-! ### Outcomes -/

/-- STATUS after a command that succeeded (R292, R62). -/
def okStatus (s : State) : Status := ⟨false, true, false, s.status.ovr, 0⟩

/-- STATUS after a command that failed with an error of this code (R292, R62). -/
def errStatus (code : BitVec 4) (s : State) : Status := ⟨false, true, true, s.status.ovr, code⟩

/-- The registers of R322: PHASE and the result registers at 0, STATUS with the error; everything else as in s. -/
def failedState (code : BitVec 4) (s : State) : State :=
  { s with
    phase := .idle, outLen := 0, nsym := 0, maxLen := 0, mode := 0, payStart := 0, payEnd := 0, encN := 0, nnodes := 0,
    status := errStatus code s }

/-- The effect of a failing stage whose output region is [lo, hi): R322's registers; every byte of the region holds no known
value and every other byte of memory is as in s; nothing else changed. -/
def FailsDiscarding (o : Host.Outcome State Fault Refusal) (code : BitVec 4) (s : State) (lo hi : Nat) : Prop :=
  ∃ m, o = .next { failedState code s with mem := m } ∧
    ∀ a, Memory.read m a = if within a lo hi then none else Memory.read s.mem a

/-- What a permitted read leaves (R88). -/
def afterRead (rest : List HostEvent) (v : Word) (s : State) : State :=
  { s with host := rest, lastRead := some v, draws := s.draws + 1 }

/-- The engine moves next, and `rest` are the events after that (R292, R368). -/
def engineMoves (s : State) (rest : List HostEvent) : Prop := s.host = .engine :: rest ∨ (s.host = [] ∧ rest = [])

/-- Run commands one after the other and stop at the first that fails (R235, R267). -/
def runInTurn : List Instr → State → Host.Outcome State Fault Refusal
  | [], s => .next s
  | i :: is, s =>
    match exec i s with
    | .next t => if t.status.err then .next t else runInTurn is t
    | o => o

/-! ### Tables of the spec -/

/-- The OP values of R123, as numbers. -/
def opNumbers : List Nat := [0x01, 0x02, 0x03, 0x04, 0x05, 0x08, 0x11, 0x12, 0x18, 0x7F]

/-- A word that spells no command: RSVD != 0 or a reserved OP (R122, R124, R296). -/
def illegalWord (w : Word) : Prop := w.toNat / 256 ≠ 0 ∨ w.toNat % 256 ∉ opNumbers

/-- The phases in which a command is accepted (R294). -/
def prerequisite : Instr → List Phase
  | .sort => [.counted]
  | .build => [.sorted]
  | .codegen => [.tree]
  | .pack => [.coded, .packed]
  | .matchCodes => [.parsed, .decoded]
  | .freq | .compress | .parse | .decompress | .clear =>
    [.idle, .counted, .sorted, .tree, .coded, .packed, .parsed, .decoded]

/-- The codes a command can complete with, 0 for success (R320, R235, R267). -/
def codesOf : Instr → List (BitVec 4)
  | .freq => [0, 1, 2, 5, 11]
  | .sort => [0, 12]
  | .build => [0, 7, 12]
  | .codegen => [0, 8, 12]
  | .pack => [0, 6, 10, 12]
  | .compress => [0, 1, 2, 5, 6, 8, 10, 11]
  | .parse => [0, 3, 9, 11]
  | .matchCodes => [0, 4, 6, 10, 12]
  | .decompress => [0, 3, 4, 6, 9, 10, 11]
  | .clear => [0]

/-- A permitted host access (R83, R84). -/
def permitted (s : State) (w : Width) (a : Addr) : Prop :=
  (w = .w32 ∧ a.toNat % 4 = 0) ∨
  (w = .w8 ∧ (within a.toNat 0x300000 (0x300000 + s.byteCap) ∨ within a.toNat 0x400000 (0x400000 + s.byteCap)))

/-- The CSRs that are always readable, with their values (R32, R60). -/
def csrAlways (s : State) : List (Nat × Word) :=
  [ (0x000, 0x48460100), (0x004, s.cmd), (0x008, s.status.word), (0x010, s.inLen),
    (0x030, BitVec.ofNat 32 s.symCap), (0x034, BitVec.ofNat 32 s.byteCap) ]

/-- PHASE and the result registers, readable while no command is pending, with their values (R32, R34, R42-R48, R60). -/
def csrResults (s : State) : List (Nat × Word) :=
  [ (0x00C, s.phase.word), (0x014, s.outLen), (0x018, s.nsym.setWidth 32), (0x01C, s.maxLen.setWidth 32),
    (0x020, s.mode.setWidth 32), (0x024, s.payStart), (0x028, s.payEnd), (0x02C, s.encN), (0x038, s.nnodes) ]

/-- A reserved address (R61, R80). -/
def reservedAddr (s : State) (a : Nat) : Prop :=
  within a 0x00003C 0x001000 ∨ within a 0x001800 0x002000 ∨ within a 0x005000 0x100000 ∨
  within a (0x100000 + 4 * s.symCap) 0x200000 ∨ within a (0x200000 + 4 * s.symCap) 0x300000 ∨
  within a (0x300000 + s.byteCap) 0x400000 ∨ 0x400000 + s.byteCap ≤ a

/-- A read-only target (R86): a CSR other than CMD and IN_LEN, a table window, SYM_OUT or BYTE_OUT. -/
def readOnlyAddr (s : State) (a : Nat) : Prop :=
  (a < 0x3C ∧ a ≠ 0x04 ∧ a ≠ 0x10) ∨ within a 0x001000 0x001800 ∨ within a 0x002000 0x005000 ∨
  within a 0x200000 (0x200000 + 4 * s.symCap) ∨ within a 0x400000 (0x400000 + s.byteCap)

/-- An address of SYM_IN or BYTE_IN, or IN_LEN: an input (R364). -/
def inputAddr (s : State) (a : Nat) : Prop :=
  a = 0x10 ∨ within a 0x100000 (0x100000 + 4 * s.symCap) ∨ within a 0x300000 (0x300000 + s.byteCap)

/-! ### Reference readings of the algorithms -/

/-- The record with the largest key, the earliest of equals, and the others in order (R172, R173). -/
def takeMax {α : Type} (key : α → Nat) (x : α) : List α → α × List α
  | [] => (x, [])
  | y :: ys =>
    match takeMax key y ys with
    | (m, rest) => if key x < key m then (m, x :: rest) else (x, y :: ys)

/-- "repeatedly extracting the remaining record with the maximum count; on ties, the earliest-inserted" (R172). -/
def repeatedMax {α : Type} (key : α → Nat) : (fuel : Nat) → List α → List α
  | 0, _ => []
  | _ + 1, [] => []
  | fuel + 1, x :: xs =>
    match takeMax key x xs with
    | (m, rest) => m :: repeatedMax key fuel rest

/-- From a node, one step right for each 1 and left for each 0 (R206). -/
def descend (nodes : List Node) : Nat → BitStr → Option Nat
  | k, [] => some k
  | k, b :: bs =>
    match (if b then (slotOf nodes k).right else (slotOf nodes k).left) with
    | some c => descend nodes c.toNat bs
    | none => none

/-- Greedy prefix matching as a relation (R264, R266): while bits remain, the first table entry whose code is a prefix of them
emits its symbol and consumes its bits. -/
inductive Greedy (tab : List CodeEntry) : BitStr → List Sym → Prop where
  /-- no bits remain -/
  | done : Greedy tab [] []
  /-- one match -/
  | step (before after : List CodeEntry) (e : CodeEntry) (rest : BitStr) (out : List Sym) (table : tab = before ++ e :: after)
      (some_bits : e.code ++ rest ≠ []) (first : ∀ p ∈ before, ¬ p.code <+: e.code ++ rest) (more : Greedy tab rest out) :
      Greedy tab (e.code ++ rest) (e.sym :: out)

/-- `GreedyPart tab p out q`: greedy matching of the bits p emits out and leaves the bits q. -/
inductive GreedyPart (tab : List CodeEntry) : BitStr → List Sym → BitStr → Prop where
  /-- no match yet -/
  | start (p : BitStr) : GreedyPart tab p [] p
  /-- one match -/
  | step (before after : List CodeEntry) (e : CodeEntry) (rest q : BitStr) (out : List Sym) (table : tab = before ++ e :: after)
      (some_bits : e.code ++ rest ≠ []) (first : ∀ p ∈ before, ¬ p.code <+: e.code ++ rest) (more : GreedyPart tab rest out q) :
      GreedyPart tab (e.code ++ rest) (e.sym :: out) q

/-- Entry k of a tree region whose entries are symBits + 8 + slot bits wide: its bits (R131). -/
def entryBitsAt (b : BitStr) (symBits slot k : Nat) : BitStr :=
  (b.drop (k * (symBits + 8 + slot))).take (symBits + 8 + slot)

/-- The skip count of entry k (R131). -/
def skipAt (b : BitStr) (symBits slot k : Nat) : Nat := val (((entryBitsAt b symBits slot k).drop symBits).take 8)

/-- The symbol and code of entry k (R131, R260). -/
def entryAt (b : BitStr) (symBits slot k : Nat) : CodeEntry :=
  ⟨BitVec.ofNat 24 (val ((entryBitsAt b symBits slot k).take symBits)),
    (entryBitsAt b symBits slot k).drop (symBits + 8 + skipAt b symBits slot k)⟩

/-- Entry k lies whole in the bits and its skip count is below the slot width (R262). -/
def entryGood (b : BitStr) (symBits slot k : Nat) : Prop :=
  (k + 1) * (symBits + 8 + slot) ≤ b.length ∧ skipAt b symBits slot k < slot

/-- `stable_sort_desc`: ys is xs reordered, largest key first, equal keys in their original order (R12). -/
def StableDesc {α : Type} (key : α → Nat) (xs ys : List α) : Prop :=
  ys.Perm xs ∧ ys.Pairwise (fun a b => key b ≤ key a) ∧
    ∀ c, ys.filter (fun a => key a == c) = xs.filter (fun a => key a == c)

/-- The records of an input after FREQ and SORT (R170, R172). -/
def sortedRecords (xs : List Word) : List FreqRecord := sortDesc FreqRecord.key (recordsOf xs)

/-- The code table of an input after FREQ, SORT, BUILD and CODEGEN (R205). -/
def huffmanTable (xs : List Word) : List CodeEntry :=
  codeTableOf (buildNodes (sortedRecords xs)) (sortedRecords xs).length (buildNodes (sortedRecords xs)).length

/-! ### The invariant -/

/-- PHASE is 1 to 5. -/
def Phase.encoding (p : Phase) : Prop := p ∈ [Phase.counted, .sorted, .tree, .coded, .packed]

/-- PHASE is 8 or 9. -/
def Phase.decoding (p : Phase) : Prop := p ∈ [Phase.parsed, .decoded]

/-- BUSY and DONE are never both 1; ERR only with DONE; ERRCODE is 0 exactly when ERR is; 14 and 15 never (R37-R39). -/
def State.statusInv (s : State) : Prop :=
  (s.status.busy = true → s.status.done = false) ∧ (s.status.err = true → s.status.done = true) ∧
  (s.status.err = false ↔ s.status.errCode = 0) ∧ s.status.errCode.toNat ≤ 13

/-- What PHASE says of the result registers (R34, R42-R48). -/
def State.resultsInv (s : State) : Prop :=
  (s.phase = .idle → s.nsym = 0 ∧ s.maxLen = 0 ∧ s.mode = 0 ∧ s.payStart = 0 ∧ s.payEnd = 0 ∧ s.encN = 0 ∧ s.nnodes = 0) ∧
  (s.phase.encoding → 1 ≤ s.nsym.toNat ∧ 1 ≤ s.encN.toNat ∧ s.encN.toNat ≤ s.symCap ∧ s.payStart = 0 ∧ s.payEnd = 0) ∧
  (s.phase.decoding → s.encN = 0 ∧ s.nnodes = 0 ∧ s.payStart.toNat ≤ s.payEnd.toNat ∧ s.payEnd.toNat + 2 ≤ s.byteCap) ∧
  (s.phase = .counted ∨ s.phase = .sorted → s.nnodes = 0) ∧
  (s.phase = .counted ∨ s.phase = .sorted ∨ s.phase = .tree → s.maxLen = 0) ∧
  (s.phase = .coded ∨ s.phase = .packed → 1 ≤ s.maxLen.toNat) ∧
  (s.phase ≠ .packed → s.phase ≠ .decoded → s.outLen = 0) ∧
  (s.phase = .packed → s.outLen.toNat ≤ s.byteCap) ∧
  (s.phase = .decoded → s.outLen.toNat ≤ s.symCap)

/-- What PHASE says of the tables (R34, R48, R54-R57, R173, R262, R263). -/
def State.tablesInv (s : State) : Prop :=
  (s.phase.encoding → s.freqTab.length = s.nsym.toNat ∧ (∀ r ∈ s.freqTab, 1 ≤ r.count.toNat) ∧
    (s.freqTab.map FreqRecord.sym).Nodup ∧ (s.freqTab.map FreqRecord.key).sum = s.encN.toNat) ∧
  (s.phase.encoding → s.phase ≠ .counted → s.freqTab.Pairwise fun a b => b.key ≤ a.key) ∧
  (s.phase.nodeValid = true → s.nodeTab = buildNodes s.freqTab ∧ s.nnodes.toNat = s.nodeTab.length) ∧
  (s.phase = .coded ∨ s.phase = .packed → s.codeTab = s.codeTable ∧ s.maxLen.toNat = maxLength s.codeTab) ∧
  (s.phase.decoding → s.codeTab.length = s.nsym.toNat ∧ (∀ e ∈ s.codeTab, 1 ≤ e.code.length ∧ e.code.length ≤ 64) ∧
    s.codeTab.Pairwise fun a b => b.code.length ≤ a.code.length)

/-- An address of one of the four buffers (R80). -/
def bufferAddr (s : State) (a : Nat) : Prop :=
  within a 0x100000 (0x100000 + 4 * s.symCap) ∨ within a 0x200000 (0x200000 + 4 * s.symCap) ∨
  within a 0x300000 (0x300000 + s.byteCap) ∨ within a 0x400000 (0x400000 + s.byteCap)

/-- Memory is in its canonical form and lists addresses of the buffers only (R80). -/
def State.memoryInv (s : State) : Prop := Memory.wf s.mem = true ∧ ∀ c ∈ s.mem, bufferAddr s c.1

/-- What PHASE says of the buffers: the input a staged command will read again has been written, and the output the phase names
is there (R34, R47, R46, R93). -/
def State.buffersInv (s : State) : Prop :=
  (s.phase.encoding → ∀ i < s.encN.toNat, (s.symIn i).isSome = true) ∧
  (s.phase.decoding → ∀ j, s.payStart.toNat ≤ j → j < s.payEnd.toNat → (s.byteIn j).isSome = true) ∧
  (s.phase = .packed → ∀ j < s.outLen.toNat, (s.byteOut j).isSome = true) ∧
  (s.phase = .decoded → ∀ i < s.outLen.toNat, (s.symOut i).isSome = true)

/-- The invariant of the machine. -/
def State.Inv (s : State) : Prop :=
  capsOk s.symCap s.byteCap = true ∧ s.statusInv ∧ s.resultsInv ∧ s.tablesInv ∧ s.memoryInv ∧ s.buffersInv

end Sys2Proof.Machine
end

