-- ==== Sys2Proof/Certificates/Slice0/Obligations.lean ====
section
/-! DEFINITION. The statements for the provers. Each docstring names the rules of spec/ it rests on. -/

open Sys2Proof Sys2Proof.Machine

/-! ### Encoding and the engine's turn -/

/-- R123: the ten command words, as the table numbers them, decode to their commands. -/
def Obligations.CommandWordsDecode : Prop :=
  decode 0x00000001 = .command .freq ∧ decode 0x00000002 = .command .sort ∧ decode 0x00000003 = .command .build ∧
  decode 0x00000004 = .command .codegen ∧ decode 0x00000005 = .command .pack ∧ decode 0x00000008 = .command .compress ∧
  decode 0x00000011 = .command .parse ∧ decode 0x00000012 = .command .matchCodes ∧
  decode 0x00000018 = .command .decompress ∧ decode 0x0000007F = .command .clear ∧
  decodeTableWord 32 0x12 = some .matchCodes ∧ decodeTableWord 32 0x101 = none

/-- R120, R122-R124: a word decodes to a command exactly when it is that command's encoding, and is rejected exactly when
RSVD is not 0 or OP is not listed. -/
def Obligations.DecodeInvertsEncode : Prop :=
  (∀ (w : Word) (i : Instr), decode w = .command i ↔ w = encode i) ∧
  (∀ w : Word, (∃ r, decode w = .rejected r) ↔ illegalWord w)

/-- R292, R58: when the latched word decodes to i and the engine moves, the step is exec of i; while no command is pending an
engine's turn changes nothing (R63, R334; log 15); and `withFetchWord` runs the word's command as the very next step, from the
state its acceptance leaves (log 3). -/
def Obligations.StepRunsLatchedCommand : Prop :=
  (∀ (s : State) (i : Instr) (rest : List HostEvent), s.status.busy = true → decode s.cmd = .command i →
    engineMoves s rest → step s = exec i { s with host := rest }) ∧
  (∀ (s : State) (rest : List HostEvent), s.status.busy = false → engineMoves s rest → step s = .next { s with host := rest }) ∧
  (∀ (s : State) (i : Instr) (w : Nat), decodeTableWord 32 w = some i →
    step (s.withFetchWord 32 w) = exec i (accept (BitVec.ofNat 32 w) s))

/-- R296, R122, R323: a latched word that spells no command fails with ILLEGAL_COMMAND in every phase, and nothing but STATUS
changes. -/
def Obligations.IllegalCommandFailsAlone : Prop :=
  ∀ (s : State) (rest : List HostEvent), s.status.busy = true → illegalWord s.cmd → engineMoves s rest →
    step s = .next { s with host := rest, status := errStatus 13 s }

/-- R294, R323: in a phase that does not meet its prerequisite a command fails with SEQUENCE and nothing but STATUS changes; in
a phase that meets it, it never fails with SEQUENCE. -/
def Obligations.PhasePrerequisites : Prop :=
  ∀ (i : Instr) (s : State),
    (s.phase ∉ prerequisite i → exec i s = .next { s with status := errStatus 12 s }) ∧
    (s.phase ∈ prerequisite i → ∀ t, exec i s = .next t → t.status.errCode ≠ 12)

/-- R291: a 32-bit write of v to CMD while BUSY = 0 latches v, sets BUSY and clears DONE, ERR, ERRCODE and OVR, for every word
v, legal or not, and changes nothing else. -/
def Obligations.CommandAcceptance : Prop :=
  ∀ (s : State) (v : Word) (rest : List HostEvent), s.status.busy = false → s.host = .write .w32 0x004 v :: rest →
    step s = .next { s with host := rest, cmd := v, status := ⟨true, false, false, false, 0⟩ }

/-- R293: a CMD write while BUSY = 1 sets OVR and changes nothing else, and the engine's turn then does what it would have done,
with OVR set beside it; where it would have stopped in a fault, it does. -/
def Obligations.CommandDroppedWhileBusy : Prop :=
  (∀ (s : State) (v : Word) (rest : List HostEvent), s.status.busy = true → s.host = .write .w32 0x004 v :: rest →
    step s = .next { s with host := rest, status := { s.status with ovr := true } }) ∧
  (∀ s t : State, engineTurn s = .next t →
    engineTurn { s with status := { s.status with ovr := true } } = .next { t with status := { t.status with ovr := true } }) ∧
  (∀ (s : State) (f : Fault), engineTurn s = .fault f →
    engineTurn { s with status := { s.status with ovr := true } } = .fault f)

/-- R360, R361, R63: the reset input puts every piece of the block's state at its reset value and discards a pending
command: afterwards BUSY and DONE are 0 and an engine turn does nothing. The parameters stay, and so do the model's own fields
(log 14). -/
def Obligations.ResetDiscardsPendingCommand : Prop :=
  ∀ (s : State) (rest : List HostEvent), s.host = .reset :: rest →
    step s = .next { State.resetWith s.symCap s.byteCap with host := rest, lastRead := s.lastRead, draws := s.draws } ∧
    engineTurn (resetInput s) = .next (resetInput s)

/-- R63: the values after reset, whatever the parameters: CMD, STATUS, PHASE, IN_LEN and every result register 0, nothing
pending, the parameters as given, ID its constant, every entry of the four buffers never written, no table valid. -/
def Obligations.ResetValues : Prop :=
  ∀ symCap byteCap : Nat, ∀ s : State, s = State.resetWith symCap byteCap →
    s.cmd = 0 ∧ s.status = ⟨false, false, false, false, 0⟩ ∧ s.phase = .idle ∧ s.inLen = 0 ∧ s.outLen = 0 ∧ s.nsym = 0 ∧
    s.maxLen = 0 ∧ s.mode = 0 ∧ s.payStart = 0 ∧ s.payEnd = 0 ∧ s.encN = 0 ∧ s.nnodes = 0 ∧
    s.symCap = symCap ∧ s.byteCap = byteCap ∧ csrRead s 0x000 = 0x48460100 ∧
    (∀ k, s.symIn k = none ∧ s.symOut k = none ∧ s.byteIn k = none ∧ s.byteOut k = none) ∧
    s.phase.freqTabValid = false ∧ s.phase.nodeValid = false ∧ s.phase.codeTabValid = false

/-! ### Host accesses -/

/-- R83, R84: a host access ends in a bus error exactly when its width or alignment is not permitted; a permitted read
always completes. That an 8-bit access to a byte of a buffer's window above the capacity is not permitted is the model's reading
(log 10). -/
def Obligations.BusErrorsExactly : Prop :=
  ∀ (s : State) (w : Width) (a : Addr) (v : Word) (rest : List HostEvent), capsOk s.symCap s.byteCap = true →
    (s.host = .read w a :: rest → (step s = .fault .busError ↔ ¬ permitted s w a)) ∧
    (s.host = .read w a :: rest → permitted s w a → ∃ t, step s = .next t) ∧
    (s.host = .write w a v :: rest → (step s = .fault .busError ↔ ¬ permitted s w a))

/-- R364: while a command is pending, a permitted host write stops the run exactly when its target is IN_LEN, SYM_IN or BYTE_IN;
while none is pending no permitted write does. -/
def Obligations.InputWritesWhileBusyFault : Prop :=
  ∀ (s : State) (w : Width) (a : Addr) (v : Word) (rest : List HostEvent), capsOk s.symCap s.byteCap = true →
    permitted s w a → s.host = .write w a v :: rest →
    (s.status.busy = true → (step s = .fault .inputWriteWhileBusy ↔ inputAddr s a.toNat)) ∧
    (s.status.busy = true → ¬ inputAddr s a.toNat → ∃ t, step s = .next t) ∧
    (s.status.busy = false → ∃ t, step s = .next t)

/-- R32-R36, R41-R49: what a 32-bit read of each CSR returns, and that it changes nothing of the block. ID, CMD, STATUS, IN_LEN,
SYM_CAP and BYTE_CAP read so in every state, PHASE and the result registers while no command is pending. PHASE reads R34's numbers:
IDLE 0, COUNTED 1, SORTED 2, TREE 3, CODED 4, PACKED 5, PARSED 8, DECODED 9. -/
def Obligations.CsrReadsReturnRegisters : Prop :=
  ∀ (s : State) (off : Nat) (v : Word) (rest : List HostEvent), s.host = r32 off :: rest →
    ((off, v) ∈ csrAlways s → step s = .next (afterRead rest v s)) ∧
    ((off, v) ∈ csrResults s → s.status.busy = false → step s = .next (afterRead rest v s)) ∧
    (∀ (p : Phase) (n : Word), (p, n) ∈ [(Phase.idle, (0 : Word)), (.counted, 1), (.sorted, 2), (.tree, 3), (.coded, 4), (.packed, 5),
        (.parsed, 8), (.decoded, 9)] →
      s.phase = p → off = 0x00C → s.status.busy = false → step s = .next (afterRead rest n s))

/-- R36: the STATUS word a read returns has BUSY, DONE, ERR, OVR in bits 0 to 3, ERRCODE in bits [11:8], and 0 in bits [7:4] and
[31:12]. -/
def Obligations.StatusWordLayout : Prop :=
  ∀ (s : State) (rest : List HostEvent), s.host = r32 0x008 :: rest →
    ∃ w : Word, step s = .next (afterRead rest w s) ∧
      w.getLsbD 0 = s.status.busy ∧ w.getLsbD 1 = s.status.done ∧ w.getLsbD 2 = s.status.err ∧ w.getLsbD 3 = s.status.ovr ∧
      w.extractLsb' 4 4 = 0 ∧ w.extractLsb' 8 4 = s.status.errCode ∧ w.extractLsb' 12 20 = 0

/-- R60, R87: while a command is pending, a 32-bit read of PHASE, a result register, a table window or SYM_OUT returns a free value,
all 32 bits of it, reserved bits among them (log 4); a read of BYTE_OUT at either width has free values on the lanes of its bytes
below BYTE_CAP, 0 on the lanes of a 32-bit read above it (the model's reading, log 11) and 0 on bits [31:8] of an 8-bit read (the
model's reading, log 12); reads of SYM_IN and, at either width, of BYTE_IN return what they return while none is pending. -/
def Obligations.ReadsWhileBusy : Prop :=
  ∀ (s : State) (a : Nat) (rest : List HostEvent), capsOk s.symCap s.byteCap = true → s.status.busy = true →
    (s.host = r32 a :: rest → a % 4 = 0 → a < 0x800000 →
      ((∃ v, (a, v) ∈ csrResults s) ∨ within a 0x001000 0x001800 ∨ within a 0x002000 0x005000 ∨
          within a 0x200000 (0x200000 + 4 * s.symCap) → step s = .next (afterRead rest (Config.freeWord s.draws) s)) ∧
      (within a 0x400000 (0x400000 + s.byteCap) → ∃ w, step s = .next (afterRead rest w s) ∧
        ∀ k < 4, lane w k = if a + k < 0x400000 + s.byteCap then Config.freeByte s.draws k else 0) ∧
      (within a 0x100000 (0x100000 + 4 * s.symCap) ∨ within a 0x300000 (0x300000 + s.byteCap) →
        ∃ w, step s = .next (afterRead rest w s) ∧
          step { s with status := { s.status with busy := false } } =
            .next (afterRead rest w { s with status := { s.status with busy := false } }))) ∧
    (s.host = r8 a :: rest →
      (within a 0x400000 (0x400000 + s.byteCap) → ∃ w : Word, step s = .next (afterRead rest w s) ∧
        w.extractLsb' 0 8 = Config.freeByte s.draws 0 ∧ w.extractLsb' 8 24 = 0) ∧
      (within a 0x300000 (0x300000 + s.byteCap) → ∃ w, step s = .next (afterRead rest w s) ∧
        step { s with status := { s.status with busy := false } } =
          .next (afterRead rest w { s with status := { s.status with busy := false } })))

/-- R80, R85, R61: a permitted 32-bit read of a reserved address returns 0 and a write there changes nothing, in every state. -/
def Obligations.ReservedSpaceReadsZero : Prop :=
  ∀ (s : State) (a : Nat) (v : Word) (rest : List HostEvent), capsOk s.symCap s.byteCap = true →
    a % 4 = 0 → a < 0x800000 → reservedAddr s a →
    (s.host = r32 a :: rest → step s = .next (afterRead rest 0 s)) ∧
    (s.host = .write .w32 (BitVec.ofNat 23 a) v :: rest → step s = .next { s with host := rest })

/-- R86: a permitted host write, at either width, to a read-only CSR, a table window, SYM_OUT or BYTE_OUT changes nothing and
returns no error. -/
def Obligations.ReadOnlyTargetsIgnoreWrites : Prop :=
  ∀ (s : State) (w : Width) (a : Addr) (v : Word) (rest : List HostEvent), capsOk s.symCap s.byteCap = true →
    permitted s w a → readOnlyAddr s a.toNat → s.host = .write w a v :: rest → step s = .next { s with host := rest }

/-- R88: no read changes the block's state, whatever its address; and the only host write that changes anything but IN_LEN
and memory is the one to CMD. -/
def Obligations.ReadsHaveNoSideEffect : Prop :=
  (∀ (s t : State) (w : Width) (a : Addr) (rest : List HostEvent), s.host = .read w a :: rest → step s = .next t →
    ∃ v, t = afterRead rest v s) ∧
  (∀ (s t : State) (w : Width) (a : Addr) (v : Word) (rest : List HostEvent), s.host = .write w a v :: rest →
    a ≠ 0x004 → step s = .next t → t = { s with host := rest, inLen := t.inLen, mem := t.mem })

/-- R41, R50, R93, R94: with no command pending, a write of IN_LEN stores all 32 bits; a write of SYM_IN entry i makes that entry v
and leaves every other byte of memory, and a read of the entry then returns v; a read of an entry of SYM_IN or SYM_OUT returns its
value, or a free value where it has none. -/
def Obligations.InputWordsReadBack : Prop :=
  ∀ (s : State) (v : Word) (rest : List HostEvent), capsOk s.symCap s.byteCap = true → s.status.busy = false →
    (s.host = .write .w32 0x010 v :: rest → step s = .next { s with host := rest, inLen := v }) ∧
    (∀ i < s.symCap, s.host = .write .w32 (BitVec.ofNat 23 (0x100000 + 4 * i)) v :: rest →
      ∃ m, step s = .next { s with host := rest, mem := m } ∧
        (∀ a, ¬ within a (0x100000 + 4 * i) (0x100000 + 4 * i + 4) → Memory.read m a = Memory.read s.mem a) ∧
        State.symIn { s with mem := m } i = some v ∧
        ∀ rest', step { s with host := r32 (0x100000 + 4 * i) :: rest', mem := m } =
          .next (afterRead rest' v { s with mem := m })) ∧
    (∀ i < s.symCap,
      (s.host = r32 (0x100000 + 4 * i) :: rest →
        step s = .next (afterRead rest ((s.symIn i).getD (Config.freeWord s.draws)) s)) ∧
      (s.host = r32 (0x200000 + 4 * i) :: rest →
        step s = .next (afterRead rest ((s.symOut i).getD (Config.freeWord s.draws)) s)))

/-- R87, R93: with no command pending, the lanes of the byte buffers. A 32-bit write of BYTE_IN at offset 4k puts v[8j+7:8j] in byte
4k+j for each byte below BYTE_CAP and touches no other byte; an 8-bit write puts v[7:0] in its one byte; a 32-bit read of BYTE_IN or
BYTE_OUT has byte 4k+j on lane j, a free value where that byte has none, and 0 above BYTE_CAP (log 11); an 8-bit read returns its
one byte on bits [7:0] and 0 above them (log 12). -/
def Obligations.HostByteLanes : Prop :=
  ∀ (s : State) (v : Word) (rest : List HostEvent), capsOk s.symCap s.byteCap = true → s.status.busy = false →
    (∀ k, 4 * k < s.byteCap → s.host = .write .w32 (BitVec.ofNat 23 (0x300000 + 4 * k)) v :: rest →
      ∃ m, step s = .next { s with host := rest, mem := m } ∧
        (∀ j < 4, 4 * k + j < s.byteCap → Memory.read m (0x300000 + 4 * k + j) = some (v.extractLsb' (8 * j) 8)) ∧
        (∀ a, ¬ within a (0x300000 + 4 * k) (min (0x300000 + 4 * k + 4) (0x300000 + s.byteCap)) →
          Memory.read m a = Memory.read s.mem a)) ∧
    (∀ j < s.byteCap, s.host = .write .w8 (BitVec.ofNat 23 (0x300000 + j)) v :: rest →
      ∃ m, step s = .next { s with host := rest, mem := m } ∧ Memory.read m (0x300000 + j) = some (v.extractLsb' 0 8) ∧
        ∀ a, a ≠ 0x300000 + j → Memory.read m a = Memory.read s.mem a) ∧
    (∀ base, base = 0x300000 ∨ base = 0x400000 →
      (∀ k, 4 * k < s.byteCap → s.host = r32 (base + 4 * k) :: rest →
        ∃ w : Word, step s = .next (afterRead rest w s) ∧
          ∀ j < 4, w.extractLsb' (8 * j) 8 = if 4 * k + j < s.byteCap then
            (Memory.read s.mem (base + 4 * k + j)).getD (Config.freeByte s.draws j) else 0) ∧
      (∀ j < s.byteCap, s.host = r8 (base + j) :: rest →
        ∃ w : Word, step s = .next (afterRead rest w s) ∧
          w.extractLsb' 0 8 = (Memory.read s.mem (base + j)).getD (Config.freeByte s.draws 0) ∧ w.extractLsb' 8 24 = 0))

/-- R54-R57: with no command pending, in the phases where the table is valid, the words of an entry below the table's length read its
fields; in every other phase, and at every other entry, a free value. FREQ_TAB: +0 sym, +4 count. NODE: +0 the kind, EMPTY 0, LEAF 1,
INTERNAL 2, ROOT 3; +4 freq; +8 LEFT: 0 for a LEAF, otherwise bit 31 set and the id in bits [8:0], or 0 where there is no left
child; +12 the symbol of a LEAF, otherwise RIGHT in the same form. CODE_TAB: +0 sym, +4 len in bits [7:0], +8 and +12 bits [31:0] and
[63:32] of the code's value (a code longer than the fields, which no run makes, is cut to them: log 8). -/
def Obligations.TableWindows : Prop :=
  ∀ (s : State) (a k j : Nat) (rest : List HostEvent), s.status.busy = false → s.host = r32 a :: rest →
    (k < 256 → j < 2 → a = 0x001000 + 8 * k + 4 * j →
      (∀ r, s.phase ∈ [Phase.counted, .sorted, .tree, .coded, .packed] → k < s.nsym.toNat → s.freqTab[k]? = some r →
        step s = .next (afterRead rest (if j = 0 then r.sym.setWidth 32 else r.count) s)) ∧
      (s.phase ∉ [Phase.counted, .sorted, .tree, .coded, .packed] ∨ s.nsym.toNat ≤ k →
        step s = .next (afterRead rest (Config.freeWord s.draws) s))) ∧
    (k < 512 → j < 4 → a = 0x002000 + 16 * k + 4 * j →
      (∀ n, s.phase ∈ [Phase.tree, .coded, .packed] → k < s.nnodes.toNat → s.nodeTab[k]? = some n →
        ∃ w : Word, step s = .next (afterRead rest w s) ∧
          (j = 0 → (n.kind = .empty → w = 0) ∧ (n.kind = .leaf → w = 1) ∧ (n.kind = .internal → w = 2) ∧ (n.kind = .root → w = 3)) ∧
          (j = 1 → w = n.freq) ∧
          (j = 2 → (n.kind = .leaf → w = 0) ∧ (n.kind ≠ .leaf → n.left = none → w = 0) ∧
            ∀ i, n.kind ≠ .leaf → n.left = some i → w.toNat = 2 ^ 31 + i.toNat) ∧
          (j = 3 → (n.kind = .leaf → w.toNat = n.sym.toNat) ∧ (n.kind ≠ .leaf → n.right = none → w = 0) ∧
            ∀ i, n.kind ≠ .leaf → n.right = some i → w.toNat = 2 ^ 31 + i.toNat)) ∧
      (s.phase ∉ [Phase.tree, .coded, .packed] ∨ s.nnodes.toNat ≤ k →
        step s = .next (afterRead rest (Config.freeWord s.draws) s))) ∧
    (k < 256 → j < 4 → a = 0x004000 + 16 * k + 4 * j →
      (∀ e, s.phase ∈ [Phase.coded, .packed, .parsed, .decoded] → k < s.nsym.toNat → s.codeTab[k]? = some e →
        ∃ w : Word, step s = .next (afterRead rest w s) ∧
          (j = 0 → w.toNat = e.sym.toNat) ∧ (j = 1 → w.toNat = e.code.length % 2 ^ 8) ∧
          (j = 2 → w.toNat = val e.code % 2 ^ 32) ∧ (j = 3 → w.toNat = val e.code / 2 ^ 32 % 2 ^ 32)) ∧
      (s.phase ∉ [Phase.coded, .packed, .parsed, .decoded] ∨ s.nsym.toNat ≤ k →
        step s = .next (afterRead rest (Config.freeWord s.draws) s)))

/-- R56: the len and value words of a valid CODE_TAB entry give its code back: the code is the last `len` bits of the 64-bit value,
first bit at the top. -/
def Obligations.CodeWindowHoldsCode : Prop :=
  ∀ e : CodeEntry, e.code.length ≤ 64 →
    (e.window 1).toNat = e.code.length ∧
    (e.window 2).toNat + 2 ^ 32 * (e.window 3).toNat = val e.code ∧
    bin (e.window 1).toNat ((e.window 2).toNat + 2 ^ 32 * (e.window 3).toNat) = e.code

/-! ### FREQ and SORT -/

/-- R170: FREQ on a readable input of 1 to SYM_CAP symbols up to 0xFFFFFF with at most 255 distinct ones succeeds. FREQ_TAB has
one record for each distinct symbol, in order of first appearance, with its number of occurrences and first index; NSYM is the
number of distinct symbols; ENC_N is IN_LEN; the registers FREQ clears are 0; nothing else changes, memory included. -/
def Obligations.FreqCountsSymbols : Prop :=
  ∀ (s : State) (xs : List Word), capsOk s.symCap s.byteCap = true → 1 ≤ s.inLen.toNat → s.inLen.toNat ≤ s.symCap →
    s.symbols s.inLen.toNat = some xs → (∀ x ∈ xs, x.toNat ≤ 0xFFFFFF) → xs.dedup.length ≤ 255 →
    ∃ tab n m, exec .freq s = .next { s with
        freqTab := tab, nsym := n, mode := m, encN := s.inLen, maxLen := 0, nnodes := 0, payStart := 0, payEnd := 0,
        outLen := 0, phase := .counted, status := okStatus s } ∧
      tab.length = xs.dedup.length ∧ n.toNat = xs.dedup.length ∧ (∀ x ∈ xs, ∃ r ∈ tab, r.sym.setWidth 32 = x) ∧
      (∀ r ∈ tab, r.sym.setWidth 32 ∈ xs ∧ r.count.toNat = xs.count (r.sym.setWidth 32) ∧
        r.first.toNat = xs.idxOf (r.sym.setWidth 32)) ∧
      tab.Pairwise fun a b => a.first.toNat < b.first.toNat

/-- R170, R324, R322: FREQ's errors in their order, each over the whole input: INPUT_LENGTH, EMPTY_INPUT, UNKNOWN_MODE,
ALPHABET_OVERFLOW; each clears PHASE and the results and leaves memory and IN_LEN. -/
def Obligations.FreqErrorsInOrder : Prop :=
  ∀ s : State,
    (s.symCap < s.inLen.toNat → exec .freq s = .next (failedState 11 s)) ∧
    (s.inLen.toNat ≤ s.symCap → s.inLen = 0 → exec .freq s = .next (failedState 1 s)) ∧
    (∀ xs, 1 ≤ s.inLen.toNat → s.inLen.toNat ≤ s.symCap → s.symbols s.inLen.toNat = some xs →
      ((∃ x ∈ xs, 0xFFFFFF < x.toNat) → exec .freq s = .next (failedState 5 s)) ∧
      ((∀ x ∈ xs, x.toNat ≤ 0xFFFFFF) → 255 < xs.dedup.length → exec .freq s = .next (failedState 2 s)))

/-- R171: after a successful FREQ, MODE is the smallest mode whose limit (127, 255, 65535, 16777215) covers every symbol of the
input. -/
def Obligations.FreqSelectsSmallestMode : Prop :=
  ∀ (s t : State) (xs : List Word), s.symbols s.inLen.toNat = some xs → exec .freq s = .next t → t.status.err = false →
    (∀ x ∈ xs, x.toNat ≤ [127, 255, 65535, 16777215].getD t.mode.toNat 0) ∧
    ∀ m < t.mode.toNat, ∃ x ∈ xs, [127, 255, 65535, 16777215].getD m 0 < x.toNat

/-- R172: with PHASE = 1, SORT puts FREQ_TAB[0..NSYM) in descending order of count, equal counts in their original order; OUT_LEN
is 0, PHASE 2; PAY_START and PAY_END become 0 by R46, the model's reading (log 13); nothing else changes. With any other PHASE it
fails with SEQUENCE. -/
def Obligations.SortOrdersByCount : Prop :=
  ∀ s : State,
    (s.phase = .counted → ∃ tab, exec .sort s = .next { s with
        freqTab := tab, payStart := 0, payEnd := 0, outLen := 0, phase := .sorted, status := okStatus s } ∧
      StableDesc FreqRecord.key (s.freqTab.take s.nsym.toNat) tab) ∧
    (s.phase ≠ .counted → exec .sort s = .next { s with status := errStatus 12 s })

/-- R173: SORT's result is the source's repeated extraction of the maximum with the first-appearance tie-break, and its counts are
non-increasing. -/
def Obligations.SortIsRepeatedExtraction : Prop :=
  ∀ s t : State, s.phase = .counted → exec .sort s = .next t →
    t.freqTab = repeatedMax FreqRecord.key (s.freqTab.take s.nsym.toNat).length (s.freqTab.take s.nsym.toNat) ∧
    t.freqTab.Pairwise fun a b => b.count.toNat ≤ a.count.toNat

/-! ### BUILD and CODEGEN -/

/-- R200, R202-R204, R48: with PHASE = 2 and n = NSYM records, BUILD succeeds and changes only NODE, NNODES and the registers
named (PAY_START and PAY_END become 0 by R46, log 13). NNODES is 2 or 2n - 1; nodes 0 to n-1 are the leaves in record order; the last
node is the root with the sum of the counts, a right child, and a left child exactly when n is at least 2; the nodes before it are
those the merge loop makes from the leaves, and of the queue the loop ends with, the first entry is the root's right child and the
second, if there is one, its left; every node between is internal, has both children and the sum of their frequencies (as 32-bit
sums); every child's id is smaller than its parent's. -/
def Obligations.BuildMakesTree : Prop :=
  ∀ (s : State) (n : Nat), s.phase = .sorted → n = s.nsym.toNat → 1 ≤ n → n ≤ s.freqTab.length →
    ∃ nodes, exec .build s = .next { s with
        nodeTab := nodes, nnodes := BitVec.ofNat 32 (if n = 1 then 2 else 2 * n - 1), payStart := 0, payEnd := 0, outLen := 0,
        phase := .tree, status := okStatus s } ∧
      nodes.length = (if n = 1 then 2 else 2 * n - 1) ∧
      (∀ k r, k < n → s.freqTab[k]? = some r → nodes[k]? = some ⟨.leaf, r.count, r.sym, none, none⟩) ∧
      (∃ l r, nodes[nodes.length - 1]? =
          some ⟨.root, ((s.freqTab.take n).map FreqRecord.count).sum, 0, l, some r⟩ ∧ (l.isSome = true ↔ 2 ≤ n) ∧
        (∀ i, l = some i → i.toNat < nodes.length - 1) ∧ r.toNat < nodes.length - 1 ∧
        ∃ q, mergeLoop n ((s.freqTab.take n).map fun r => ⟨.leaf, r.count, r.sym, none, none⟩)
            ((s.freqTab.take n).zipIdx.map fun x => ⟨x.2, x.1.count⟩) = (nodes.take (nodes.length - 1), q) ∧
          q.map QEntry.id = r.toNat :: l.toList.map BitVec.toNat) ∧
      ∀ k, n ≤ k → k < nodes.length - 1 →
        ∃ l r : BitVec 9, l.toNat < k ∧ r.toNat < k ∧
          nodes[k]? = some ⟨.internal, (slotOf nodes l.toNat).freq + (slotOf nodes r.toNat).freq, 0, some l, some r⟩

/-- R204: after BUILD every node but the root is the child of exactly one node, on exactly one side: no sharing, no cycles. -/
def Obligations.BuildNodesOwnChildren : Prop :=
  ∀ s t : State, s.phase = .sorted → 1 ≤ s.nsym.toNat → s.nsym.toNat ≤ s.freqTab.length → exec .build s = .next t →
    ∀ k < t.nodeTab.length - 1,
      ∃ (p : Nat) (right : Bool), p < t.nodeTab.length ∧
        ∀ (p' : Nat) (right' : Bool), p' < t.nodeTab.length →
          ((if right' then (slotOf t.nodeTab p').right else (slotOf t.nodeTab p').left).map BitVec.toNat = some k ↔
            p' = p ∧ right' = right)

/-- R201: the merged node goes before the first queue entry whose frequency is not greater than its own, and at the end when every
entry's is greater; so a queue in non-increasing order stays so. -/
def Obligations.QueueInsertionPoint : Prop :=
  ∀ (e : QEntry) (q : List QEntry),
    (∃ before after, q = before ++ after ∧ insertDesc QEntry.key e q = before ++ e :: after ∧
      (∀ x ∈ before, e.freq.toNat < x.freq.toNat) ∧ ∀ x, after.head? = some x → x.freq.toNat ≤ e.freq.toNat) ∧
    (q.Pairwise (fun a b => b.freq.toNat ≤ a.freq.toNat) →
      (insertDesc QEntry.key e q).Pairwise fun a b => b.freq.toNat ≤ a.freq.toNat)

/-- R200, R202: one turn of the merge loop on a queue of at least three entries takes the tail entry a and the one before it b,
appends the node (right b, left a, frequency f(a) + f(b)) under the next id and inserts it; on a shorter queue the loop ends. -/
def Obligations.MergeTakesTail : Prop :=
  ∀ (fuel : Nat) (nodes : List Node) (q : List QEntry) (b a : QEntry),
    (q ≠ [] → mergeLoop (fuel + 1) nodes (q ++ [b, a]) =
      mergeLoop fuel (nodes ++ [⟨.internal, a.freq + b.freq, 0, childId a.id, childId b.id⟩])
        (insertDesc QEntry.key ⟨nodes.length, a.freq + b.freq⟩ q)) ∧
    (q.length < 3 → mergeLoop fuel nodes q = (nodes, q))

/-- R205-R208, R322: with PHASE = 3 and the tree BUILD makes of NSYM records, CODEGEN succeeds when no code is longer than 63 bits:
entry k has leaf k's symbol and the string of right (1) and left (0) steps from the root to it; MAXLEN is the largest length and
at least 1; nothing else changes but the registers named (PAY_START and PAY_END become 0 by R46, log 13). A code longer than 63 bits fails it with CODE_LENGTH_OVERFLOW. -/
def Obligations.CodegenAssignsPaths : Prop :=
  ∀ s : State, s.phase = .tree → 1 ≤ s.nsym.toNat → s.freqTab.length = s.nsym.toNat → s.nodeTab = buildNodes s.freqTab →
    s.nnodes.toNat = s.nodeTab.length →
    ((∃ e ∈ s.codeTable, 63 < e.code.length) → exec .codegen s = .next (failedState 8 s)) ∧
    ((∀ e ∈ s.codeTable, e.code.length ≤ 63) → ∃ tab m, exec .codegen s = .next { s with
        codeTab := tab, maxLen := m, payStart := 0, payEnd := 0, outLen := 0, phase := .coded, status := okStatus s } ∧
      tab.length = s.nsym.toNat ∧ 1 ≤ m.toNat ∧ (∀ e ∈ tab, e.code.length ≤ m.toNat) ∧ (∃ e ∈ tab, e.code.length = m.toNat) ∧
      ∀ k < s.nsym.toNat, ∃ e, tab[k]? = some e ∧ e.sym = (slotOf s.nodeTab k).sym ∧
        descend s.nodeTab (s.nodeTab.length - 1) e.code = some k)

/-- R209: in every state of the invariant with PHASE 4 or 5, no code is a prefix of another; the sum of 2^(64-len) over the codes is
2^64 when NSYM is at least 2 and 2^63 when it is 1. -/
def Obligations.CodesArePrefixFree : Prop :=
  ∀ s : State, s.Inv → s.phase = .coded ∨ s.phase = .packed →
    (∀ (i j : Nat) (a b : CodeEntry), s.codeTab[i]? = some a → s.codeTab[j]? = some b → i ≠ j → ¬ a.code <+: b.code) ∧
    (s.codeTab.map fun e => 2 ^ (64 - e.code.length)).sum = if s.nsym = 1 then 2 ^ 63 else 2 ^ 64

/-- R211: from every state of the invariant with PHASE = 3, CODEGEN succeeds and MAXLEN is at most 25: CODE_LENGTH_OVERFLOW cannot
be raised for SYM_CAP up to 2^18. -/
def Obligations.CodeLengthOverflowUnreachable : Prop :=
  ∀ s : State, s.Inv → s.phase = .tree → ∃ t, exec .codegen s = .next t ∧ t.status.err = false ∧ t.maxLen.toNat ≤ 25

/-! ### PACK and COMPRESS -/

/-- R130-R138, R230-R234: with PHASE 4 or 5, codes of 1 to MAXLEN bits, every symbol of SYM_IN[0..ENC_N) readable and in the table,
and a container that fits BYTE_CAP, PACK succeeds: BYTE_OUT[0..OUT_LEN) is, as a bit string, the entries, the filler, the sentinel,
the codes and the trailer; OUT_LEN is the size formula of R138; every byte outside BYTE_OUT[0..OUT_LEN) is as before; PAY_START and
PAY_END become 0 by R46 (log 13) and nothing else changes but PHASE and STATUS. -/
def Obligations.PackWritesContainer : Prop :=
  ∀ (s : State) (xs : List Word) (cs : List BitStr) (size : Nat), capsOk s.symCap s.byteCap = true →
    s.phase = .coded ∨ s.phase = .packed → s.nsym.toNat ≤ s.codeTab.length →
    (∀ e ∈ s.codes, 1 ≤ e.code.length ∧ e.code.length ≤ s.maxLen.toNat) →
    s.symbols s.encN.toNat = some xs → xs.mapM (codeFor s.codes) = some cs →
    size = s.nsym.toNat * (charBytes s.mode + 1 + codeSlotBits s.maxLen.toNat / 8) +
      (1 + cs.flatten.length + fillerBits cs.flatten.length) / 8 + 2 → size ≤ s.byteCap →
    ∃ m out, exec .pack s = .next { s with
        mem := m, outLen := BitVec.ofNat 32 size, payStart := 0, payEnd := 0, phase := .packed, status := okStatus s } ∧
      out.length = size ∧
      bits out = (s.codes.map fun e =>
            bin (8 * charBytes s.mode) e.sym.toNat ++ bin 8 (codeSlotBits s.maxLen.toNat - e.code.length) ++
              zeros (codeSlotBits s.maxLen.toNat - e.code.length) ++ e.code).flatten ++
          (zeros ((8 - (1 + cs.flatten.length) % 8) % 8) ++ [true] ++ cs.flatten) ++
          (bin 8 s.nsym.toNat ++ bin 6 s.maxLen.toNat ++ bin 2 s.mode.toNat) ∧
      (∀ j < size, Memory.read m (0x400000 + j) = out[j]?) ∧
      ∀ a, ¬ within a 0x400000 (0x400000 + size) → Memory.read m a = Memory.read s.mem a

/-- R230, R232, R234, R322, R324: PACK's errors: UNMATCHED_CODE when a symbol of a readable input has no code; otherwise
OUTPUT_OVERFLOW when the container is longer than BYTE_CAP. Every byte of BYTE_OUT is then unspecified. -/
def Obligations.PackErrorsInOrder : Prop :=
  ∀ (s : State) (xs : List Word), s.phase = .coded ∨ s.phase = .packed → s.symbols s.encN.toNat = some xs →
    ((∃ x ∈ xs, codeFor s.codes x = none) → FailsDiscarding (exec .pack s) 6 s 0x400000 (0x400000 + s.byteCap)) ∧
    (∀ cs, xs.mapM (codeFor s.codes) = some cs →
      s.byteCap < (containerOf s.nsym s.maxLen s.mode s.codes cs).length →
      FailsDiscarding (exec .pack s) 10 s 0x400000 (0x400000 + s.byteCap))

/-- R232: the code PACK uses for a symbol is that of the first entry whose symbol equals its full 32-bit value; a value above
0xFFFFFF has none. -/
def Obligations.PackLooksUpFullWord : Prop :=
  ∀ (tab : List CodeEntry) (x : Word),
    (∀ c, codeFor tab x = some c ↔ ∃ before e after, tab = before ++ e :: after ∧ e.sym.toNat = x.toNat ∧ e.code = c ∧
      ∀ p ∈ before, p.sym.toNat ≠ x.toNat) ∧
    (0xFFFFFF < x.toNat → codeFor tab x = none)

/-- R235: COMPRESS on a readable input of 1 to SYM_CAP symbols up to 0xFFFFFF with at most 255 distinct ones, with codes of at most
63 bits and a container that fits BYTE_CAP, succeeds with PHASE = 5, and leaves BYTE_OUT[0..OUT_LEN) the container of the input's
own Huffman table; the other buffers are as before. -/
def Obligations.CompressCompletes : Prop :=
  ∀ (s : State) (xs : List Word) (cs : List BitStr) (out : List Byte), capsOk s.symCap s.byteCap = true →
    1 ≤ s.inLen.toNat → s.inLen.toNat ≤ s.symCap → s.symbols s.inLen.toNat = some xs → (∀ x ∈ xs, x.toNat ≤ 0xFFFFFF) →
    xs.dedup.length ≤ 255 → (∀ e ∈ huffmanTable xs, e.code.length ≤ 63) → xs.mapM (codeFor (huffmanTable xs)) = some cs →
    out = containerOf (BitVec.ofNat 8 (huffmanTable xs).length) (BitVec.ofNat 6 (maxLength (huffmanTable xs))) (selectMode xs)
      (huffmanTable xs) cs → out.length ≤ s.byteCap →
    ∃ t, exec .compress s = .next t ∧ t.status = okStatus s ∧ t.phase = .packed ∧ t.outLen.toNat = out.length ∧
      t.encN = s.inLen ∧ t.inLen = s.inLen ∧ t.nsym.toNat = xs.dedup.length ∧ t.codeTab = huffmanTable xs ∧
      (∀ j < out.length, t.byteOut j = out[j]?) ∧
      ∀ a, ¬ within a 0x400000 (0x400000 + out.length) → Memory.read t.mem a = Memory.read s.mem a

/-! ### PARSE, MATCH and DECOMPRESS -/

/-- R260-R263, R270: PARSE on a readable container of 2 to BYTE_CAP bytes whose entries all fit before the trailer with a skip count
below the slot width succeeds: NSYM, MAXLEN, MODE are the trailer's fields; CODE_TAB is the entries, longest code first, equal
lengths in tree-region order; PAY_START is where the tree region ends and PAY_END is L - 2; nothing else changes. -/
def Obligations.ParseReadsHeader : Prop :=
  ∀ (s : State) (c : List Byte) (b0 b1 : Byte) (symBits slot : Nat), capsOk s.symCap s.byteCap = true → 2 ≤ s.inLen.toNat →
    s.inLen.toNat ≤ s.byteCap → s.inputBytes 0 s.inLen.toNat = some (c ++ [b0, b1]) →
    symBits = 8 * [1, 1, 2, 3].getD (b1.toNat % 4) 0 → slot = 8 * (b1.toNat / 4 / 8 + 1) →
    (∀ k < b0.toNat, entryGood (bits c) symBits slot k) →
    ∃ tab mx md ps pe, exec .parse s = .next { s with
        codeTab := tab, nsym := b0, maxLen := mx, mode := md, payStart := ps, payEnd := pe, encN := 0, nnodes := 0,
        outLen := 0, phase := .parsed, status := okStatus s } ∧
      mx.toNat = b1.toNat / 4 ∧ md.toNat = b1.toNat % 4 ∧ 8 * ps.toNat = b0.toNat * (symBits + 8 + slot) ∧
      pe.toNat = s.inLen.toNat - 2 ∧
      StableDesc (fun e => e.code.length) ((List.range b0.toNat).map (entryAt (bits c) symBits slot)) tab

/-- R260-R262, R324, R322: PARSE's errors in their order: INPUT_LENGTH; TRUNCATED_HEADER for a container of less than 2 bytes; then
the first bad entry decides: TRUNCATED_HEADER when it does not fit, HEADER_FORMAT when its skip count is the slot width or more. -/
def Obligations.ParseErrorsInOrder : Prop :=
  ∀ s : State,
    (s.byteCap < s.inLen.toNat → exec .parse s = .next (failedState 11 s)) ∧
    (s.inLen.toNat ≤ s.byteCap → s.inLen.toNat < 2 → exec .parse s = .next (failedState 3 s)) ∧
    (∀ (c : List Byte) (b0 b1 : Byte) (symBits slot k : Nat), 2 ≤ s.inLen.toNat → s.inLen.toNat ≤ s.byteCap →
      s.inputBytes 0 s.inLen.toNat = some (c ++ [b0, b1]) → symBits = 8 * [1, 1, 2, 3].getD (b1.toNat % 4) 0 →
      slot = 8 * (b1.toNat / 4 / 8 + 1) → k < b0.toNat → (∀ j < k, entryGood (bits c) symBits slot j) →
      ((bits c).length < (k + 1) * (symBits + 8 + slot) → exec .parse s = .next (failedState 3 s)) ∧
      ((k + 1) * (symBits + 8 + slot) ≤ (bits c).length → slot ≤ skipAt (bits c) symBits slot k →
        exec .parse s = .next (failedState 9 s)))

/-- R264-R266: with PHASE 8 or 9 and a readable payload region that is zeros, a 1, and bits that greedy matching with the table
decodes to at most SYM_CAP symbols, MATCH succeeds: SYM_OUT[0..OUT_LEN) holds the symbols, zero-extended, every byte of memory
outside them is as before, PHASE is 9, and nothing else changes. -/
def Obligations.MatchDecodesGreedily : Prop :=
  ∀ (s : State) (p : List Byte) (z : Nat) (rest : BitStr) (out : List Sym), capsOk s.symCap s.byteCap = true →
    s.phase = .parsed ∨ s.phase = .decoded → s.inputBytes s.payStart.toNat s.payEnd.toNat = some p →
    bits p = zeros z ++ [true] ++ rest → Greedy s.codes rest out → out.length ≤ s.symCap →
    ∃ m, exec .matchCodes s = .next { s with
        mem := m, outLen := BitVec.ofNat 32 out.length, phase := .decoded, status := okStatus s } ∧
      (∀ i x, out[i]? = some x → State.symOut { s with mem := m } i = some (x.setWidth 32)) ∧
      ∀ a, ¬ within a 0x200000 (0x200000 + 4 * out.length) → Memory.read m a = Memory.read s.mem a

/-- R264, R265, R322, R324: MATCH's errors: TRUNCATED_PAYLOAD when the payload region has no 1; UNMATCHED_CODE at the first
position where no code is a prefix of what remains; OUTPUT_OVERFLOW when one more symbol than SYM_CAP would be written. Every entry
of SYM_OUT is then unspecified. -/
def Obligations.MatchErrorsInOrder : Prop :=
  ∀ (s : State) (p : List Byte), s.phase = .parsed ∨ s.phase = .decoded →
    s.inputBytes s.payStart.toNat s.payEnd.toNat = some p →
    (true ∉ bits p → FailsDiscarding (exec .matchCodes s) 4 s 0x200000 (0x200000 + 4 * s.symCap)) ∧
    (∀ z rest out q, bits p = zeros z ++ [true] ++ rest → GreedyPart s.codes rest out q → q ≠ [] →
      (out.length ≤ s.symCap → (∀ e ∈ s.codes, ¬ e.code <+: q) →
        FailsDiscarding (exec .matchCodes s) 6 s 0x200000 (0x200000 + 4 * s.symCap)) ∧
      (out.length = s.symCap → (∃ e ∈ s.codes, e.code <+: q) →
        FailsDiscarding (exec .matchCodes s) 10 s 0x200000 (0x200000 + 4 * s.symCap)))

/-- R235, R267: in every phase COMPRESS leaves exactly what FREQ, SORT, BUILD, CODEGEN and PACK leave when run one after the other
up to the first error, and DECOMPRESS what PARSE and then MATCH leave, PAY_START and PAY_END included (log 13). -/
def Obligations.CombinedCommandsAreTheirStages : Prop :=
  ∀ s : State, exec .compress s = runInTurn [.freq, .sort, .build, .codegen, .pack] s ∧
    exec .decompress s = runInTurn [.parse, .matchCodes] s

/-- R267: DECOMPRESS on a readable, well-formed container whose payload decodes to at most SYM_CAP symbols succeeds with PHASE = 9
and SYM_OUT[0..OUT_LEN) those symbols; PAY_START and PAY_END stay PARSE's, by R267 and PROG-5 against R46's wording, which is the
model's reading (log 13); every other byte of memory is as before. -/
def Obligations.DecompressCompletes : Prop :=
  ∀ (s : State) (tree pay : List Byte) (b0 b1 : Byte) (symBits slot z : Nat) (tab : List CodeEntry) (rest : BitStr)
    (out : List Sym), capsOk s.symCap s.byteCap = true → s.inLen.toNat ≤ s.byteCap →
    s.inputBytes 0 s.inLen.toNat = some (tree ++ pay ++ [b0, b1]) →
    symBits = 8 * [1, 1, 2, 3].getD (b1.toNat % 4) 0 → slot = 8 * (b1.toNat / 4 / 8 + 1) →
    8 * tree.length = b0.toNat * (symBits + 8 + slot) → (∀ k < b0.toNat, skipAt (bits tree) symBits slot k < slot) →
    StableDesc (fun e => e.code.length) ((List.range b0.toNat).map (entryAt (bits tree) symBits slot)) tab →
    bits pay = zeros z ++ [true] ++ rest → Greedy tab rest out → out.length ≤ s.symCap →
    ∃ t, exec .decompress s = .next t ∧ t.status = okStatus s ∧ t.phase = .decoded ∧ t.outLen.toNat = out.length ∧
      t.nsym = b0 ∧ t.codeTab = tab ∧ t.payStart.toNat = tree.length ∧ t.payEnd.toNat = s.inLen.toNat - 2 ∧
      (∀ i x, out[i]? = some x → t.symOut i = some (x.setWidth 32)) ∧
      ∀ a, ¬ within a 0x200000 (0x200000 + 4 * out.length) → Memory.read t.mem a = Memory.read s.mem a

/-- R268: round trip. When COMPRESS succeeds, DECOMPRESS of its container, copied to BYTE_IN of a block with the same parameters with
IN_LEN its length, succeeds with OUT_LEN = N and SYM_OUT[i] = SYM_IN[i] for every i < N. -/
def Obligations.CompressDecompressRoundTrip : Prop :=
  ∀ s t u : State, capsOk s.symCap s.byteCap = true → exec .compress s = .next t → t.status.err = false →
    u.symCap = s.symCap → u.byteCap = s.byteCap → u.inLen = t.outLen → (∀ j < t.outLen.toNat, u.byteIn j = t.byteOut j) →
    ∃ v, exec .decompress u = .next v ∧ v.status.err = false ∧ v.outLen = s.inLen ∧
      ∀ i < s.inLen.toNat, v.symOut i = s.symIn i

/-- R93: an engine read of an input entry never written stops the model: FREQ and COMPRESS with an unwritten SYM_IN entry below
IN_LEN; PACK when the first entry below ENC_N without a value comes before any symbol without a code (log 16); PARSE and DECOMPRESS
with an unwritten BYTE_IN byte below IN_LEN; MATCH with one in the payload region. -/
def Obligations.UnwrittenInputFaults : Prop :=
  ∀ s : State,
    (∀ i < s.inLen.toNat, s.inLen.toNat ≤ s.symCap → s.symIn i = none →
      exec .freq s = .fault .unwrittenInput ∧ exec .compress s = .fault .unwrittenInput) ∧
    (∀ i < s.encN.toNat, s.phase = .coded ∨ s.phase = .packed → s.symIn i = none →
      (∀ k < i, ∃ x c, s.symIn k = some x ∧ codeFor s.codes x = some c) → exec .pack s = .fault .unwrittenInput) ∧
    (∀ j < s.inLen.toNat, 2 ≤ s.inLen.toNat → s.inLen.toNat ≤ s.byteCap → s.byteIn j = none →
      exec .parse s = .fault .unwrittenInput ∧ exec .decompress s = .fault .unwrittenInput) ∧
    (∀ j < s.payEnd.toNat, s.payStart.toNat ≤ j → s.phase = .parsed ∨ s.phase = .decoded → s.byteIn j = none →
      exec .matchCodes s = .fault .unwrittenInput)

/-! ### CLEAR, completion, failures and frames -/

/-- R295: CLEAR succeeds in every state: PHASE and the result registers are 0, and IN_LEN, the buffers and all else stay. -/
def Obligations.ClearDiscardsResults : Prop :=
  ∀ s : State, exec .clear s = .next { s with
    phase := .idle, outLen := 0, nsym := 0, maxLen := 0, mode := 0, payStart := 0, payEnd := 0, encN := 0, nnodes := 0,
    status := okStatus s }

/-- R292, R38, R39, R62: every command that completes leaves BUSY = 0, DONE = 1, OVR as it was, and ERR = 1 exactly when ERRCODE is
not 0. -/
def Obligations.CompletionWritesStatus : Prop :=
  ∀ (i : Instr) (s t : State), exec i s = .next t →
    t.status.busy = false ∧ t.status.done = true ∧ t.status.ovr = s.status.ovr ∧ (t.status.err = true ↔ t.status.errCode ≠ 0)

/-- R320, R261, R335: the codes each command can complete with. UNKNOWN_MODE never comes from PARSE, MATCH or DECOMPRESS, and
DEGENERATE_TREE never from COMPRESS. -/
def Obligations.ErrorCodesOfCommands : Prop :=
  ∀ (i : Instr) (s t : State), exec i s = .next t → t.status.errCode ∈ codesOf i

/-- R322: a failure other than ILLEGAL_COMMAND and SEQUENCE leaves BUSY = 0 and DONE = 1 and clears PHASE and the results; a failing PACK stage (PACK, or COMPRESS
with UNMATCHED_CODE or OUTPUT_OVERFLOW) leaves every byte of BYTE_OUT unspecified, a failing MATCH stage (MATCH, or DECOMPRESS with
TRUNCATED_PAYLOAD, UNMATCHED_CODE or OUTPUT_OVERFLOW) every entry of SYM_OUT; every other byte, IN_LEN and CMD are unchanged. -/
def Obligations.FailureEffects : Prop :=
  ∀ (i : Instr) (s t : State), exec i s = .next t → t.status.err = true → t.status.errCode ≠ 12 →
    t.status.busy = false ∧ t.status.done = true ∧ t.phase = .idle ∧ t.outLen = 0 ∧ t.nsym = 0 ∧ t.maxLen = 0 ∧ t.mode = 0 ∧ t.payStart = 0 ∧ t.payEnd = 0 ∧ t.encN = 0 ∧
    t.nnodes = 0 ∧ t.inLen = s.inLen ∧ t.cmd = s.cmd ∧
    ∀ a, Memory.read t.mem a =
      if (i = .pack ∨ (i = .compress ∧ t.status.errCode ∈ [6, 10])) ∧ within a 0x400000 (0x400000 + s.byteCap) then none
      else if (i = .matchCodes ∨ (i = .decompress ∧ t.status.errCode ∈ [4, 6, 10])) ∧
        within a 0x200000 (0x200000 + 4 * s.symCap) then none
      else Memory.read s.mem a

/-- R41, R49, R82, R92: no command writes IN_LEN, CMD, a parameter or the model's own fields; FREQ, SORT, BUILD, CODEGEN, PARSE and
CLEAR change no byte of memory; PACK and COMPRESS change none outside BYTE_OUT, and on success only BYTE_OUT[0..OUT_LEN); MATCH and
DECOMPRESS none outside SYM_OUT, and on success only SYM_OUT[0..OUT_LEN). -/
def Obligations.CommandFrames : Prop :=
  ∀ (i : Instr) (s t : State), capsOk s.symCap s.byteCap = true → exec i s = .next t →
    t.inLen = s.inLen ∧ t.cmd = s.cmd ∧ t.symCap = s.symCap ∧ t.byteCap = s.byteCap ∧ t.host = s.host ∧
    t.lastRead = s.lastRead ∧ t.draws = s.draws ∧
    (i ∈ [Instr.freq, .sort, .build, .codegen, .parse, .clear] → t.mem = s.mem) ∧
    (i = .pack ∨ i = .compress → ∀ a, ¬ within a 0x400000 (0x400000 + s.byteCap) → Memory.read t.mem a = Memory.read s.mem a) ∧
    (i = .pack ∨ i = .compress → t.status.err = false → ∀ a, ¬ within a 0x400000 (0x400000 + t.outLen.toNat) →
      Memory.read t.mem a = Memory.read s.mem a) ∧
    (i = .matchCodes ∨ i = .decompress → ∀ a, ¬ within a 0x200000 (0x200000 + 4 * s.symCap) →
      Memory.read t.mem a = Memory.read s.mem a) ∧
    (i = .matchCodes ∨ i = .decompress → t.status.err = false → ∀ a, ¬ within a 0x200000 (0x200000 + 4 * t.outLen.toNat) →
      Memory.read t.mem a = Memory.read s.mem a)

/-- R42, R47: OUT_LEN is 0 after every completed command but a successful PACK, COMPRESS, MATCH or DECOMPRESS and a SEQUENCE failure,
which leaves it; ENC_N is IN_LEN after a successful FREQ or COMPRESS, unchanged by SORT, BUILD, CODEGEN and PACK that succeed, and 0
after PARSE, CLEAR and every failure but SEQUENCE. -/
def Obligations.OutLenAndEncN : Prop :=
  ∀ (i : Instr) (s t : State), exec i s = .next t →
    (t.status.errCode = 12 → t.outLen = s.outLen ∧ t.encN = s.encN) ∧
    (t.status.errCode ≠ 12 → t.status.err = true ∨ i ∉ [Instr.pack, .compress, .matchCodes, .decompress] → t.outLen = 0) ∧
    (t.status.err = false → i = .freq ∨ i = .compress → t.encN = s.inLen) ∧
    (t.status.err = false → i ∈ [Instr.sort, .build, .codegen, .pack] → t.encN = s.encN) ∧
    (t.status.errCode ≠ 12 → t.status.err = true ∨ i = .parse ∨ i = .clear → t.encN = 0)

/-- R92, R365, R94: commands depend only on what they read. SORT, BUILD, CODEGEN, PACK and MATCH do not depend on IN_LEN; SORT, BUILD
and CODEGEN read no buffer; no command depends on the events still to come, what the host has read or the free values drawn (the
model's own fields, log 1, 4, 5). -/
def Obligations.CommandsIgnoreWhatTheyDoNotRead : Prop :=
  ∀ (i : Instr) (s t : State) (v : Word) (m : List Host.Cell) (h : List HostEvent) (r : Option Word) (d : Nat),
    exec i s = .next t →
    (i ∈ [Instr.sort, .build, .codegen, .pack, .matchCodes] → exec i { s with inLen := v } = .next { t with inLen := v }) ∧
    (i ∈ [Instr.sort, .build, .codegen] → exec i { s with mem := m } = .next { t with mem := m }) ∧
    exec i { s with host := h, lastRead := r, draws := d } = .next { t with host := h, lastRead := r, draws := d }

/-! ### The whole machine -/

/-- R368, R292, R293, R361: progress. From a state with a command pending, within as many steps as there are events left and one
more, either the run stops in a fault or BUSY is 0 in some state passed; and unless a reset, which discards the command, is among
the events taken up to that state, DONE is 1 there and CMD still holds the command's word. That the engine moves once the events
run out is the model's choice (log 1). -/
def Obligations.PendingCommandCompletes : Prop :=
  ∀ s t : State, s.status.busy = true → Host.Core.run Sys2Proof.core (s.host.length + 1) s = .next t →
    ∃ k u, k ≤ s.host.length + 1 ∧ Host.Core.run Sys2Proof.core k s = .next u ∧ u.status.busy = false ∧
      (HostEvent.reset ∉ s.host.take k → u.status.done = true ∧ u.cmd = s.cmd)

/-- R141, R291, R292: `RUN op` from an idle block: whatever the number of STATUS reads before the engine's turn, the read after it
returns a word with DONE = 1 and BUSY = 0, if the command does not stop in a fault. -/
def Obligations.PollSeesDone : Prop :=
  ∀ (s u : State) (i : Instr) (early : Nat) (rest : List HostEvent), s.status.busy = false →
    s.host = runCmd i early ++ rest → Host.Core.run Sys2Proof.core (early + 3) s = .next u →
    u.host = rest ∧ u.cmd = encode i ∧ ∃ w : Word, u.lastRead = some w ∧ w.getLsbD 1 = true ∧ w.getLsbD 0 = false

/-- The invariant holds after reset, whatever the parameters (R63, R360). -/
def Obligations.InvHoldsAtReset : Prop :=
  ∀ symCap byteCap : Nat, capsOk symCap byteCap = true → (State.resetWith symCap byteCap).Inv

/-- R37-R39: every step keeps what STATUS promises: BUSY and DONE never both 1, ERR only with DONE, ERRCODE 0 exactly when ERR is,
never 14 or 15. -/
def Obligations.StepKeepsStatusInv : Prop :=
  ∀ s t : State, s.statusInv → step s = .next t → t.statusInv

/-- R80, R82, R86: every step keeps memory canonical and every listed byte inside the four buffers. -/
def Obligations.StepKeepsMemoryInv : Prop :=
  ∀ s t : State, capsOk s.symCap s.byteCap = true → s.memoryInv → step s = .next t →
    t.symCap = s.symCap ∧ t.byteCap = s.byteCap ∧ t.memoryInv

/-- Every step keeps the whole invariant: what PHASE says of the registers, the tables and the buffers (R34, R42-R48, R54-R57). -/
def Obligations.StepKeepsInv : Prop :=
  ∀ s t : State, s.Inv → step s = .next t → t.Inv

/-- R292, R57, R93, R211: from every state of the invariant with a command pending, the engine's turn completes the command, and
never with DEGENERATE_TREE, unless it is FREQ, COMPRESS, PARSE or DECOMPRESS and an input entry below IN_LEN was never written. -/
def Obligations.EngineTurnCompletes : Prop :=
  ∀ s : State, s.Inv → s.status.busy = true →
    (∀ i, decode s.cmd = .command i → i = .freq ∨ i = .compress → s.inLen.toNat ≤ s.symCap →
      ∀ k < s.inLen.toNat, (s.symIn k).isSome = true) →
    (∀ i, decode s.cmd = .command i → i = .parse ∨ i = .decompress → s.inLen.toNat ≤ s.byteCap →
      ∀ k < s.inLen.toNat, (s.byteIn k).isSome = true) →
    ∃ t, engineTurn s = .next t ∧ t.status.busy = false ∧ t.status.done = true ∧ t.status.errCode ≠ 7
end

