-- ==== Sys2Proof/Laws/Bits.lean ====
section
/-! SUPPORT. The laws of the bit utilities: fixed-width fields and bytes read back (R10, R90, R91). -/

namespace Sys2Proof.Machine

@[simp] theorem bin_length (w v : Nat) : (bin w v).length = w := by
  induction w with
  | zero => rfl
  | succ w ih => simp [bin, ih]

@[simp] theorem zeros_length (k : Nat) : (zeros k).length = k := List.length_replicate

theorem valFrom_eq (acc : Nat) (s : BitStr) : valFrom acc s = acc * 2 ^ s.length + val s := by
  unfold val
  induction s generalizing acc with
  | nil => simp [valFrom]
  | cons b s ih =>
    rw [valFrom, ih, valFrom, ih (2 * 0 + b.toNat), List.length_cons, Nat.pow_succ]
    ring

@[simp] theorem val_nil : val [] = 0 := rfl

theorem val_cons (b : Bool) (s : BitStr) : val (b :: s) = b.toNat * 2 ^ s.length + val s := by
  rw [val, valFrom, valFrom_eq]; simp

theorem val_append (s t : BitStr) : val (s ++ t) = val s * 2 ^ t.length + val t := by
  induction s with
  | nil => simp
  | cons b s ih => simp only [List.cons_append, val_cons, ih, List.length_append, Nat.pow_add]; ring

theorem val_lt (s : BitStr) : val s < 2 ^ s.length := by
  induction s with
  | nil => simp
  | cons b s ih =>
    rw [val_cons, List.length_cons, Nat.pow_succ]
    cases b <;> simp <;> omega

@[simp] theorem val_zeros (k : Nat) : val (zeros k) = 0 := by
  induction k with
  | zero => rfl
  | succ k ih => rw [zeros, List.replicate_succ, val_cons, ← zeros, ih]; simp

theorem val_bin_mod (w v : Nat) : val (bin w v) = v % 2 ^ w := by
  induction w with
  | zero => simp [bin, Nat.mod_one]
  | succ w ih =>
    rw [bin, val_cons, ih, bin_length, Nat.pow_succ, Nat.mod_mul, Nat.testBit_eq_decide_div_mod_eq]
    rcases Nat.mod_two_eq_zero_or_one (v / 2 ^ w) with h | h <;> (simp [h]; try omega)

/-- Decoding a w-bit field gives the value it was encoded from (R91). -/
theorem val_bin {w v : Nat} (h : v < 2 ^ w) : val (bin w v) = v := by rw [val_bin_mod, Nat.mod_eq_of_lt h]

/-- Encoding the value of a w-bit string gives the string back (R91). -/
theorem bin_val (s : BitStr) : bin s.length (val s) = s := by
  have key : ∀ (w v : Nat) (k : Nat), bin w (k * 2 ^ w + v) = bin w v := by
    intro w
    induction w with
    | zero => intro v k; rfl
    | succ w ih =>
      intro v k
      rw [bin, bin, show k * 2 ^ (w + 1) + v = 2 * k * 2 ^ w + v by rw [Nat.pow_succ]; ring, ih]
      congr 1
      rw [Nat.testBit_eq_decide_div_mod_eq, Nat.testBit_eq_decide_div_mod_eq, Nat.add_comm,
        Nat.add_mul_div_right _ _ (Nat.two_pow_pos w), Nat.add_mul_mod_self_left]
  induction s with
  | nil => rfl
  | cons b s ih =>
    rw [List.length_cons, bin, val_cons, key, ih]
    congr 1
    rw [Nat.testBit_eq_decide_div_mod_eq, Nat.add_comm, Nat.add_mul_div_right _ _ (Nat.two_pow_pos _),
      Nat.div_eq_of_lt (val_lt s)]
    cases b <;> simp

@[simp] theorem bits_nil : bits [] = [] := rfl

theorem bits_cons (b : Byte) (bs : List Byte) : bits (b :: bs) = bin 8 b.toNat ++ bits bs := by simp [bits]

theorem bits_append (xs ys : List Byte) : bits (xs ++ ys) = bits xs ++ bits ys := by simp [bits]

@[simp] theorem bits_length (bs : List Byte) : (bits bs).length = 8 * bs.length := by
  induction bs with
  | nil => rfl
  | cons b bs ih => rw [bits_cons, List.length_append, bin_length, ih, List.length_cons]; ring

theorem bits_take (bs : List Byte) (n : Nat) : bits (bs.take n) = (bits bs).take (8 * n) := by
  induction bs generalizing n with
  | nil => simp
  | cons b bs ih =>
    cases n with
    | zero => simp
    | succ n =>
      have e : (bin 8 b.toNat).take (8 * (n + 1)) = bin 8 b.toNat := List.take_of_length_le (by rw [bin_length]; omega)
      rw [List.take_succ_cons, bits_cons, bits_cons, ih, List.take_append, bin_length, e,
        show 8 * (n + 1) - 8 = 8 * n by omega]

theorem bits_drop (bs : List Byte) (n : Nat) : bits (bs.drop n) = (bits bs).drop (8 * n) := by
  induction bs generalizing n with
  | nil => simp
  | cons b bs ih =>
    cases n with
    | zero => simp
    | succ n =>
      have e : (bin 8 b.toNat).drop (8 * (n + 1)) = [] := List.drop_eq_nil_of_le (by rw [bin_length]; omega)
      rw [List.drop_succ_cons, bits_cons, ih, List.drop_append, bin_length, e,
        show 8 * (n + 1) - 8 = 8 * n by omega, List.nil_append]

/-- `bits` undoes `bytes` on a string of whole bytes (R90). -/
theorem bits_bytes (s : BitStr) (h : s.length % 8 = 0) : bits (bytes s) = s := by
  induction s using bytes.induct with
  | case1 b7 b6 b5 b4 b3 b2 b1 b0 rest ih =>
    rw [bytes, bits_cons, ih (by simp at h; omega)]
    have e := bin_val [b7, b6, b5, b4, b3, b2, b1, b0]
    have l := val_lt [b7, b6, b5, b4, b3, b2, b1, b0]
    rw [BitVec.toNat_ofNat, Nat.mod_eq_of_lt (by simpa using l)]
    simp only [List.length_cons, List.length_nil, Nat.zero_add, Nat.reduceAdd] at e
    rw [e]; rfl
  | case2 s hs =>
    match s, hs, h with
    | [], _, _ => rfl
    | [_], _, h => simp at h
    | [_, _], _, h => simp at h
    | [_, _, _], _, h => simp at h
    | [_, _, _, _], _, h => simp at h
    | [_, _, _, _, _], _, h => simp at h
    | [_, _, _, _, _, _], _, h => simp at h
    | [_, _, _, _, _, _, _], _, h => simp at h
    | b7 :: b6 :: b5 :: b4 :: b3 :: b2 :: b1 :: b0 :: rest, hs, _ => exact absurd rfl (hs b7 b6 b5 b4 b3 b2 b1 b0 rest)

theorem bytes_length (s : BitStr) (h : s.length % 8 = 0) : (bytes s).length = s.length / 8 := by
  have := congrArg List.length (bits_bytes s h)
  rw [bits_length] at this
  omega

theorem bytes_append (s t : BitStr) (h : s.length % 8 = 0) : bytes (s ++ t) = bytes s ++ bytes t := by
  induction s using bytes.induct with
  | case1 b7 b6 b5 b4 b3 b2 b1 b0 rest ih =>
    simp only [List.cons_append, bytes]
    rw [ih (by simp at h; omega)]
  | case2 s hs =>
    match s, hs, h with
    | [], _, _ => rfl
    | [_], _, h => simp at h
    | [_, _], _, h => simp at h
    | [_, _, _], _, h => simp at h
    | [_, _, _, _], _, h => simp at h
    | [_, _, _, _, _], _, h => simp at h
    | [_, _, _, _, _, _], _, h => simp at h
    | [_, _, _, _, _, _, _], _, h => simp at h
    | b7 :: b6 :: b5 :: b4 :: b3 :: b2 :: b1 :: b0 :: rest, hs, _ => exact absurd rfl (hs b7 b6 b5 b4 b3 b2 b1 b0 rest)

/-- `bytes` undoes `bits` (R90). -/
theorem bytes_bits (bs : List Byte) : bytes (bits bs) = bs := by
  have h8 : ∀ s : BitStr, s.length = 8 → bytes s = [BitVec.ofNat 8 (val s)] := by
    intro s hs
    match s, hs with
    | [b7, b6, b5, b4, b3, b2, b1, b0], _ => rfl
  induction bs with
  | nil => rfl
  | cons b bs ih =>
    rw [bits_cons, bytes_append _ _ (by simp), ih, h8 _ (bin_length 8 _), val_bin b.isLt]
    simp

end Sys2Proof.Machine
end

