-- ==== Sys2Proof/Laws/Memory.lean ====
section
/-! SUPPORT. The laws of memory: a read after a write, what a write leaves alone, and that every memory operation keeps the canonical
form (R81, R82, R87, R93). -/

namespace Sys2Proof.Machine

/-! ### Reads after writes -/

@[simp] theorem Memory.read_nil (a : Nat) : Memory.read [] a = none := rfl

theorem Memory.read_cons (c : Host.Cell) (m : List Host.Cell) (a : Nat) :
    Memory.read (c :: m) a = if c.1 = a then some c.2 else Memory.read m a := rfl

theorem Memory.read_write (m : List Host.Cell) (a x : Nat) (b : Byte) :
    Memory.read (Memory.write m a b) x = if x = a then some b else Memory.read m x := by
  induction m with
  | nil => simp [Memory.write, Memory.read, eq_comm]
  | cons c m ih =>
    unfold Memory.write
    split
    · rw [Memory.read_cons, Memory.read_cons, ih]
      split
      · split <;> [omega; rfl]
      · rfl
    · split
      · next h => simp only [Memory.read_cons, h]; split <;> simp_all [eq_comm]
      · rw [Memory.read_cons]; simp only [eq_comm (a := a)]

@[simp] theorem Memory.read_write_same (m : List Host.Cell) (a : Nat) (b : Byte) :
    Memory.read (Memory.write m a b) a = some b := by simp [Memory.read_write]

theorem Memory.read_write_other (m : List Host.Cell) {a x : Nat} (b : Byte) (h : x ≠ a) :
    Memory.read (Memory.write m a b) x = Memory.read m x := by simp [Memory.read_write, h]

theorem Memory.read_forget (m : List Host.Cell) (lo hi a : Nat) :
    Memory.read (Memory.forget m lo hi) a = if within a lo hi then none else Memory.read m a := by
  induction m with
  | nil => simp [Memory.forget]
  | cons c m ih =>
    have h : Memory.forget (c :: m) lo hi =
        if within c.1 lo hi then Memory.forget m lo hi else c :: Memory.forget m lo hi := by
      unfold Memory.forget within
      rw [List.filter_cons]
      by_cases h1 : lo ≤ c.1 <;> by_cases h2 : c.1 < hi <;> simp [h1, h2]
    rw [h]
    split
    · next hc =>
      rw [ih, Memory.read_cons]
      split
      · rfl
      · next ha => rw [if_neg]; rintro rfl; exact ha hc
    · next hc =>
      rw [Memory.read_cons, Memory.read_cons, ih]
      split
      · next e => subst e; rw [if_neg hc]
      · rfl

theorem Memory.read_writeWord (m : List Host.Cell) (a x : Nat) (v : Word) :
    Memory.read (Memory.writeWord m a v) x =
      if within x a (a + 4) then some (lane v (x - a)) else Memory.read m x := by
  unfold Memory.writeWord within
  simp only [Memory.read_write]
  by_cases h3 : x = a + 3
  · subst h3; simp
  by_cases h2 : x = a + 2
  · subst h2; simp
  by_cases h1 : x = a + 1
  · subst h1; simp
  by_cases h0 : x = a
  · subst h0; simp
  rw [if_neg h3, if_neg h2, if_neg h1, if_neg h0, if_neg]
  omega

theorem Memory.read_writeBytes (m : List Host.Cell) (a x : Nat) (bs : List Byte) :
    Memory.read (Memory.writeBytes m a bs) x =
      if within x a (a + bs.length) then bs[x - a]? else Memory.read m x := by
  induction bs generalizing m a with
  | nil => simp [Memory.writeBytes, within]
  | cons b bs ih =>
    rw [Memory.writeBytes, ih, Memory.read_write]
    unfold within
    simp only [List.length_cons]
    by_cases h : x = a
    · subst h
      rw [if_neg (by omega), if_pos rfl, if_pos (by omega)]; simp
    · by_cases h1 : a + 1 ≤ x ∧ x < a + 1 + bs.length
      · rw [if_pos h1, if_pos (by omega), show x - a = (x - (a + 1)) + 1 by omega]; simp
      · rw [if_neg h1, if_neg h, if_neg (by omega)]

/-- The lanes of a word joined again are the word (R87). -/
@[simp] theorem joinLanes_lanes (v : Word) : joinLanes (lane v 0) (lane v 1) (lane v 2) (lane v 3) = v := by
  apply BitVec.eq_of_getLsbD_eq
  intro i hi
  simp only [joinLanes, lane, BitVec.getLsbD_append, BitVec.getLsbD_extractLsb', Nat.mul_zero, Nat.zero_add]
  by_cases h1 : i < 8
  · simp [h1]
  by_cases h2 : i < 16
  · have : i - 8 < 8 := by omega
    simp [h1, this, show 8 + (i - 8) = i by omega]
  by_cases h3 : i < 24
  · have a1 : ¬ i - 8 < 8 := by omega
    have a2 : i - 8 - 8 < 8 := by omega
    simp [h1, a1, a2, show 16 + (i - 8 - 8) = i by omega]
  · have a1 : ¬ i - 8 < 8 := by omega
    have a2 : ¬ i - 8 - 8 < 8 := by omega
    have a3 : i - 8 - 8 - 8 < 8 := by omega
    simp [h1, a1, a2, a3, show 24 + (i - 8 - 8 - 8) = i by omega]

theorem getLsbD_joinLanes (b0 b1 b2 b3 : Byte) (i : Nat) :
    (joinLanes b0 b1 b2 b3).getLsbD i =
      if i < 8 then b0.getLsbD i else if i < 16 then b1.getLsbD (i - 8)
      else if i < 24 then b2.getLsbD (i - 16) else b3.getLsbD (i - 24) := by
  simp only [joinLanes, BitVec.getLsbD_append]
  by_cases h1 : i < 8
  · simp [h1]
  by_cases h2 : i < 16
  · simp [h1, h2, show i - 8 < 8 by omega]
  by_cases h3 : i < 24
  · simp [h1, h2, h3, show ¬ i - 8 < 8 by omega, show i - 16 < 8 by omega, show i - 8 - 8 = i - 16 by omega]
  · simp [h1, h2, h3, show ¬ i - 8 < 8 by omega, show ¬ i - 8 - 8 < 8 by omega, show i - 8 - 8 - 8 = i - 24 by omega]

/-- Lane k of four joined bytes is the k-th byte (R87). -/
theorem lane_joinLanes (b0 b1 b2 b3 : Byte) (k : Nat) (h : k < 4) :
    lane (joinLanes b0 b1 b2 b3) k = [b0, b1, b2, b3].getD k 0 := by
  apply BitVec.eq_of_getLsbD_eq
  intro i hi
  rw [lane, BitVec.getLsbD_extractLsb', getLsbD_joinLanes]
  have hk : k = 0 ∨ k = 1 ∨ k = 2 ∨ k = 3 := by omega
  rcases hk with rfl | rfl | rfl | rfl
  · simp [hi]
  · simp [hi, show ¬ 8 + i < 8 by omega, show 8 + i < 16 by omega]
  · simp [hi, show ¬ 16 + i < 8 by omega, show ¬ 16 + i < 16 by omega, show 16 + i < 24 by omega]
  · simp [hi, show ¬ 24 + i < 8 by omega, show ¬ 24 + i < 16 by omega]

theorem Memory.readWord_congr {m m' : List Host.Cell} {a : Nat}
    (h : ∀ k < 4, Memory.read m (a + k) = Memory.read m' (a + k)) : Memory.readWord m a = Memory.readWord m' a := by
  unfold Memory.readWord
  have h0 := h 0 (by omega)
  rw [Nat.add_zero] at h0
  rw [h0, h 1 (by omega), h 2 (by omega), h 3 (by omega)]

@[simp] theorem Memory.readWord_writeWord_same (m : List Host.Cell) (a : Nat) (v : Word) :
    Memory.readWord (Memory.writeWord m a v) a = some v := by
  unfold Memory.readWord
  simp only [Memory.read_writeWord, within]
  simp

theorem Memory.readWord_writeWord_other (m : List Host.Cell) {a x : Nat} (v : Word) (h : x + 4 ≤ a ∨ a + 4 ≤ x) :
    Memory.readWord (Memory.writeWord m a v) x = Memory.readWord m x := by
  apply Memory.readWord_congr
  intro k hk
  rw [Memory.read_writeWord, if_neg]
  unfold within
  omega

theorem Memory.read_writeWords_outside (m : List Host.Cell) (a x : Nat) (vs : List Word)
    (h : ¬ within x a (a + 4 * vs.length)) : Memory.read (Memory.writeWords m a vs) x = Memory.read m x := by
  induction vs generalizing m a with
  | nil => rfl
  | cons v vs ih =>
    unfold within at h
    simp only [List.length_cons] at h
    rw [Memory.writeWords, ih _ _ (by unfold within; omega), Memory.read_writeWord, if_neg (by unfold within; omega)]

theorem Memory.readWord_writeWords (m : List Host.Cell) (a i : Nat) (vs : List Word) (h : i < vs.length) :
    Memory.readWord (Memory.writeWords m a vs) (a + 4 * i) = vs[i]? := by
  induction vs generalizing m a i with
  | nil => simp at h
  | cons v vs ih =>
    rw [Memory.writeWords]
    cases i with
    | zero =>
      rw [Nat.mul_zero, Nat.add_zero, Memory.readWord_congr (m' := Memory.writeWord m a v)]
      · simp
      · intro k hk
        exact Memory.read_writeWords_outside _ _ _ _ (by unfold within; omega)
    | succ i =>
      rw [show a + 4 * (i + 1) = a + 4 + 4 * i by omega, ih _ _ _ (by simpa using h)]
      simp

theorem Memory.readWord_isSome (m : List Host.Cell) (a : Nat) :
    (Memory.readWord m a).isSome = true ↔ ∀ k < 4, (Memory.read m (a + k)).isSome = true := by
  unfold Memory.readWord
  constructor
  · intro h k hk
    split at h
    · next e0 e1 e2 e3 =>
      have : k = 0 ∨ k = 1 ∨ k = 2 ∨ k = 3 := by omega
      rcases this with rfl | rfl | rfl | rfl <;> simp_all
    · simp at h
  · intro h
    have h0 := h 0 (by omega)
    have h1 := h 1 (by omega)
    have h2 := h 2 (by omega)
    have h3 := h 3 (by omega)
    rw [Option.isSome_iff_exists] at h0 h1 h2 h3
    obtain ⟨b0, e0⟩ := h0
    obtain ⟨b1, e1⟩ := h1
    obtain ⟨b2, e2⟩ := h2
    obtain ⟨b3, e3⟩ := h3
    simp only [Nat.add_zero] at e0
    simp [e0, e1, e2, e3]

/-! ### The canonical form -/

theorem Memory.wf_cons (c : Host.Cell) (m : List Host.Cell) :
    Memory.wf (c :: m) = true ↔ (∀ d, m.head? = some d → c.1 < d.1) ∧ Memory.wf m = true := by
  cases m with
  | nil => simp [Memory.wf]
  | cons d m => simp [Memory.wf]

theorem Memory.head_write (m : List Host.Cell) (a : Nat) (b : Byte) (d : Host.Cell)
    (h : (Memory.write m a b).head? = some d) : d.1 = a ∨ (m.head? = some d ∧ d.1 < a) := by
  cases m with
  | nil => simp [Memory.write] at h; simp [← h]
  | cons c m =>
    unfold Memory.write at h
    split at h
    · next hc => simp only [List.head?_cons, Option.some.injEq] at h ⊢; subst h; exact .inr ⟨rfl, hc⟩
    · split at h <;> (simp only [List.head?_cons, Option.some.injEq] at h; subst h; exact .inl rfl)

/-- A write keeps the canonical form. -/
theorem Memory.write_wf {m : List Host.Cell} (h : Memory.wf m = true) (a : Nat) (b : Byte) :
    Memory.wf (Memory.write m a b) = true := by
  induction m with
  | nil => rfl
  | cons c m ih =>
    rw [Memory.wf_cons] at h
    unfold Memory.write
    split
    · next hc =>
      rw [Memory.wf_cons]
      refine ⟨fun d hd => ?_, ih h.2⟩
      rcases Memory.head_write m a b d hd with e | ⟨e, -⟩
      · omega
      · exact h.1 d e
    · split
      · next hc => rw [Memory.wf_cons]; exact ⟨fun d hd => hc ▸ h.1 d hd, h.2⟩
      · rw [Memory.wf_cons]
        refine ⟨fun d hd => ?_, (Memory.wf_cons c m).mpr h⟩
        simp only [List.head?_cons, Option.some.injEq] at hd
        subst hd
        omega

theorem Memory.wf_iff_pairwise (m : List Host.Cell) :
    Memory.wf m = true ↔ m.Pairwise fun c d => c.1 < d.1 := by
  induction m with
  | nil => simp [Memory.wf]
  | cons c m ih =>
    rw [Memory.wf_cons, ih, List.pairwise_cons]
    constructor
    · rintro ⟨h1, h2⟩
      refine ⟨fun d hd => ?_, h2⟩
      cases m with
      | nil => simp at hd
      | cons e m =>
        rcases List.mem_cons.mp hd with rfl | hd
        · exact h1 _ rfl
        · exact Nat.lt_trans (h1 _ rfl) ((List.pairwise_cons.mp h2).1 d hd)
    · rintro ⟨h1, h2⟩
      refine ⟨fun d hd => h1 d (List.mem_of_mem_head? hd), h2⟩

/-- Forgetting a range keeps the canonical form. -/
theorem Memory.forget_wf {m : List Host.Cell} (h : Memory.wf m = true) (lo hi : Nat) :
    Memory.wf (Memory.forget m lo hi) = true := by
  rw [Memory.wf_iff_pairwise] at *
  exact h.filter _

theorem Memory.writeWord_wf {m : List Host.Cell} (h : Memory.wf m = true) (a : Nat) (v : Word) :
    Memory.wf (Memory.writeWord m a v) = true :=
  Memory.write_wf (Memory.write_wf (Memory.write_wf (Memory.write_wf h _ _) _ _) _ _) _ _

theorem Memory.writeBytes_wf {m : List Host.Cell} (h : Memory.wf m = true) (a : Nat) (bs : List Byte) :
    Memory.wf (Memory.writeBytes m a bs) = true := by
  induction bs generalizing m a with
  | nil => exact h
  | cons b bs ih => exact ih (Memory.write_wf h _ _) _

theorem Memory.writeWords_wf {m : List Host.Cell} (h : Memory.wf m = true) (a : Nat) (vs : List Word) :
    Memory.wf (Memory.writeWords m a vs) = true := by
  induction vs generalizing m a with
  | nil => exact h
  | cons v vs ih => exact ih (Memory.writeWord_wf h _ _) _

/-- A write lists no address but the one written and those listed before. -/
theorem Memory.mem_write {m : List Host.Cell} {a : Nat} {b : Byte} {c : Host.Cell} (h : c ∈ Memory.write m a b) :
    c.1 = a ∨ c ∈ m := by
  induction m with
  | nil => simp [Memory.write] at h; simp [h]
  | cons d m ih =>
    unfold Memory.write at h
    split at h
    · rcases List.mem_cons.mp h with rfl | h
      · exact .inr List.mem_cons_self
      · exact (ih h).imp id (List.mem_cons_of_mem _)
    · split at h
      · rcases List.mem_cons.mp h with rfl | h
        · exact .inl rfl
        · exact .inr (List.mem_cons_of_mem _ h)
      · rcases List.mem_cons.mp h with rfl | h
        · exact .inl rfl
        · exact .inr h

theorem Memory.mem_forget {m : List Host.Cell} {lo hi : Nat} {c : Host.Cell} (h : c ∈ Memory.forget m lo hi) : c ∈ m :=
  (List.mem_filter.mp h).1

theorem Memory.mem_writeWord {m : List Host.Cell} {a : Nat} {v : Word} {c : Host.Cell} (h : c ∈ Memory.writeWord m a v) :
    within c.1 a (a + 4) ∨ c ∈ m := by
  unfold within
  rcases Memory.mem_write h with e | h
  · omega
  rcases Memory.mem_write h with e | h
  · omega
  rcases Memory.mem_write h with e | h
  · omega
  rcases Memory.mem_write h with e | h
  · omega
  exact .inr h

theorem Memory.mem_writeBytes {m : List Host.Cell} {a : Nat} {bs : List Byte} {c : Host.Cell}
    (h : c ∈ Memory.writeBytes m a bs) : within c.1 a (a + bs.length) ∨ c ∈ m := by
  induction bs generalizing m a with
  | nil => exact .inr h
  | cons b bs ih =>
    unfold within at *
    rw [List.length_cons]
    rcases ih h with e | h
    · omega
    rcases Memory.mem_write h with e | h
    · omega
    exact .inr h

theorem Memory.mem_writeWords {m : List Host.Cell} {a : Nat} {vs : List Word} {c : Host.Cell}
    (h : c ∈ Memory.writeWords m a vs) : within c.1 a (a + 4 * vs.length) ∨ c ∈ m := by
  induction vs generalizing m a with
  | nil => exact .inr h
  | cons v vs ih =>
    unfold within at *
    rw [List.length_cons]
    rcases ih h with e | h
    · omega
    rcases Memory.mem_writeWord h with e | h
    · unfold within at e; omega
    exact .inr h

/-! ### Collecting elements -/

theorem collect_eq_some {α : Type} {f : Nat → Option α} {i n : Nat} {xs : List α} :
    collect f i n = some xs ↔ xs.length = n ∧ ∀ k < n, f (i + k) = xs[k]? := by
  induction n generalizing i xs with
  | zero => simp [collect, eq_comm]
  | succ n ih =>
    unfold collect
    constructor
    · intro h
      split at h
      · simp at h
      · next x hx =>
        split at h
        · simp at h
        · next ys hys =>
          simp only [Option.some.injEq] at h
          subst h
          obtain ⟨h1, h2⟩ := ih.mp hys
          refine ⟨by simp [h1], fun k hk => ?_⟩
          cases k with
          | zero => simpa using hx
          | succ k =>
            have := h2 k (by omega)
            rw [show i + 1 + k = i + (k + 1) by omega] at this
            simpa using this
    · rintro ⟨h1, h2⟩
      cases xs with
      | nil => simp at h1
      | cons x xs =>
        have h0 := h2 0 (by omega)
        have hr : collect f (i + 1) n = some xs := by
          refine ih.mpr ⟨by simpa using h1, fun k hk => ?_⟩
          have := h2 (k + 1) (by omega)
          rw [show i + (k + 1) = i + 1 + k by omega] at this
          simpa using this
        simp only [Nat.add_zero, List.getElem?_cons_zero] at h0
        simp [h0, hr]

theorem collect_eq_none {α : Type} {f : Nat → Option α} {i n : Nat} :
    collect f i n = none ↔ ∃ k < n, f (i + k) = none := by
  induction n generalizing i with
  | zero => simp [collect]
  | succ n ih =>
    unfold collect
    constructor
    · intro h
      split at h
      · next hx => exact ⟨0, by omega, hx⟩
      · split at h
        · next hys =>
          obtain ⟨k, hk, e⟩ := ih.mp hys
          exact ⟨k + 1, by omega, by rw [show i + (k + 1) = i + 1 + k by omega]; exact e⟩
        · simp at h
    · rintro ⟨k, hk, e⟩
      cases k with
      | zero => rw [Nat.add_zero] at e; simp [e]
      | succ k =>
        have : collect f (i + 1) n = none :=
          ih.mpr ⟨k, by omega, by rw [show i + 1 + k = i + (k + 1) by omega]; exact e⟩
        rw [this]
        split <;> rfl

theorem collect_congr {α : Type} {f g : Nat → Option α} {i n : Nat} (h : ∀ k < n, f (i + k) = g (i + k)) :
    collect f i n = collect g i n := by
  induction n generalizing i with
  | zero => rfl
  | succ n ih =>
    have h0 := h 0 (by omega)
    rw [Nat.add_zero] at h0
    unfold collect
    rw [h0, ih (i := i + 1) fun k hk => by
      have := h (k + 1) (by omega)
      rwa [show i + (k + 1) = i + 1 + k by omega] at this]

theorem State.symbols_eq_some {s : State} {n : Nat} {xs : List Word} :
    s.symbols n = some xs ↔ xs.length = n ∧ ∀ k < n, s.symIn k = xs[k]? := by
  unfold State.symbols
  rw [collect_eq_some]
  simp

theorem State.symbols_eq_none {s : State} {n : Nat} : s.symbols n = none ↔ ∃ k < n, s.symIn k = none := by
  unfold State.symbols
  rw [collect_eq_none]
  simp

end Sys2Proof.Machine
end

