-- ==== Sys2Proof/Laws/State.lean ====
section
/-! SUPPORT. One lemma per field per named update of the state, each true by rfl, so that no later proof unfolds a record update. -/

namespace Sys2Proof.Machine

/-! ### accept -/

section
variable (v : Word) (s : State)

@[simp] theorem accept_cmd : (accept v s).cmd = v := rfl
@[simp] theorem accept_status : (accept v s).status = ⟨true, false, false, false, 0⟩ := rfl
@[simp] theorem accept_phase : (accept v s).phase = s.phase := rfl
@[simp] theorem accept_inLen : (accept v s).inLen = s.inLen := rfl
@[simp] theorem accept_outLen : (accept v s).outLen = s.outLen := rfl
@[simp] theorem accept_nsym : (accept v s).nsym = s.nsym := rfl
@[simp] theorem accept_maxLen : (accept v s).maxLen = s.maxLen := rfl
@[simp] theorem accept_mode : (accept v s).mode = s.mode := rfl
@[simp] theorem accept_payStart : (accept v s).payStart = s.payStart := rfl
@[simp] theorem accept_payEnd : (accept v s).payEnd = s.payEnd := rfl
@[simp] theorem accept_encN : (accept v s).encN = s.encN := rfl
@[simp] theorem accept_nnodes : (accept v s).nnodes = s.nnodes := rfl
@[simp] theorem accept_symCap : (accept v s).symCap = s.symCap := rfl
@[simp] theorem accept_byteCap : (accept v s).byteCap = s.byteCap := rfl
@[simp] theorem accept_freqTab : (accept v s).freqTab = s.freqTab := rfl
@[simp] theorem accept_nodeTab : (accept v s).nodeTab = s.nodeTab := rfl
@[simp] theorem accept_codeTab : (accept v s).codeTab = s.codeTab := rfl
@[simp] theorem accept_mem : (accept v s).mem = s.mem := rfl
@[simp] theorem accept_host : (accept v s).host = s.host := rfl
@[simp] theorem accept_lastRead : (accept v s).lastRead = s.lastRead := rfl
@[simp] theorem accept_draws : (accept v s).draws = s.draws := rfl

end

/-! ### overrun -/

section
variable (s : State)

@[simp] theorem overrun_cmd : (overrun s).cmd = s.cmd := rfl
@[simp] theorem overrun_status : (overrun s).status = { s.status with ovr := true } := rfl
@[simp] theorem overrun_phase : (overrun s).phase = s.phase := rfl
@[simp] theorem overrun_inLen : (overrun s).inLen = s.inLen := rfl
@[simp] theorem overrun_outLen : (overrun s).outLen = s.outLen := rfl
@[simp] theorem overrun_nsym : (overrun s).nsym = s.nsym := rfl
@[simp] theorem overrun_maxLen : (overrun s).maxLen = s.maxLen := rfl
@[simp] theorem overrun_mode : (overrun s).mode = s.mode := rfl
@[simp] theorem overrun_payStart : (overrun s).payStart = s.payStart := rfl
@[simp] theorem overrun_payEnd : (overrun s).payEnd = s.payEnd := rfl
@[simp] theorem overrun_encN : (overrun s).encN = s.encN := rfl
@[simp] theorem overrun_nnodes : (overrun s).nnodes = s.nnodes := rfl
@[simp] theorem overrun_symCap : (overrun s).symCap = s.symCap := rfl
@[simp] theorem overrun_byteCap : (overrun s).byteCap = s.byteCap := rfl
@[simp] theorem overrun_freqTab : (overrun s).freqTab = s.freqTab := rfl
@[simp] theorem overrun_nodeTab : (overrun s).nodeTab = s.nodeTab := rfl
@[simp] theorem overrun_codeTab : (overrun s).codeTab = s.codeTab := rfl
@[simp] theorem overrun_mem : (overrun s).mem = s.mem := rfl
@[simp] theorem overrun_host : (overrun s).host = s.host := rfl
@[simp] theorem overrun_lastRead : (overrun s).lastRead = s.lastRead := rfl
@[simp] theorem overrun_draws : (overrun s).draws = s.draws := rfl

end

/-! ### completeOk -/

section
variable (s : State)

@[simp] theorem completeOk_cmd : (completeOk s).cmd = s.cmd := rfl
@[simp] theorem completeOk_status : (completeOk s).status = ⟨false, true, false, s.status.ovr, 0⟩ := rfl
@[simp] theorem completeOk_phase : (completeOk s).phase = s.phase := rfl
@[simp] theorem completeOk_inLen : (completeOk s).inLen = s.inLen := rfl
@[simp] theorem completeOk_outLen : (completeOk s).outLen = s.outLen := rfl
@[simp] theorem completeOk_nsym : (completeOk s).nsym = s.nsym := rfl
@[simp] theorem completeOk_maxLen : (completeOk s).maxLen = s.maxLen := rfl
@[simp] theorem completeOk_mode : (completeOk s).mode = s.mode := rfl
@[simp] theorem completeOk_payStart : (completeOk s).payStart = s.payStart := rfl
@[simp] theorem completeOk_payEnd : (completeOk s).payEnd = s.payEnd := rfl
@[simp] theorem completeOk_encN : (completeOk s).encN = s.encN := rfl
@[simp] theorem completeOk_nnodes : (completeOk s).nnodes = s.nnodes := rfl
@[simp] theorem completeOk_symCap : (completeOk s).symCap = s.symCap := rfl
@[simp] theorem completeOk_byteCap : (completeOk s).byteCap = s.byteCap := rfl
@[simp] theorem completeOk_freqTab : (completeOk s).freqTab = s.freqTab := rfl
@[simp] theorem completeOk_nodeTab : (completeOk s).nodeTab = s.nodeTab := rfl
@[simp] theorem completeOk_codeTab : (completeOk s).codeTab = s.codeTab := rfl
@[simp] theorem completeOk_mem : (completeOk s).mem = s.mem := rfl
@[simp] theorem completeOk_host : (completeOk s).host = s.host := rfl
@[simp] theorem completeOk_lastRead : (completeOk s).lastRead = s.lastRead := rfl
@[simp] theorem completeOk_draws : (completeOk s).draws = s.draws := rfl

end

/-! ### completeErr -/

section
variable (e : Err) (s : State)

@[simp] theorem completeErr_cmd : (completeErr e s).cmd = s.cmd := rfl
@[simp] theorem completeErr_status : (completeErr e s).status = ⟨false, true, true, s.status.ovr, e.code⟩ := rfl
@[simp] theorem completeErr_phase : (completeErr e s).phase = s.phase := rfl
@[simp] theorem completeErr_inLen : (completeErr e s).inLen = s.inLen := rfl
@[simp] theorem completeErr_outLen : (completeErr e s).outLen = s.outLen := rfl
@[simp] theorem completeErr_nsym : (completeErr e s).nsym = s.nsym := rfl
@[simp] theorem completeErr_maxLen : (completeErr e s).maxLen = s.maxLen := rfl
@[simp] theorem completeErr_mode : (completeErr e s).mode = s.mode := rfl
@[simp] theorem completeErr_payStart : (completeErr e s).payStart = s.payStart := rfl
@[simp] theorem completeErr_payEnd : (completeErr e s).payEnd = s.payEnd := rfl
@[simp] theorem completeErr_encN : (completeErr e s).encN = s.encN := rfl
@[simp] theorem completeErr_nnodes : (completeErr e s).nnodes = s.nnodes := rfl
@[simp] theorem completeErr_symCap : (completeErr e s).symCap = s.symCap := rfl
@[simp] theorem completeErr_byteCap : (completeErr e s).byteCap = s.byteCap := rfl
@[simp] theorem completeErr_freqTab : (completeErr e s).freqTab = s.freqTab := rfl
@[simp] theorem completeErr_nodeTab : (completeErr e s).nodeTab = s.nodeTab := rfl
@[simp] theorem completeErr_codeTab : (completeErr e s).codeTab = s.codeTab := rfl
@[simp] theorem completeErr_mem : (completeErr e s).mem = s.mem := rfl
@[simp] theorem completeErr_host : (completeErr e s).host = s.host := rfl
@[simp] theorem completeErr_lastRead : (completeErr e s).lastRead = s.lastRead := rfl
@[simp] theorem completeErr_draws : (completeErr e s).draws = s.draws := rfl

end

/-! ### clearResults -/

section
variable (s : State)

@[simp] theorem clearResults_cmd : (clearResults s).cmd = s.cmd := rfl
@[simp] theorem clearResults_status : (clearResults s).status = s.status := rfl
@[simp] theorem clearResults_phase : (clearResults s).phase = .idle := rfl
@[simp] theorem clearResults_inLen : (clearResults s).inLen = s.inLen := rfl
@[simp] theorem clearResults_outLen : (clearResults s).outLen = 0 := rfl
@[simp] theorem clearResults_nsym : (clearResults s).nsym = 0 := rfl
@[simp] theorem clearResults_maxLen : (clearResults s).maxLen = 0 := rfl
@[simp] theorem clearResults_mode : (clearResults s).mode = 0 := rfl
@[simp] theorem clearResults_payStart : (clearResults s).payStart = 0 := rfl
@[simp] theorem clearResults_payEnd : (clearResults s).payEnd = 0 := rfl
@[simp] theorem clearResults_encN : (clearResults s).encN = 0 := rfl
@[simp] theorem clearResults_nnodes : (clearResults s).nnodes = 0 := rfl
@[simp] theorem clearResults_symCap : (clearResults s).symCap = s.symCap := rfl
@[simp] theorem clearResults_byteCap : (clearResults s).byteCap = s.byteCap := rfl
@[simp] theorem clearResults_freqTab : (clearResults s).freqTab = s.freqTab := rfl
@[simp] theorem clearResults_nodeTab : (clearResults s).nodeTab = s.nodeTab := rfl
@[simp] theorem clearResults_codeTab : (clearResults s).codeTab = s.codeTab := rfl
@[simp] theorem clearResults_mem : (clearResults s).mem = s.mem := rfl
@[simp] theorem clearResults_host : (clearResults s).host = s.host := rfl
@[simp] theorem clearResults_lastRead : (clearResults s).lastRead = s.lastRead := rfl
@[simp] theorem clearResults_draws : (clearResults s).draws = s.draws := rfl

end

/-! ### discardByteOut -/

section
variable (s : State)

@[simp] theorem discardByteOut_cmd : (discardByteOut s).cmd = s.cmd := rfl
@[simp] theorem discardByteOut_status : (discardByteOut s).status = s.status := rfl
@[simp] theorem discardByteOut_phase : (discardByteOut s).phase = s.phase := rfl
@[simp] theorem discardByteOut_inLen : (discardByteOut s).inLen = s.inLen := rfl
@[simp] theorem discardByteOut_outLen : (discardByteOut s).outLen = s.outLen := rfl
@[simp] theorem discardByteOut_nsym : (discardByteOut s).nsym = s.nsym := rfl
@[simp] theorem discardByteOut_maxLen : (discardByteOut s).maxLen = s.maxLen := rfl
@[simp] theorem discardByteOut_mode : (discardByteOut s).mode = s.mode := rfl
@[simp] theorem discardByteOut_payStart : (discardByteOut s).payStart = s.payStart := rfl
@[simp] theorem discardByteOut_payEnd : (discardByteOut s).payEnd = s.payEnd := rfl
@[simp] theorem discardByteOut_encN : (discardByteOut s).encN = s.encN := rfl
@[simp] theorem discardByteOut_nnodes : (discardByteOut s).nnodes = s.nnodes := rfl
@[simp] theorem discardByteOut_symCap : (discardByteOut s).symCap = s.symCap := rfl
@[simp] theorem discardByteOut_byteCap : (discardByteOut s).byteCap = s.byteCap := rfl
@[simp] theorem discardByteOut_freqTab : (discardByteOut s).freqTab = s.freqTab := rfl
@[simp] theorem discardByteOut_nodeTab : (discardByteOut s).nodeTab = s.nodeTab := rfl
@[simp] theorem discardByteOut_codeTab : (discardByteOut s).codeTab = s.codeTab := rfl
@[simp] theorem discardByteOut_mem : (discardByteOut s).mem = Memory.forget s.mem byteOutBase (byteOutBase + s.byteCap) := rfl
@[simp] theorem discardByteOut_host : (discardByteOut s).host = s.host := rfl
@[simp] theorem discardByteOut_lastRead : (discardByteOut s).lastRead = s.lastRead := rfl
@[simp] theorem discardByteOut_draws : (discardByteOut s).draws = s.draws := rfl

end

/-! ### discardSymOut -/

section
variable (s : State)

@[simp] theorem discardSymOut_cmd : (discardSymOut s).cmd = s.cmd := rfl
@[simp] theorem discardSymOut_status : (discardSymOut s).status = s.status := rfl
@[simp] theorem discardSymOut_phase : (discardSymOut s).phase = s.phase := rfl
@[simp] theorem discardSymOut_inLen : (discardSymOut s).inLen = s.inLen := rfl
@[simp] theorem discardSymOut_outLen : (discardSymOut s).outLen = s.outLen := rfl
@[simp] theorem discardSymOut_nsym : (discardSymOut s).nsym = s.nsym := rfl
@[simp] theorem discardSymOut_maxLen : (discardSymOut s).maxLen = s.maxLen := rfl
@[simp] theorem discardSymOut_mode : (discardSymOut s).mode = s.mode := rfl
@[simp] theorem discardSymOut_payStart : (discardSymOut s).payStart = s.payStart := rfl
@[simp] theorem discardSymOut_payEnd : (discardSymOut s).payEnd = s.payEnd := rfl
@[simp] theorem discardSymOut_encN : (discardSymOut s).encN = s.encN := rfl
@[simp] theorem discardSymOut_nnodes : (discardSymOut s).nnodes = s.nnodes := rfl
@[simp] theorem discardSymOut_symCap : (discardSymOut s).symCap = s.symCap := rfl
@[simp] theorem discardSymOut_byteCap : (discardSymOut s).byteCap = s.byteCap := rfl
@[simp] theorem discardSymOut_freqTab : (discardSymOut s).freqTab = s.freqTab := rfl
@[simp] theorem discardSymOut_nodeTab : (discardSymOut s).nodeTab = s.nodeTab := rfl
@[simp] theorem discardSymOut_codeTab : (discardSymOut s).codeTab = s.codeTab := rfl
@[simp] theorem discardSymOut_mem : (discardSymOut s).mem = Memory.forget s.mem symOutBase (symOutBase + 4 * s.symCap) := rfl
@[simp] theorem discardSymOut_host : (discardSymOut s).host = s.host := rfl
@[simp] theorem discardSymOut_lastRead : (discardSymOut s).lastRead = s.lastRead := rfl
@[simp] theorem discardSymOut_draws : (discardSymOut s).draws = s.draws := rfl

end

/-! ### afterFreq -/

section
variable (xs : List Word) (t : List FreqRecord) (s : State)

@[simp] theorem afterFreq_cmd : (afterFreq xs t s).cmd = s.cmd := rfl
@[simp] theorem afterFreq_status : (afterFreq xs t s).status = s.status := rfl
@[simp] theorem afterFreq_phase : (afterFreq xs t s).phase = .counted := rfl
@[simp] theorem afterFreq_inLen : (afterFreq xs t s).inLen = s.inLen := rfl
@[simp] theorem afterFreq_outLen : (afterFreq xs t s).outLen = 0 := rfl
@[simp] theorem afterFreq_nsym : (afterFreq xs t s).nsym = BitVec.ofNat 8 t.length := rfl
@[simp] theorem afterFreq_maxLen : (afterFreq xs t s).maxLen = 0 := rfl
@[simp] theorem afterFreq_mode : (afterFreq xs t s).mode = selectMode xs := rfl
@[simp] theorem afterFreq_payStart : (afterFreq xs t s).payStart = 0 := rfl
@[simp] theorem afterFreq_payEnd : (afterFreq xs t s).payEnd = 0 := rfl
@[simp] theorem afterFreq_encN : (afterFreq xs t s).encN = s.inLen := rfl
@[simp] theorem afterFreq_nnodes : (afterFreq xs t s).nnodes = 0 := rfl
@[simp] theorem afterFreq_symCap : (afterFreq xs t s).symCap = s.symCap := rfl
@[simp] theorem afterFreq_byteCap : (afterFreq xs t s).byteCap = s.byteCap := rfl
@[simp] theorem afterFreq_freqTab : (afterFreq xs t s).freqTab = t := rfl
@[simp] theorem afterFreq_nodeTab : (afterFreq xs t s).nodeTab = s.nodeTab := rfl
@[simp] theorem afterFreq_codeTab : (afterFreq xs t s).codeTab = s.codeTab := rfl
@[simp] theorem afterFreq_mem : (afterFreq xs t s).mem = s.mem := rfl
@[simp] theorem afterFreq_host : (afterFreq xs t s).host = s.host := rfl
@[simp] theorem afterFreq_lastRead : (afterFreq xs t s).lastRead = s.lastRead := rfl
@[simp] theorem afterFreq_draws : (afterFreq xs t s).draws = s.draws := rfl

end

/-! ### afterPack -/

section
variable (out : List Byte) (s : State)

@[simp] theorem afterPack_cmd : (afterPack out s).cmd = s.cmd := rfl
@[simp] theorem afterPack_status : (afterPack out s).status = s.status := rfl
@[simp] theorem afterPack_phase : (afterPack out s).phase = .packed := rfl
@[simp] theorem afterPack_inLen : (afterPack out s).inLen = s.inLen := rfl
@[simp] theorem afterPack_outLen : (afterPack out s).outLen = BitVec.ofNat 32 out.length := rfl
@[simp] theorem afterPack_nsym : (afterPack out s).nsym = s.nsym := rfl
@[simp] theorem afterPack_maxLen : (afterPack out s).maxLen = s.maxLen := rfl
@[simp] theorem afterPack_mode : (afterPack out s).mode = s.mode := rfl
@[simp] theorem afterPack_payStart : (afterPack out s).payStart = 0 := rfl
@[simp] theorem afterPack_payEnd : (afterPack out s).payEnd = 0 := rfl
@[simp] theorem afterPack_encN : (afterPack out s).encN = s.encN := rfl
@[simp] theorem afterPack_nnodes : (afterPack out s).nnodes = s.nnodes := rfl
@[simp] theorem afterPack_symCap : (afterPack out s).symCap = s.symCap := rfl
@[simp] theorem afterPack_byteCap : (afterPack out s).byteCap = s.byteCap := rfl
@[simp] theorem afterPack_freqTab : (afterPack out s).freqTab = s.freqTab := rfl
@[simp] theorem afterPack_nodeTab : (afterPack out s).nodeTab = s.nodeTab := rfl
@[simp] theorem afterPack_codeTab : (afterPack out s).codeTab = s.codeTab := rfl
@[simp] theorem afterPack_mem : (afterPack out s).mem = Memory.writeBytes s.mem byteOutBase out := rfl
@[simp] theorem afterPack_host : (afterPack out s).host = s.host := rfl
@[simp] theorem afterPack_lastRead : (afterPack out s).lastRead = s.lastRead := rfl
@[simp] theorem afterPack_draws : (afterPack out s).draws = s.draws := rfl

end

/-! ### afterParse -/

section
variable (t : Trailer) (es : List CodeEntry) (len : Nat) (s : State)

@[simp] theorem afterParse_cmd : (afterParse t es len s).cmd = s.cmd := rfl
@[simp] theorem afterParse_status : (afterParse t es len s).status = s.status := rfl
@[simp] theorem afterParse_phase : (afterParse t es len s).phase = .parsed := rfl
@[simp] theorem afterParse_inLen : (afterParse t es len s).inLen = s.inLen := rfl
@[simp] theorem afterParse_outLen : (afterParse t es len s).outLen = 0 := rfl
@[simp] theorem afterParse_nsym : (afterParse t es len s).nsym = t.count := rfl
@[simp] theorem afterParse_maxLen : (afterParse t es len s).maxLen = t.maxLen := rfl
@[simp] theorem afterParse_mode : (afterParse t es len s).mode = t.mode := rfl
@[simp] theorem afterParse_payStart : (afterParse t es len s).payStart = BitVec.ofNat 32 (t.count.toNat * entryBits t.mode t.maxLen.toNat / 8) := rfl
@[simp] theorem afterParse_payEnd : (afterParse t es len s).payEnd = BitVec.ofNat 32 (len - 2) := rfl
@[simp] theorem afterParse_encN : (afterParse t es len s).encN = 0 := rfl
@[simp] theorem afterParse_nnodes : (afterParse t es len s).nnodes = 0 := rfl
@[simp] theorem afterParse_symCap : (afterParse t es len s).symCap = s.symCap := rfl
@[simp] theorem afterParse_byteCap : (afterParse t es len s).byteCap = s.byteCap := rfl
@[simp] theorem afterParse_freqTab : (afterParse t es len s).freqTab = s.freqTab := rfl
@[simp] theorem afterParse_nodeTab : (afterParse t es len s).nodeTab = s.nodeTab := rfl
@[simp] theorem afterParse_codeTab : (afterParse t es len s).codeTab = sortDesc CodeEntry.key es := rfl
@[simp] theorem afterParse_mem : (afterParse t es len s).mem = s.mem := rfl
@[simp] theorem afterParse_host : (afterParse t es len s).host = s.host := rfl
@[simp] theorem afterParse_lastRead : (afterParse t es len s).lastRead = s.lastRead := rfl
@[simp] theorem afterParse_draws : (afterParse t es len s).draws = s.draws := rfl

end

/-! ### afterMatch -/

section
variable (out : List Sym) (s : State)

@[simp] theorem afterMatch_cmd : (afterMatch out s).cmd = s.cmd := rfl
@[simp] theorem afterMatch_status : (afterMatch out s).status = s.status := rfl
@[simp] theorem afterMatch_phase : (afterMatch out s).phase = .decoded := rfl
@[simp] theorem afterMatch_inLen : (afterMatch out s).inLen = s.inLen := rfl
@[simp] theorem afterMatch_outLen : (afterMatch out s).outLen = BitVec.ofNat 32 out.length := rfl
@[simp] theorem afterMatch_nsym : (afterMatch out s).nsym = s.nsym := rfl
@[simp] theorem afterMatch_maxLen : (afterMatch out s).maxLen = s.maxLen := rfl
@[simp] theorem afterMatch_mode : (afterMatch out s).mode = s.mode := rfl
@[simp] theorem afterMatch_payStart : (afterMatch out s).payStart = s.payStart := rfl
@[simp] theorem afterMatch_payEnd : (afterMatch out s).payEnd = s.payEnd := rfl
@[simp] theorem afterMatch_encN : (afterMatch out s).encN = s.encN := rfl
@[simp] theorem afterMatch_nnodes : (afterMatch out s).nnodes = s.nnodes := rfl
@[simp] theorem afterMatch_symCap : (afterMatch out s).symCap = s.symCap := rfl
@[simp] theorem afterMatch_byteCap : (afterMatch out s).byteCap = s.byteCap := rfl
@[simp] theorem afterMatch_freqTab : (afterMatch out s).freqTab = s.freqTab := rfl
@[simp] theorem afterMatch_nodeTab : (afterMatch out s).nodeTab = s.nodeTab := rfl
@[simp] theorem afterMatch_codeTab : (afterMatch out s).codeTab = s.codeTab := rfl
@[simp] theorem afterMatch_mem : (afterMatch out s).mem = Memory.writeWords s.mem symOutBase (out.map symWord) := rfl
@[simp] theorem afterMatch_host : (afterMatch out s).host = s.host := rfl
@[simp] theorem afterMatch_lastRead : (afterMatch out s).lastRead = s.lastRead := rfl
@[simp] theorem afterMatch_draws : (afterMatch out s).draws = s.draws := rfl

end

/-! ### resetInput -/

section
variable (s : State)

@[simp] theorem resetInput_cmd : (resetInput s).cmd = 0 := rfl
@[simp] theorem resetInput_status : (resetInput s).status = ⟨false, false, false, false, 0⟩ := rfl
@[simp] theorem resetInput_phase : (resetInput s).phase = .idle := rfl
@[simp] theorem resetInput_inLen : (resetInput s).inLen = 0 := rfl
@[simp] theorem resetInput_outLen : (resetInput s).outLen = 0 := rfl
@[simp] theorem resetInput_nsym : (resetInput s).nsym = 0 := rfl
@[simp] theorem resetInput_maxLen : (resetInput s).maxLen = 0 := rfl
@[simp] theorem resetInput_mode : (resetInput s).mode = 0 := rfl
@[simp] theorem resetInput_payStart : (resetInput s).payStart = 0 := rfl
@[simp] theorem resetInput_payEnd : (resetInput s).payEnd = 0 := rfl
@[simp] theorem resetInput_encN : (resetInput s).encN = 0 := rfl
@[simp] theorem resetInput_nnodes : (resetInput s).nnodes = 0 := rfl
@[simp] theorem resetInput_symCap : (resetInput s).symCap = s.symCap := rfl
@[simp] theorem resetInput_byteCap : (resetInput s).byteCap = s.byteCap := rfl
@[simp] theorem resetInput_freqTab : (resetInput s).freqTab = [] := rfl
@[simp] theorem resetInput_nodeTab : (resetInput s).nodeTab = [] := rfl
@[simp] theorem resetInput_codeTab : (resetInput s).codeTab = [] := rfl
@[simp] theorem resetInput_mem : (resetInput s).mem = [] := rfl
@[simp] theorem resetInput_host : (resetInput s).host = s.host := rfl
@[simp] theorem resetInput_lastRead : (resetInput s).lastRead = s.lastRead := rfl
@[simp] theorem resetInput_draws : (resetInput s).draws = s.draws := rfl

end

end Sys2Proof.Machine
end

