-- ==== Sys2Proof/Laws/Outcome.lean ====
section
/-! SUPPORT. How a command ends, said once: completion, raising an error, the prerequisite check and the order of stages
(R292, R294, R322, R323, R235, R267). -/

namespace Sys2Proof.Machine

@[simp] theorem complete_ok (s : State) : complete (.ok s) = .next (completeOk s) := rfl
@[simp] theorem complete_raised (e : Err) (s : State) : complete (.raised e s) = .next (raiseError e s) := rfl
@[simp] theorem complete_fault (f : Fault) : complete (.fault f) = .fault f := rfl

/-- A command answers next exactly when its stage ran or raised. -/
theorem complete_eq_next {r : Stage} {t : State} :
    complete r = .next t ↔ (∃ s, r = .ok s ∧ t = completeOk s) ∨ ∃ e s, r = .raised e s ∧ t = raiseError e s := by
  cases r <;> simp [eq_comm]

/-- Completion of a success, as a record (R292). -/
theorem completeOk_eq (s : State) : completeOk s = { s with status := okStatus s } := rfl

/-- ILLEGAL_COMMAND and SEQUENCE change nothing but STATUS (R323). -/
theorem raiseError_of_protocol {e : Err} (h : e.isProtocol = true) (s : State) :
    raiseError e s = { s with status := errStatus e.code s } := by
  unfold raiseError; rw [if_pos h]; rfl

/-- Every other error clears PHASE and the results (R322). -/
theorem raiseError_of_failure {e : Err} (h : e.isProtocol = false) (s : State) :
    raiseError e s = failedState e.code s := by
  unfold raiseError; rw [if_neg (by simp [h])]; rfl

@[simp] theorem raiseError_status (e : Err) (s : State) : (raiseError e s).status = errStatus e.code s := by
  cases h : e.isProtocol
  · rw [raiseError_of_failure h]; rfl
  · rw [raiseError_of_protocol h]

@[simp] theorem raiseError_mem (e : Err) (s : State) : (raiseError e s).mem = s.mem := by
  cases h : e.isProtocol
  · rw [raiseError_of_failure h]; rfl
  · rw [raiseError_of_protocol h]

/-- No error has code 0. -/
theorem Err.code_ne_zero (e : Err) : e.code ≠ 0 := by cases e <;> decide

theorem Err.code_eq_twelve {e : Err} : e.code = 12 ↔ e = .sequence := by cases e <;> decide

theorem Err.code_le (e : Err) : e.code.toNat ≤ 13 := by cases e <;> decide

/-! ### Stages in order -/

@[simp] theorem Stage.andThen_ok (s : State) (f : State → Stage) : (Stage.ok s).andThen f = f s := rfl
@[simp] theorem Stage.andThen_raised (e : Err) (s : State) (f : State → Stage) :
    (Stage.raised e s).andThen f = .raised e s := rfl
@[simp] theorem Stage.andThen_fault (g : Fault) (f : State → Stage) : (Stage.fault g).andThen f = .fault g := rfl

theorem Stage.andThen_eq_ok {r : Stage} {f : State → Stage} {t : State} :
    r.andThen f = .ok t ↔ ∃ s, r = .ok s ∧ f s = .ok t := by
  cases r <;> simp

theorem Stage.andThen_eq_raised {r : Stage} {f : State → Stage} {e : Err} {t : State} :
    r.andThen f = .raised e t ↔ r = .raised e t ∨ ∃ s, r = .ok s ∧ f s = .raised e t := by
  cases r <;> simp

theorem Stage.andThen_eq_fault {r : Stage} {f : State → Stage} {g : Fault} :
    r.andThen f = .fault g ↔ r = .fault g ∨ ∃ s, r = .ok s ∧ f s = .fault g := by
  cases r <;> simp

/-! ### The prerequisite check -/

theorem requirePhase_of_mem {allowed : List Phase} {s : State} (h : s.phase ∈ allowed) (f : State → Stage) :
    requirePhase allowed f s = f s := by
  unfold requirePhase; rw [if_pos (by simpa using h)]

theorem requirePhase_of_not_mem {allowed : List Phase} {s : State} (h : s.phase ∉ allowed) (f : State → Stage) :
    requirePhase allowed f s = .raised .sequence s := by
  unfold requirePhase; rw [if_neg (by simpa using h)]

/-- Out of phase: SEQUENCE, and nothing but STATUS changes (R294, R323). -/
theorem complete_requirePhase_of_not_mem {allowed : List Phase} {s : State} (h : s.phase ∉ allowed) (f : State → Stage) :
    complete (requirePhase allowed f s) = .next { s with status := errStatus 12 s } := by
  rw [requirePhase_of_not_mem h, complete_raised, raiseError_of_protocol rfl]; rfl

end Sys2Proof.Machine
end

