-- ==== Sys2Proof/Laws/HostBus.lean ====
section
/-! SUPPORT. The address map and the permitted accesses, said once in numbers (R80, R83, R84), and what each host access can do. -/

namespace Sys2Proof.Machine

theorem capsOk_iff (a b : Nat) : capsOk a b = true ↔ (1 ≤ a ∧ a ≤ 262144) ∧ 3 ≤ b ∧ b ≤ 1048576 := by
  simp [capsOk, symCapOk, byteCapOk]

/-- Which region an address lies in, with the region's bounds (R80). -/
theorem region_cases (s : State) (a : Nat) :
    (s.region a = .csr ∧ a < 0x100) ∨
    (s.region a = .freqTab ∧ within a 0x001000 0x001800) ∨
    (s.region a = .node ∧ within a 0x002000 0x004000) ∨
    (s.region a = .codeTab ∧ within a 0x004000 0x005000) ∨
    (s.region a = .symIn ∧ within a 0x100000 (0x100000 + 4 * s.symCap)) ∨
    (s.region a = .symOut ∧ within a 0x200000 (0x200000 + 4 * s.symCap)) ∨
    (s.region a = .byteIn ∧ within a 0x300000 (0x300000 + s.byteCap)) ∨
    (s.region a = .byteOut ∧ within a 0x400000 (0x400000 + s.byteCap)) ∨
    (s.region a = .reserved ∧ ¬ a < 0x100 ∧ ¬ within a 0x001000 0x001800 ∧ ¬ within a 0x002000 0x005000 ∧
      ¬ within a 0x100000 (0x100000 + 4 * s.symCap) ∧ ¬ within a 0x200000 (0x200000 + 4 * s.symCap) ∧
      ¬ within a 0x300000 (0x300000 + s.byteCap) ∧ ¬ within a 0x400000 (0x400000 + s.byteCap)) := by
  have e : s.region a = regionOf s.symCap s.byteCap a := rfl
  rw [e]
  generalize hr : regionOf s.symCap s.byteCap a = r
  unfold regionOf at hr
  split at hr
  · subst hr; exact .inl ⟨rfl, by assumption⟩
  split at hr
  · subst hr; exact .inr (.inl ⟨rfl, by assumption⟩)
  split at hr
  · subst hr; exact .inr (.inr (.inl ⟨rfl, by assumption⟩))
  split at hr
  · subst hr; exact .inr (.inr (.inr (.inl ⟨rfl, by assumption⟩)))
  split at hr
  · subst hr; exact .inr (.inr (.inr (.inr (.inl ⟨rfl, by assumption⟩))))
  split at hr
  · subst hr; exact .inr (.inr (.inr (.inr (.inr (.inl ⟨rfl, by assumption⟩)))))
  split at hr
  · subst hr; exact .inr (.inr (.inr (.inr (.inr (.inr (.inl ⟨rfl, by assumption⟩))))))
  split at hr
  · subst hr; exact .inr (.inr (.inr (.inr (.inr (.inr (.inr (.inl ⟨rfl, by assumption⟩)))))))
  · next h0 h1 h2 h3 h4 h5 h6 h7 =>
    subst hr
    refine .inr (.inr (.inr (.inr (.inr (.inr (.inr (.inr ⟨rfl, h0, h1, ?_, h4, h5, h6, h7⟩)))))))
    simp only [freqTabBase, nodeBase, codeTabBase, within] at *
    omega

section
variable (s : State) (a : Nat) (h : capsOk s.symCap s.byteCap = true)
include h

/-- With the parameters in their ranges the regions do not overlap, so each is exactly its range (R80). -/
theorem region_iff :
    (s.region a = .csr ↔ a < 0x100) ∧ (s.region a = .freqTab ↔ within a 0x001000 0x001800) ∧
    (s.region a = .node ↔ within a 0x002000 0x004000) ∧ (s.region a = .codeTab ↔ within a 0x004000 0x005000) ∧
    (s.region a = .symIn ↔ within a 0x100000 (0x100000 + 4 * s.symCap)) ∧
    (s.region a = .symOut ↔ within a 0x200000 (0x200000 + 4 * s.symCap)) ∧
    (s.region a = .byteIn ↔ within a 0x300000 (0x300000 + s.byteCap)) ∧
    (s.region a = .byteOut ↔ within a 0x400000 (0x400000 + s.byteCap)) := by
  rw [capsOk_iff] at h
  unfold within
  rcases region_cases s a with e | e | e | e | e | e | e | e | e
  all_goals
    obtain ⟨e, hw⟩ := e
    rw [e]
    simp only [reduceCtorEq, false_iff, true_iff]
    try unfold within at hw
    omega

/-- The permitted accesses in numbers (R83, R84). -/
theorem accessOk_iff (w : Width) (x : Addr) : accessOk s w x = true ↔ permitted s w x := by
  unfold accessOk permitted
  obtain ⟨-, -, -, -, -, -, h1, h2⟩ := region_iff s x.toNat h
  cases w <;> simp [h1, h2]

end

/-- A permitted read answers next; the block's state does not change (R88). -/
theorem hostRead_ok {s : State} {w : Width} {a : Addr} (h : accessOk s w a = true) :
    hostRead w a s = .next { s with lastRead := some (readValue s w a), draws := s.draws + 1 } := by
  unfold hostRead; rw [if_pos h]

/-- Any other read is a bus error (R84). -/
theorem hostRead_not_ok {s : State} {w : Width} {a : Addr} (h : accessOk s w a = false) : hostRead w a s = .fault .busError := by
  unfold hostRead; rw [if_neg (by simp [h])]

theorem hostWrite_ok {s : State} {w : Width} {a : Addr} (v : Word) (h : accessOk s w a = true) :
    hostWrite w a v s = writeAt w a.toNat v s := by unfold hostWrite; rw [if_pos h]

theorem hostWrite_not_ok {s : State} {w : Width} {a : Addr} (v : Word) (h : accessOk s w a = false) :
    hostWrite w a v s = .fault .busError := by unfold hostWrite; rw [if_neg (by simp [h])]

/-- Everything a permitted write can do (R85, R86, R290, R293, R364). -/
theorem writeAt_cases (w : Width) (a : Nat) (v : Word) (s : State) :
    (s.region a = .csr ∧ a = offCmd ∧ writeAt w a v s = .next (cmdWrite v s)) ∨
    (s.region a = .csr ∧ a = offInLen ∧ writeAt w a v s = inputWrite s { s with inLen := v }) ∨
    (s.region a = .symIn ∧ writeAt w a v s = inputWrite s { s with mem := Memory.writeWord s.mem a v }) ∨
    (s.region a = .byteIn ∧ writeAt w a v s = inputWrite s { s with mem := byteInWrite s w a v }) ∨
    (s.region a ≠ .symIn ∧ s.region a ≠ .byteIn ∧ (s.region a = .csr → a ≠ offCmd ∧ a ≠ offInLen) ∧
      writeAt w a v s = .next s) := by
  unfold writeAt
  cases hr : s.region a
  case csr =>
    dsimp only
    split
    · next h => exact .inl ⟨rfl, h, rfl⟩
    · split
      · next h => exact .inr (.inl ⟨rfl, h, rfl⟩)
      · next h1 h2 => exact .inr (.inr (.inr (.inr ⟨by simp, by simp, fun _ => ⟨h1, h2⟩, rfl⟩)))
  case symIn => exact .inr (.inr (.inl ⟨rfl, rfl⟩))
  case byteIn => exact .inr (.inr (.inr (.inl ⟨rfl, rfl⟩)))
  all_goals exact .inr (.inr (.inr (.inr ⟨by simp, by simp, by simp, rfl⟩)))

theorem inputWrite_busy {s t : State} (h : s.status.busy = true) : inputWrite s t = .fault .inputWriteWhileBusy := by
  unfold inputWrite; rw [if_pos h]

theorem inputWrite_idle {s t : State} (h : s.status.busy = false) : inputWrite s t = .next t := by
  unfold inputWrite; rw [if_neg (by simp [h])]

/-- A byte stored at a byte window: there unless above the capacity, and nowhere else (R80, R85). -/
theorem read_storeLane (hi : Nat) (m : List Host.Cell) (a x : Nat) (b : Byte) :
    Memory.read (storeLane hi m a b) x = if x = a ∧ a < hi then some b else Memory.read m x := by
  unfold storeLane
  by_cases h : a < hi
  · rw [if_pos h, Memory.read_write]; simp [h]
  · rw [if_neg h]; simp [h]

/-- A word stored at a byte window: its lanes below the capacity, and nothing else (R87). -/
theorem read_storeLanes (hi : Nat) (m : List Host.Cell) (a x : Nat) (v : Word) :
    Memory.read (storeLanes hi m a v) x = if within x a (a + 4) ∧ x < hi then some (lane v (x - a)) else Memory.read m x := by
  unfold storeLanes within
  simp only [read_storeLane]
  by_cases h3 : x = a + 3
  · subst h3; by_cases hh : a + 3 < hi <;> simp [hh]
  by_cases h2 : x = a + 2
  · subst h2; by_cases hh : a + 2 < hi <;> simp [hh]
  by_cases h1 : x = a + 1
  · subst h1; by_cases hh : a + 1 < hi <;> simp [hh]
  by_cases h0 : x = a
  · subst h0; by_cases hh : x < hi <;> simp [hh]
  rw [if_neg (by omega), if_neg (by omega), if_neg (by omega), if_neg (by omega), if_neg (by omega)]

theorem storeLane_wf (hi : Nat) {m : List Host.Cell} (h : Memory.wf m = true) (a : Nat) (b : Byte) :
    Memory.wf (storeLane hi m a b) = true := by
  unfold storeLane; split
  · exact Memory.write_wf h _ _
  · exact h

/-- A write at a byte window keeps the canonical form. -/
theorem byteInWrite_wf {s : State} (h : Memory.wf s.mem = true) (w : Width) (a : Nat) (v : Word) :
    Memory.wf (byteInWrite s w a v) = true := by
  unfold byteInWrite storeLanes
  cases w <;> (try exact storeLane_wf _ h _ _) <;>
    exact storeLane_wf _ (storeLane_wf _ (storeLane_wf _ (storeLane_wf _ h _ _) _ _) _ _) _ _

theorem mem_storeLane {hi : Nat} {m : List Host.Cell} {a : Nat} {b : Byte} {c : Host.Cell} (h : c ∈ storeLane hi m a b) :
    (c.1 = a ∧ a < hi) ∨ c ∈ m := by
  unfold storeLane at h
  split at h
  · rcases Memory.mem_write h with e | h
    · exact .inl ⟨e, by assumption⟩
    · exact .inr h
  · exact .inr h

/-- A write at a byte window lists no address but those it stores to and those listed before. -/
theorem mem_byteInWrite {s : State} {w : Width} {a : Nat} {v : Word} {c : Host.Cell} (h : c ∈ byteInWrite s w a v) :
    within c.1 a (byteInBase + s.byteCap) ∨ c ∈ s.mem := by
  unfold byteInWrite storeLanes at h
  unfold within
  cases w
  case w8 =>
    rcases mem_storeLane h with e | h
    · left; omega
    · exact .inr h
  all_goals
    rcases mem_storeLane h with e | h
    · left; omega
    rcases mem_storeLane h with e | h
    · left; omega
    rcases mem_storeLane h with e | h
    · left; omega
    rcases mem_storeLane h with e | h
    · left; omega
    exact .inr h

end Sys2Proof.Machine
end

