-- ==== Sys2Proof/Laws/Order.lean ====
section
/-! SUPPORT. The laws of the stable descending sort and its insertion (R12, R201). -/

namespace Sys2Proof.Machine

variable {α : Type} (key : α → Nat)

theorem insertDesc_perm (x : α) (xs : List α) : (insertDesc key x xs).Perm (x :: xs) := by
  induction xs with
  | nil => exact .refl _
  | cons y ys ih =>
    unfold insertDesc
    split
    · exact .refl _
    · exact (ih.cons y).trans (.swap x y ys)

@[simp] theorem insertDesc_length (x : α) (xs : List α) : (insertDesc key x xs).length = xs.length + 1 := by
  simpa using (insertDesc_perm key x xs).length_eq

theorem sortDesc_perm (xs : List α) : (sortDesc key xs).Perm xs := by
  induction xs with
  | nil => exact .refl _
  | cons x xs ih => exact (insertDesc_perm key x _).trans (ih.cons x)

@[simp] theorem sortDesc_length (xs : List α) : (sortDesc key xs).length = xs.length := (sortDesc_perm key xs).length_eq

/-- Insertion keeps a descending list descending (R201). -/
theorem insertDesc_pairwise (x : α) {xs : List α} (h : xs.Pairwise fun a b => key b ≤ key a) :
    (insertDesc key x xs).Pairwise fun a b => key b ≤ key a := by
  induction xs with
  | nil => simp [insertDesc]
  | cons y ys ih =>
    obtain ⟨h1, h2⟩ := List.pairwise_cons.mp h
    unfold insertDesc
    split
    · next hx =>
      refine List.pairwise_cons.mpr ⟨fun z hz => ?_, h⟩
      rcases List.mem_cons.mp hz with rfl | hz
      · exact hx
      · exact Nat.le_trans (h1 z hz) hx
    · next hx =>
      refine List.pairwise_cons.mpr ⟨fun z hz => ?_, ih h2⟩
      rcases List.mem_cons.mp ((insertDesc_perm key x ys).mem_iff.mp hz) with rfl | hz
      · omega
      · exact h1 z hz

theorem sortDesc_pairwise (xs : List α) : (sortDesc key xs).Pairwise fun a b => key b ≤ key a := by
  induction xs with
  | nil => exact .nil
  | cons x xs ih => exact insertDesc_pairwise key x ih

theorem insertDesc_filter (x : α) (xs : List α) (c : Nat) :
    (insertDesc key x xs).filter (fun a => key a == c) = (x :: xs).filter fun a => key a == c := by
  induction xs with
  | nil => rfl
  | cons y ys ih =>
    unfold insertDesc
    split
    · rfl
    · next hx =>
      rw [List.filter_cons, ih]
      simp only [List.filter_cons]
      by_cases hy : key y = c
      · have : key x ≠ c := by omega
        simp [hy, this]
      · simp [hy]

/-- Equal keys keep their order: the sort is stable (R12). -/
theorem sortDesc_filter (xs : List α) (c : Nat) :
    (sortDesc key xs).filter (fun a => key a == c) = xs.filter fun a => key a == c := by
  induction xs with
  | nil => rfl
  | cons x xs ih => rw [sortDesc, insertDesc_filter, List.filter_cons, List.filter_cons, ih]

end Sys2Proof.Machine
end

