-- ==== Sys2Proof/Laws/PerInstr.lean ====
section
/-! SUPPORT. Statements made once per command, as syntax (R120, R122, R123). -/

namespace Sys2Proof.Laws.LegalWord

open Sys2Proof

/-- The command's word is legal: RSVD is 0 and OP is listed (R120, R122-R124). -/
def Statement (i : Instr) : Prop := legalWord (encode i) = true

theorem freq : Statement .freq := by unfold Statement; decide
theorem sort : Statement .sort := by unfold Statement; decide
theorem build : Statement .build := by unfold Statement; decide
theorem codegen : Statement .codegen := by unfold Statement; decide
theorem pack : Statement .pack := by unfold Statement; decide
theorem compress : Statement .compress := by unfold Statement; decide
theorem parse : Statement .parse := by unfold Statement; decide
theorem matchCodes : Statement .matchCodes := by unfold Statement; decide
theorem decompress : Statement .decompress := by unfold Statement; decide
theorem clear : Statement .clear := by unfold Statement; decide

end Sys2Proof.Laws.LegalWord
end

