-- ==== Sys2Proof/Laws/Stages.lean ====
section
/-! SUPPORT. One inversion lemma per stage: everything it can do (R170, R172, R200, R205, R230, R260, R264). Provers cite these
and unfold no stage. -/

namespace Sys2Proof.Machine

/-! ### FREQ -/

/-- FREQ succeeds exactly so (R170). -/
theorem freqStage_eq_ok {s t : State} :
    freqStage s = .ok t ↔ ∃ xs, s.inLen.toNat ≤ s.symCap ∧ s.inLen.toNat ≠ 0 ∧ s.symbols s.inLen.toNat = some xs ∧
      covered xs 3 = true ∧ (recordsOf xs).length ≤ 255 ∧
      t = afterFreq xs (recordsOf xs) s := by
  unfold freqStage
  split
  · simp; omega
  · split
    · next h => simp [h]
    · split
      · next h => simp [h]
      · next xs h =>
        simp only [h, Option.some.injEq, freqOf]
        by_cases hc : covered xs 3 = true
        · by_cases hl : (recordsOf xs).length > 255
          · rw [if_pos hc, if_pos hl]
            constructor
            · intro h'; cases h'
            · rintro ⟨_, -, -, rfl, -, h', -⟩; omega
          · rw [if_pos hc, if_neg hl]
            constructor
            · intro h'; cases h'; exact ⟨xs, by omega, by omega, rfl, hc, by omega, rfl⟩
            · rintro ⟨_, -, -, rfl, -, -, rfl⟩; rfl
        · rw [if_neg hc]
          constructor
          · intro h'; cases h'
          · rintro ⟨_, -, -, rfl, h', -, -⟩; contradiction

/-- FREQ raises exactly these, with the state as it was (R170, R324). -/
theorem freqStage_eq_raised {s t : State} {e : Err} (h : freqStage s = .raised e t) :
    t = s ∧ e ∈ [Err.inputLength, .emptyInput, .unknownMode, .alphabetOverflow] := by
  unfold freqStage freqOf at h
  split at h
  · cases h; simp
  split at h
  · cases h; simp
  split at h
  · cases h
  split at h
  · split at h
    · cases h; simp
    · cases h
  · cases h; simp

theorem freqStage_eq_fault {s : State} {f : Fault} (h : freqStage s = .fault f) :
    f = .unwrittenInput ∧ s.inLen.toNat ≤ s.symCap ∧ ∃ k < s.inLen.toNat, s.symIn k = none := by
  unfold freqStage freqOf at h
  split at h
  · cases h
  split at h
  · cases h
  split at h
  · next hn => cases h; exact ⟨rfl, by omega, State.symbols_eq_none.mp hn⟩
  split at h
  · split at h <;> cases h
  · cases h

/-! ### BUILD and CODEGEN -/

theorem buildStage_eq_ok {s t : State} :
    buildStage s = .ok t ↔ s.nsym ≠ 0 ∧ t = { s with
      nodeTab := buildNodes s.records, nnodes := BitVec.ofNat 32 (buildNodes s.records).length, payStart := 0, payEnd := 0,
      outLen := 0, phase := .tree } := by
  unfold buildStage
  by_cases h : s.nsym = 0
  · rw [if_pos h]
    constructor
    · intro h'; cases h'
    · rintro ⟨h', -⟩; exact absurd h h'
  · rw [if_neg h]
    constructor
    · intro h'; cases h'; exact ⟨h, rfl⟩
    · rintro ⟨-, rfl⟩; rfl

theorem buildStage_eq_raised {s t : State} {e : Err} (h : buildStage s = .raised e t) :
    t = s ∧ e = .degenerateTree ∧ s.nsym = 0 := by
  unfold buildStage at h
  split at h
  · cases h; exact ⟨rfl, rfl, by assumption⟩
  · cases h

theorem codegenStage_eq_ok {s t : State} :
    codegenStage s = .ok t ↔ maxLength s.codeTable ≤ 63 ∧ t = { s with
      codeTab := s.codeTable, maxLen := BitVec.ofNat 6 (maxLength s.codeTable), payStart := 0, payEnd := 0, outLen := 0,
      phase := .coded } := by
  unfold codegenStage
  by_cases h : maxLength s.codeTable > 63
  · rw [if_pos h]
    constructor
    · intro h'; cases h'
    · rintro ⟨h', -⟩; omega
  · rw [if_neg h]
    constructor
    · intro h'; cases h'; exact ⟨by omega, rfl⟩
    · rintro ⟨-, rfl⟩; rfl

theorem codegenStage_eq_raised {s t : State} {e : Err} (h : codegenStage s = .raised e t) :
    t = s ∧ e = .codeLengthOverflow ∧ 63 < maxLength s.codeTable := by
  unfold codegenStage at h
  split at h
  · cases h; exact ⟨rfl, rfl, by assumption⟩
  · cases h

/-- The largest length is at most n exactly when every length is (R208). -/
theorem maxLength_le {tab : List CodeEntry} {n : Nat} : maxLength tab ≤ n ↔ ∀ e ∈ tab, e.code.length ≤ n := by
  induction tab with
  | nil => simp [maxLength]
  | cons e tab ih => simp [maxLength, ih]

/-! ### PACK -/

theorem packStage_eq_ok {s t : State} :
    packStage s = .ok t ↔ ∃ out, packBytes s = .ok out ∧ t = afterPack out s := by
  unfold packStage
  split <;> simp_all [eq_comm]

theorem packStage_eq_raised {s t : State} {e : Err} :
    packStage s = .raised e t ↔ packBytes s = .raised e ∧ t = discardByteOut s := by
  unfold packStage
  split <;> simp_all [eq_comm]

theorem packBytes_eq_ok {s : State} {out : List Byte} :
    packBytes s = .ok out ↔ ∃ cs, payloadCodes s.codes s.symIn 0 s.encN.toNat = .ok cs ∧
      out = s.container cs ∧ out.length ≤ s.byteCap := by
  unfold packBytes
  split
  · simp_all
  · simp_all
  · next cs h =>
    simp only [h, Result.ok.injEq]
    split
    · constructor
      · simp
      · rintro ⟨_, rfl, rfl, h'⟩; omega
    · simp only [Result.ok.injEq]
      constructor
      · rintro rfl; exact ⟨cs, rfl, rfl, by omega⟩
      · rintro ⟨_, rfl, rfl, -⟩; rfl

/-- PACK's lookups succeed exactly when every entry is readable and has a code (R232). -/
theorem payloadCodes_eq_ok {tab : List CodeEntry} {f : Nat → Option Word} {i n : Nat} {cs : List BitStr} :
    payloadCodes tab f i n = .ok cs ↔ cs.length = n ∧ ∀ k < n, ∃ x, f (i + k) = some x ∧ codeFor tab x = cs[k]? := by
  induction n generalizing i cs with
  | zero => simp [payloadCodes, eq_comm]
  | succ n ih =>
    unfold payloadCodes
    constructor
    · intro h
      split at h
      · cases h
      next x hx =>
      split at h
      · cases h
      next c hc =>
      split at h <;> cases h
      next ds hds =>
      obtain ⟨h1, h2⟩ := ih.mp hds
      refine ⟨by simp [h1], fun k hk => ?_⟩
      cases k with
      | zero => exact ⟨x, by simpa using hx, by simpa using hc⟩
      | succ k =>
        obtain ⟨y, e1, e2⟩ := h2 k (by omega)
        exact ⟨y, by rw [show i + (k + 1) = i + 1 + k by omega]; exact e1, by simpa using e2⟩
    · rintro ⟨h1, h2⟩
      cases cs with
      | nil => simp at h1
      | cons c cs =>
        obtain ⟨x, e1, e2⟩ := h2 0 (by omega)
        have hr : payloadCodes tab f (i + 1) n = .ok cs := by
          refine ih.mpr ⟨by simpa using h1, fun k hk => ?_⟩
          obtain ⟨y, e1, e2⟩ := h2 (k + 1) (by omega)
          exact ⟨y, by rw [show i + 1 + k = i + (k + 1) by omega]; exact e1, by simpa using e2⟩
        simp only [Nat.add_zero, List.getElem?_cons_zero] at e1 e2
        simp [e1, e2, hr]

/-- PACK's lookups raise only UNMATCHED_CODE and fault only on an unwritten entry (R232, R93). -/
theorem payloadCodes_raised {tab : List CodeEntry} {f : Nat → Option Word} {i n : Nat} {e : Err}
    (h : payloadCodes tab f i n = .raised e) : e = .unmatchedCode := by
  induction n generalizing i with
  | zero => cases h
  | succ n ih =>
    unfold payloadCodes at h
    split at h
    · cases h
    split at h
    · cases h; rfl
    split at h
    · cases h
    · next h' => cases h; exact ih h'
    · cases h

theorem payloadCodes_fault {tab : List CodeEntry} {f : Nat → Option Word} {i n : Nat} {g : Fault}
    (h : payloadCodes tab f i n = .fault g) : g = .unwrittenInput ∧ ∃ k < n, f (i + k) = none := by
  induction n generalizing i with
  | zero => cases h
  | succ n ih =>
    unfold payloadCodes at h
    split at h
    · next hx => cases h; exact ⟨rfl, 0, by omega, hx⟩
    split at h
    · cases h
    split at h
    · cases h
    · cases h
    · next h' =>
      cases h
      obtain ⟨e, k, hk, hf⟩ := ih h'
      exact ⟨e, k + 1, by omega, by rw [show i + (k + 1) = i + 1 + k by omega]; exact hf⟩

theorem packBytes_raised {s : State} {e : Err} (h : packBytes s = .raised e) : e = .unmatchedCode ∨ e = .outputOverflow := by
  unfold packBytes at h
  split at h
  · next h' => cases h; exact .inl (payloadCodes_raised h')
  · cases h
  · split at h <;> cases h
    exact .inr rfl

/-! ### PARSE -/

/-- PARSE succeeds exactly so (R260). -/
theorem parseStage_eq_ok {s t : State} :
    parseStage s = .ok t ↔ ∃ c es, s.inLen.toNat ≤ s.byteCap ∧ 2 ≤ s.inLen.toNat ∧ s.inputBytes 0 s.inLen.toNat = some c ∧
      parseTree (trailerIn c) (bodyOf c) = .ok es ∧
      t = afterParse (trailerIn c) es c.length s := by
  unfold parseStage
  split
  · simp; omega
  split
  · simp; omega
  split
  · next h => simp [h]
  · next c h =>
    simp only [h, Option.some.injEq, parseOf]
    constructor
    · intro h'
      split at h' <;> cases h'
      next es hes => exact ⟨c, es, by omega, by omega, rfl, hes, rfl⟩
    · rintro ⟨_, es, -, -, rfl, hes, rfl⟩
      rw [hes]

theorem parseEntries_raised {symBits slot n : Nat} {b : BitStr} {e : Err} (h : parseEntries symBits slot n b = .raised e) :
    e = .truncatedHeader ∨ e = .headerFormat := by
  induction n generalizing b with
  | zero => cases h
  | succ n ih =>
    unfold parseEntries at h
    dsimp only at h
    split at h
    · cases h; exact .inl rfl
    split at h
    · cases h; exact .inr rfl
    split at h
    · cases h
    · next h' => cases h; exact ih h'
    · cases h

theorem parseEntries_fault {symBits slot n : Nat} {b : BitStr} {f : Fault} : parseEntries symBits slot n b ≠ .fault f := by
  induction n generalizing b with
  | zero => intro h; cases h
  | succ n ih =>
    intro h
    unfold parseEntries at h
    dsimp only at h
    split at h
    · cases h
    split at h
    · cases h
    split at h
    · cases h
    · cases h
    · next h' => cases h; exact ih h'

/-- PARSE raises only these, with the state as it was (R260, R261, R324). -/
theorem parseStage_eq_raised {s t : State} {e : Err} (h : parseStage s = .raised e t) :
    t = s ∧ e ∈ [Err.inputLength, .truncatedHeader, .headerFormat] := by
  unfold parseStage parseOf parseTree at h
  split at h
  · cases h; simp
  split at h
  · cases h; simp
  split at h
  · cases h
  split at h
  · cases h
  · next h' => cases h; rcases parseEntries_raised h' with rfl | rfl <;> simp
  · cases h

/-! ### MATCH -/

theorem matchStage_eq_ok {s t : State} :
    matchStage s = .ok t ↔ ∃ out, matchSymbols s = .ok out ∧ t = afterMatch out s := by
  unfold matchStage
  split <;> simp_all [eq_comm]

theorem matchStage_eq_raised {s t : State} {e : Err} :
    matchStage s = .raised e t ↔ matchSymbols s = .raised e ∧ t = discardSymOut s := by
  unfold matchStage
  split <;> simp_all [eq_comm]

theorem matchLoop_raised {tab : List CodeEntry} {room : Nat} {b : BitStr} {e : Err} (h : matchLoop tab room b = .raised e) :
    e = .unmatchedCode ∨ e = .outputOverflow := by
  induction room generalizing b with
  | zero =>
    cases b with
    | nil => cases h
    | cons x b => unfold matchLoop at h; split at h <;> cases h <;> simp
  | succ room ih =>
    cases b with
    | nil => cases h
    | cons x b =>
      unfold matchLoop at h
      split at h
      · cases h; exact .inl rfl
      split at h
      · cases h
      · next h' => cases h; exact ih h'
      · cases h

theorem matchLoop_fault {tab : List CodeEntry} {room : Nat} {b : BitStr} {f : Fault} : matchLoop tab room b ≠ .fault f := by
  induction room generalizing b with
  | zero =>
    intro h
    cases b with
    | nil => cases h
    | cons x b => unfold matchLoop at h; split at h <;> cases h
  | succ room ih =>
    intro h
    cases b with
    | nil => cases h
    | cons x b =>
      unfold matchLoop at h
      split at h
      · cases h
      split at h
      · cases h
      · cases h
      · next h' => cases h; exact ih h'

theorem matchLoop_length {tab : List CodeEntry} {room : Nat} {b : BitStr} {out : List Sym}
    (h : matchLoop tab room b = .ok out) : out.length ≤ room := by
  induction room generalizing b out with
  | zero =>
    cases b with
    | nil => cases h; simp
    | cons x b => unfold matchLoop at h; split at h <;> cases h
  | succ room ih =>
    cases b with
    | nil => cases h; simp
    | cons x b =>
      unfold matchLoop at h
      split at h
      · cases h
      split at h
      · next h' => cases h; have := ih h'; simpa using this
      · cases h
      · cases h

theorem matchSymbols_raised {s : State} {e : Err} (h : matchSymbols s = .raised e) :
    e = .truncatedPayload ∨ e = .unmatchedCode ∨ e = .outputOverflow := by
  unfold matchSymbols at h
  split at h
  · cases h
  split at h
  · cases h; exact .inl rfl
  · exact .inr (matchLoop_raised h)

theorem matchSymbols_length {s : State} {out : List Sym} (h : matchSymbols s = .ok out) : out.length ≤ s.symCap := by
  unfold matchSymbols at h
  split at h
  · cases h
  split at h
  · cases h
  · exact matchLoop_length h

end Sys2Proof.Machine
end

