-- ==== Sys2Proof/Laws/Tree.lean ====
section
/-! SUPPORT. The tree builder's operations, said once (R200-R204), and the words of a NODE slot (R55). -/

namespace Sys2Proof.Machine

/-! ### The queue -/

/-- The queue of the leaves: id k for record k, with its count (R200). -/
theorem leafQueue_eq (k : Nat) (rs : List FreqRecord) : leafQueue k rs = (rs.zipIdx k).map fun x => ⟨x.2, x.1.count⟩ := by
  induction rs generalizing k with
  | nil => rfl
  | cons r rs ih => simp [leafQueue, ih]

@[simp] theorem leafQueue_length (k : Nat) (rs : List FreqRecord) : (leafQueue k rs).length = rs.length := by
  simp [leafQueue_eq]

theorem leafQueue_id_lt {k : Nat} {rs : List FreqRecord} {e : QEntry} (h : e ∈ leafQueue k rs) : e.id < k + rs.length := by
  induction rs generalizing k with
  | nil => cases h
  | cons r rs ih =>
    rcases List.mem_cons.mp h with rfl | h
    · simp
    · have := ih h; simp; omega

/-- The two entries at the tail (R200). -/
theorem takeTail_append (q : List QEntry) (b a : QEntry) : takeTail (q ++ [b, a]) = some (q, b, a) := by
  induction q with
  | nil => rfl
  | cons x q ih =>
    obtain ⟨y, z, r, e⟩ : ∃ y z r, q ++ [b, a] = y :: z :: r := by
      match q with
      | [] => exact ⟨b, a, [], rfl⟩
      | [y] => exact ⟨y, b, [a], rfl⟩
      | y :: z :: r => exact ⟨y, z, r ++ [b, a], rfl⟩
    rw [List.cons_append, e, takeTail, ← e, ih]

/-- A queue of at least two entries ends in two. -/
theorem exists_tail {q : List QEntry} (h : 2 ≤ q.length) : ∃ r b a, q = r ++ [b, a] := by
  rcases List.eq_nil_or_concat q with rfl | ⟨q, a, rfl⟩
  · simp at h
  · rcases List.eq_nil_or_concat q with rfl | ⟨r, b, rfl⟩
    · simp at h
    · exact ⟨r, b, a, by simp⟩

/-! ### The merge loop -/

/-- On a queue of fewer than three entries the loop ends. -/
theorem mergeLoop_short (fuel : Nat) (nodes : List Node) {q : List QEntry} (h : q.length < 3) :
    mergeLoop fuel nodes q = (nodes, q) := by
  cases fuel with
  | zero => rfl
  | succ fuel => rw [mergeLoop, if_pos h]

/-- One turn of the loop. -/
theorem mergeLoop_turn (fuel : Nat) (nodes : List Node) {q : List QEntry} (b a : QEntry) (h : q ≠ []) :
    mergeLoop (fuel + 1) nodes (q ++ [b, a]) =
      mergeLoop fuel (nodes ++ [mergedNode b a]) (insertDesc QEntry.key ⟨nodes.length, a.freq + b.freq⟩ q) := by
  have hq : 0 < q.length := List.length_pos_iff.mpr h
  rw [mergeLoop, if_neg (by simp; omega), takeTail_append]

/-- What the loop ends with: one or two entries, whose ids are ids of nodes; each turn trades one entry for one node; the
nodes it starts with stay in place. -/
theorem mergeLoop_ends {fuel : Nat} {nodes nodes' : List Node} {q q' : List QEntry} (hq : q ≠ []) (hl : q.length ≤ fuel + 2)
    (hid : ∀ e ∈ q, e.id < nodes.length) (h : mergeLoop fuel nodes q = (nodes', q')) :
    q'.length = min q.length 2 ∧ nodes'.length + q'.length = nodes.length + q.length ∧ (∀ e ∈ q', e.id < nodes'.length) ∧
      nodes <+: nodes' := by
  induction fuel generalizing nodes q with
  | zero =>
    obtain ⟨rfl, rfl⟩ := Prod.mk.inj h
    exact ⟨by omega, rfl, hid, List.prefix_rfl⟩
  | succ fuel ih =>
    by_cases h3 : q.length < 3
    · rw [mergeLoop_short _ _ h3] at h
      obtain ⟨rfl, rfl⟩ := Prod.mk.inj h
      exact ⟨by omega, rfl, hid, List.prefix_rfl⟩
    · obtain ⟨r, b, a, rfl⟩ := exists_tail (q := q) (by omega)
      simp at h3 hl
      have hr : r ≠ [] := by rintro rfl; simp at h3
      rw [mergeLoop_turn _ _ _ _ hr] at h
      obtain ⟨h1, h2, h4, h5⟩ := ih (by intro e; simpa using congrArg List.length e) (by simp; omega) (fun e he => by
        rcases List.mem_cons.mp ((insertDesc_perm QEntry.key _ r).mem_iff.mp he) with rfl | he
        · simp
        · have := hid e (by simp [he]); simp; omega) h
      simp at h1 h2 ⊢
      exact ⟨by omega, by omega, h4, (List.prefix_append _ _).trans h5⟩

/-- The whole tree is the loop's nodes and the root over what is left of the queue (R200, R203). -/
theorem buildNodes_eq (rs : List FreqRecord) : buildNodes rs =
    (mergeLoop rs.length (rs.map leafOf) (leafQueue 0 rs)).1 ++
      [rootOver (sumCounts rs) (mergeLoop rs.length (rs.map leafOf) (leafQueue 0 rs)).2] := rfl

/-- The number of nodes: 2 for one record, 2n - 1 for n (R48). -/
theorem buildNodes_length {rs : List FreqRecord} (h : rs ≠ []) :
    (buildNodes rs).length = if rs.length = 1 then 2 else 2 * rs.length - 1 := by
  have hl : 0 < rs.length := List.length_pos_iff.mpr h
  have hq : leafQueue 0 rs ≠ [] := List.ne_nil_of_length_pos (by simpa using hl)
  obtain ⟨h1, h2, -, -⟩ := mergeLoop_ends hq (by simp) (fun e he => by simpa using leafQueue_id_lt he)
    (show mergeLoop rs.length (rs.map leafOf) (leafQueue 0 rs) = (_, _) from rfl)
  rw [buildNodes_eq, List.length_append]
  simp only [List.length_map, leafQueue_length] at h1 h2
  simp only [List.length_cons, List.length_nil]
  split <;> omega

/-! ### The words of a NODE slot -/

theorem childWord_some_toNat (i : BitVec 9) : (childWord (some i)).toNat = 2 ^ 31 + i.toNat := by
  have := i.isLt
  simp [childWord]
  omega

@[simp] theorem childWord_none : childWord none = 0 := rfl

@[simp] theorem Node.window_kind (n : Node) : n.window 0 = n.kind.word := rfl
@[simp] theorem Node.window_freq (n : Node) : n.window 1 = n.freq := rfl
@[simp] theorem Node.window_left (n : Node) : n.window 2 = if n.kind = .leaf then 0 else childWord n.left := rfl
@[simp] theorem Node.window_right (n : Node) :
    n.window 3 = if n.kind = .leaf then n.sym.setWidth 32 else childWord n.right := rfl

end Sys2Proof.Machine
end

