-- ==== Sys2Proof/Tests/Slice0.lean ====
section
/-! SUPPORT. Tests whose expected results come from spec/95_test_vectors.md and spec/30_encoding.md (each names its vector or rule),
and, for every statement of Obligations.lean that has hypotheses, a state and operands that meet all of them together. -/

namespace Sys2Proof.Tests

open Sys2Proof Sys2Proof.Machine

-- one theorem at a time: a hundred kernel evaluations at once need a thread's stack each
set_option Elab.async false

/-! ### Helpers -/

/-- A block just after reset with SYM_CAP = 16 and BYTE_CAP = 32. -/
def small : State := State.resetWith 16 32

/-- The host has written these symbols to SYM_IN and their number to IN_LEN. -/
def withSyms (xs : List Word) (s : State) : State :=
  { s with mem := Memory.writeWords s.mem symInBase xs, inLen := BitVec.ofNat 32 xs.length }

/-- The host has written these bytes to BYTE_IN and their number to IN_LEN. -/
def withBytes (bs : List Byte) (s : State) : State :=
  { s with mem := Memory.writeBytes s.mem byteInBase bs, inLen := BitVec.ofNat 32 bs.length }

/-- The next state of an outcome; the reset state where there is none. -/
def after : Host.Outcome State Fault Refusal → State
  | .next s => s
  | _ => State.reset

/-- Whether an outcome is a next state. -/
def completes : Host.Outcome State Fault Refusal → Bool
  | .next _ => true
  | _ => false

/-- The fault an outcome stops in, if any. -/
def stopsIn : Host.Outcome State Fault Refusal → Option Fault
  | .fault f => some f
  | _ => none

/-- BYTE_OUT[0..n). -/
def outBytes (n : Nat) (s : State) : List (Option Byte) := (List.range n).map s.byteOut

/-- SYM_OUT[0..n). -/
def outSyms (n : Nat) (s : State) : List (Option Word) := (List.range n).map s.symOut

/-- The result registers and PHASE: OUT_LEN, NSYM, MAXLEN, MODE, PAY_START, PAY_END, ENC_N, NNODES, PHASE. -/
def results (s : State) : List Word :=
  [s.outLen, s.nsym.setWidth 32, s.maxLen.setWidth 32, s.mode.setWidth 32, s.payStart, s.payEnd, s.encN, s.nnodes, s.phase.word]

/-- "ab" -/
def ab : List Word := [0x61, 0x62]
/-- "aaaa" -/
def aaaa : List Word := [0x61, 0x61, 0x61, 0x61]
/-- "abracadabra" -/
def abra : List Word := [0x61, 0x62, 0x72, 0x61, 0x63, 0x61, 0x64, 0x61, 0x62, 0x72, 0x61]
/-- V-PACK-2 -/
def abBytes : List Byte := [0x61, 0x07, 0x01, 0x62, 0x07, 0x00, 0x06, 0x02, 0x04]
/-- V-PACK-3 -/
def abraBytes : List Byte := [0x61, 0x07, 0x00, 0x62, 0x05, 0x07, 0x72, 0x05, 0x06, 0x63, 0x05, 0x05, 0x64, 0x05, 0x04, 0xBE, 0x54,
  0x7C, 0x05, 0x0C]

/-- FREQ_TAB of "abracadabra" (V-FREQ-1), the same before and after SORT. -/
def abraRecords : List FreqRecord :=
  [⟨0x61, 5, 0⟩, ⟨0x62, 2, 1⟩, ⟨0x72, 2, 2⟩, ⟨0x63, 1, 4⟩, ⟨0x64, 1, 6⟩]

/-- NODE of "abracadabra" (V-TREE-1). -/
def abraNodes : List Node :=
  [ ⟨.leaf, 5, 0x61, none, none⟩, ⟨.leaf, 2, 0x62, none, none⟩, ⟨.leaf, 2, 0x72, none, none⟩, ⟨.leaf, 1, 0x63, none, none⟩,
    ⟨.leaf, 1, 0x64, none, none⟩, ⟨.internal, 2, 0, some 4, some 3⟩, ⟨.internal, 4, 0, some 2, some 1⟩,
    ⟨.internal, 6, 0, some 5, some 6⟩, ⟨.root, 11, 0, some 0, some 7⟩ ]

/-- CODE_TAB of "abracadabra" (V-CODE-1). -/
def abraCodes : List CodeEntry :=
  [ ⟨0x61, [false]⟩, ⟨0x62, [true, true, true]⟩, ⟨0x72, [true, true, false]⟩, ⟨0x63, [true, false, true]⟩,
    ⟨0x64, [true, false, false]⟩ ]

/-- After FREQ of "abracadabra" (V-FREQ-1). -/
def counted : State := { withSyms abra small with freqTab := abraRecords, nsym := 5, encN := 11, phase := .counted }
/-- After SORT (PROG-2). -/
def sorted : State := { counted with phase := .sorted }
/-- After BUILD (V-TREE-1). -/
def treed : State := { sorted with nodeTab := abraNodes, nnodes := 9, phase := .tree }
/-- A tree of one leaf (V-TREE-2), after BUILD. -/
def treed1 : State := { withSyms [0x61] small with
  freqTab := [⟨0x61, 1, 0⟩], nodeTab := [⟨.leaf, 1, 0x61, none, none⟩, ⟨.root, 1, 0, none, some 0⟩], nsym := 1, encN := 1,
  nnodes := 2, phase := .tree }
/-- After CODEGEN (V-CODE-1). -/
def coded : State := { treed with codeTab := abraCodes, maxLen := 3, phase := .coded }
/-- After PARSE of V-PACK-2 (V-PARSE-1). -/
def parsed : State := { withBytes abBytes small with
  codeTab := [⟨0x61, [true]⟩, ⟨0x62, [false]⟩], nsym := 2, maxLen := 1, payStart := 6, payEnd := 7, phase := .parsed }
/-- After COMPRESS of "ab" (PROG-1). -/
def packed : State := after (exec .compress (withSyms ab small))
/-- After DECOMPRESS of V-PACK-2. -/
def decoded : State := after (exec .decompress (withBytes abBytes small))
/-- A command word is pending. -/
def pending (w : Word) (s : State) : State := accept w s

/-- An outcome that completes is a next state. -/
theorem next_of_completes {o : Host.Outcome State Fault Refusal} (h : completes o = true) : ∃ t, o = .next t := by
  cases o <;> first | exact ⟨_, rfl⟩ | cases h

/-- An outcome that completes is its `after`. -/
theorem eq_after {o : Host.Outcome State Fault Refusal} (h : completes o = true) : o = .next (after o) := by
  cases o <;> first | rfl | cases h

/-- A fact about every element of a list, by checking the list. -/
theorem forall_of_all {α : Type} {p : α → Prop} [DecidablePred p] {l : List α} (h : l.all (fun x => decide (p x)) = true) :
    ∀ x ∈ l, p x := by simpa using h

/-- An element of a list with a property, by checking the list. -/
theorem exists_of_any {α : Type} {p : α → Prop} [DecidablePred p] {l : List α} (h : l.any (fun x => decide (p x)) = true) :
    ∃ x ∈ l, p x := by simpa using h

/-- `withSyms` makes SYM_IN read as the list. -/
theorem symbols_withSyms (xs : List Word) (s : State) (h : xs.length < 2 ^ 32) :
    (withSyms xs s).symbols (withSyms xs s).inLen.toNat = some xs := by
  have e : (withSyms xs s).inLen.toNat = xs.length := by simp [withSyms]; omega
  rw [e, State.symbols_eq_some]
  refine ⟨rfl, fun k hk => ?_⟩
  simp only [State.symIn, withSyms]
  rw [Memory.readWord_writeWords _ _ _ _ hk, List.getElem?_eq_getElem hk]

/-! ### WellFormed refuses ill-formed terms -/

/-- R122: RSVD bit 8 set beside OP = FREQ (V-CTRL-1). -/
theorem test_rsvd_set_refused : rsvdClear 0x00000101 = false ∧ opListed 0x00000101 = true ∧ legalWord 0x00000101 = false := by decide
/-- R122: RSVD bit 31 set beside OP = COMPRESS (V-CTRL-1). -/
theorem test_rsvd_top_bit_refused : rsvdClear 0x80000008 = false ∧ legalWord 0x80000008 = false := by decide
/-- R124: reserved OP values (V-CTRL-1). -/
theorem test_reserved_op_refused :
    opListed 0x00000000 = false ∧ opListed 0x00000006 = false ∧ opListed 0x000000FF = false ∧ legalWord 0x00000006 = false := by decide
/-- R7: SYM_CAP is 1 to 2^18. -/
theorem test_symCap_refused : symCapOk 0 = false ∧ symCapOk 262145 = false ∧ capsOk 0 3 = false ∧ symCapOk 262144 = true := by decide
/-- R7: BYTE_CAP is 3 to 2^20. -/
theorem test_byteCap_refused : byteCapOk 2 = false ∧ byteCapOk 1048577 = false ∧ capsOk 1 2 = false ∧ byteCapOk 1048576 = true := by
  decide
/-- R121: a command has no operand, so every term is well formed. -/
theorem test_commands_wf : ∀ i ∈ [Instr.freq, .sort, .build, .codegen, .pack, .compress, .parse, .matchCodes, .decompress, .clear],
    i.wf = true := by decide

/-! ### Decoding: words written bit by bit from R120 and R123 -/

theorem test_decode_freq : decode 0b00000000000000000000000000000001#32 = .command .freq := by decide
theorem test_decode_sort : decode 0b00000000000000000000000000000010#32 = .command .sort := by decide
theorem test_decode_build : decode 0b00000000000000000000000000000011#32 = .command .build := by decide
theorem test_decode_codegen : decode 0b00000000000000000000000000000100#32 = .command .codegen := by decide
theorem test_decode_pack : decode 0b00000000000000000000000000000101#32 = .command .pack := by decide
theorem test_decode_compress : decode 0b00000000000000000000000000001000#32 = .command .compress := by decide
theorem test_decode_parse : decode 0b00000000000000000000000000010001#32 = .command .parse := by decide
theorem test_decode_match : decode 0b00000000000000000000000000010010#32 = .command .matchCodes := by decide
theorem test_decode_decompress : decode 0b00000000000000000000000000011000#32 = .command .decompress := by decide
theorem test_decode_clear : decode 0b00000000000000000000000001111111#32 = .command .clear := by decide
/-- The table's bit numbers are the word's; a bit above the row's 32 is none of the command's. -/
theorem test_decodeTableWord : decodeTableWord 32 0x7F = some .clear ∧ decodeTableWord 8 0x18 = some .decompress ∧
    decodeTableWord 32 0x101 = none ∧ decodeTableWord 40 0x100000001 = none := by decide

/-! ### One step of each command -/

/-- V-FREQ-1. -/
theorem test_freq_abracadabra : (after (exec .freq (withSyms abra small))).freqTab = abraRecords ∧
    results (after (exec .freq (withSyms abra small))) = [0, 5, 0, 0, 0, 0, 11, 0, 1] := by decide +kernel
/-- V-FREQ-3: 0x7F is mode 0, 0x80 mode 1, 0x100 mode 2, 0x10000 mode 3, 0x1000000 UNKNOWN_MODE. -/
theorem test_freq_modes : [0x7F, 0x80, 0xFF, 0x100, 0xFFFF, 0x10000, 0xFFFFFF].map
      (fun x => (after (exec .freq (withSyms [x] small))).mode) = [0, 1, 1, 2, 2, 3, 3] ∧
    (after (exec .freq (withSyms [0x1000000] small))).status.word = 0x00000506 := by decide +kernel

/-- V-SORT-1: "abbccc". -/
theorem test_sort_abbccc : (after (exec .sort { small with
      freqTab := [⟨0x61, 1, 0⟩, ⟨0x62, 2, 1⟩, ⟨0x63, 3, 3⟩], nsym := 3, encN := 6, phase := .counted })).freqTab =
    [⟨0x63, 3, 3⟩, ⟨0x62, 2, 1⟩, ⟨0x61, 1, 0⟩] := by decide +kernel
/-- V-SORT-3, V-SORT-2: SEQUENCE after reset; "baab" stays as it is. -/
theorem test_sort_sequence_and_ties : (after (exec .sort small)).status.word = 0x00000C06 ∧
    (after (exec .sort { small with freqTab := [⟨0x62, 2, 0⟩, ⟨0x61, 2, 1⟩], nsym := 2, encN := 4, phase := .counted })).freqTab =
      [⟨0x62, 2, 0⟩, ⟨0x61, 2, 1⟩] := by decide +kernel

/-- V-TREE-1. -/
theorem test_build_abracadabra : (after (exec .build sorted)).nodeTab = abraNodes ∧ (after (exec .build sorted)).nnodes = 9 := by
  decide +kernel
/-- V-TREE-4: "aabbcd"; the words of nodes 4, 5 and 6. -/
theorem test_build_tie : (let t := after (exec .build { small with
      freqTab := [⟨0x61, 2, 0⟩, ⟨0x62, 2, 2⟩, ⟨0x63, 1, 4⟩, ⟨0x64, 1, 5⟩], nsym := 4, encN := 6, phase := .sorted })
    (t.nodeTab.drop 4).map fun n => [n.window 0, n.window 1, n.window 2, n.window 3]) =
    [[2, 2, 0x80000003, 0x80000002], [2, 4, 0x80000001, 0x80000000], [3, 6, 0x80000004, 0x80000005]] := by decide +kernel

/-- V-CODE-1. -/
theorem test_codegen_abracadabra : (after (exec .codegen treed)).codeTab = abraCodes ∧ (after (exec .codegen treed)).maxLen = 3 ∧
    ((after (exec .codegen treed)).codeTab.map fun e => [e.window 0, e.window 1, e.window 2, e.window 3]) =
      [[0x61, 1, 0, 0], [0x62, 3, 7, 0], [0x72, 3, 6, 0], [0x63, 3, 5, 0], [0x64, 3, 4, 0]] := by decide +kernel

/-- V-PACK-3. -/
theorem test_pack_abracadabra : outBytes 20 (after (exec .pack coded)) = abraBytes.map some ∧
    results (after (exec .pack coded)) = [20, 5, 3, 0, 0, 0, 11, 9, 5] := by decide +kernel
/-- V-PACK-16: SYM_IN changed to a symbol without a code. -/
theorem test_pack_unmatched : (after (exec .pack (withSyms [0x61, 0x65] coded))).status.word = 0x00000606 := by decide +kernel

/-- V-PACK-2 and PROG-1. -/
theorem test_compress_ab : outBytes 9 packed = abBytes.map some ∧ results packed = [9, 2, 1, 0, 0, 0, 2, 3, 5] ∧
    packed.status.word = 0x00000002 := by decide +kernel
/-- V-PACK-15: BYTE_CAP = 8. -/
theorem test_compress_overflow : (after (exec .compress (withSyms ab (State.resetWith 16 8)))).status.word = 0x00000A06 ∧
    results (after (exec .compress (withSyms ab (State.resetWith 16 8)))) = [0, 0, 0, 0, 0, 0, 0, 0, 0] := by decide +kernel

/-- V-PARSE-2. -/
theorem test_parse_abracadabra : (after (exec .parse (withBytes abraBytes small))).codeTab =
      [⟨0x62, [true, true, true]⟩, ⟨0x72, [true, true, false]⟩, ⟨0x63, [true, false, true]⟩, ⟨0x64, [true, false, false]⟩,
        ⟨0x61, [false]⟩] ∧
    results (after (exec .parse (withBytes abraBytes small))) = [0, 5, 3, 0, 15, 18, 0, 0, 8] := by decide +kernel
/-- V-PARSE-13: a 64-bit code. -/
theorem test_parse_64_bit_code : (let t := after (exec .parse (withBytes [0x61, 0x00, 0xFF, 0xFF, 0xFF, 0xFF, 0xFF, 0xFF, 0xFF, 0xFF,
      0x01, 0xFF, 0xFF, 0xFF, 0xFF, 0xFF, 0xFF, 0xFF, 0xFF, 0x01, 0xE0] small))
    (t.payStart, t.payEnd, t.codeTab.map fun e => [e.window 0, e.window 1, e.window 2, e.window 3])) =
    (10, 19, [[0x61, 64, 0xFFFFFFFF, 0xFFFFFFFF]]) := by decide +kernel

/-- V-MATCH-6: after V-PARSE-1, MATCH gives [a, b]. -/
theorem test_match_ab : outSyms 2 (after (exec .matchCodes parsed)) = [some 0x61, some 0x62] ∧
    results (after (exec .matchCodes parsed)) = [2, 2, 1, 0, 6, 7, 0, 0, 9] := by decide +kernel
/-- V-MATCH-1: no sentinel. -/
theorem test_match_no_sentinel :
    (after (exec .matchCodes { parsed with mem := Memory.write parsed.mem (byteInBase + 6) 0x00 })).status.word = 0x00000406 := by
  decide +kernel

/-- V-PARSE-4: mode 3. -/
theorem test_decompress_mode3 : outSyms 2 (after (exec .decompress (withBytes [0x01, 0xF6, 0x00, 0x07, 0x01, 0x00, 0x00, 0x41, 0x07,
    0x00, 0x06, 0x02, 0x07] small))) = [some 0x1F600, some 0x41] := by decide +kernel
/-- V-MATCH-5: SYM_CAP = 3. -/
theorem test_decompress_overflow : (after (exec .decompress (withBytes [0x61, 0x07, 0x01, 0x1F, 0x01, 0x04]
    (State.resetWith 3 32)))).status.word = 0x00000A06 := by decide +kernel

/-- V-CTRL-4: CLEAR after COMPRESS of "ab". -/
theorem test_clear : (let t := after (exec .clear packed);
    (t.status.word, results t, t.inLen, outBytes 9 t)) = (0x00000002, [0, 0, 0, 0, 0, 0, 0, 0, 0], 2, abBytes.map some) := by
  decide +kernel

/-! ### The bus -/

/-- V-CTRL-1: an illegal word fails with ILLEGAL_COMMAND. -/
theorem test_illegal_word : (after (step { pending 0x80000008 packed with host := [.engine] })).status.word = 0x00000D06 := by
  decide +kernel
/-- V-CTRL-5: at once, CMD and STATUS. -/
theorem test_overrun : (let t := after (step { pending 0x00000008 small with host := [w32 0x004 0x7F] });
    (t.cmd, t.status.word)) = (0x00000008, 0x00000009) := by decide +kernel
/-- V-CTRL-7: bus errors. -/
theorem test_bus_errors : [w8 0x004 1, w32 0x100002 1, r8 0x008].map (fun e => stopsIn (step { small with host := [e] })) =
    [some .busError, some .busError, some .busError] := by decide +kernel
/-- V-CTRL-8: a reserved word reads 0, and ID reads 0x48460100 (R33). -/
theorem test_reserved_and_id : (after (step { small with host := [r32 (0x100000 + 4 * 16)] })).lastRead = some 0 ∧
    (after (step { small with host := [r32 0] })).lastRead = some 0x48460100 := by decide +kernel
/-- PROG-1: little-endian lanes of BYTE_OUT. -/
theorem test_lanes : (after (step { packed with host := [r32 0x400000] })).lastRead = some 0x62010761 ∧
    (after (step { packed with host := [r8 0x400008] })).lastRead = some 0x04 := by decide +kernel

/-! ### Witnesses: for each statement with hypotheses, a state and operands that meet them all -/

theorem witness_StepRunsLatchedCommand :
    ((pending 0x01 small).status.busy = true ∧ decode (pending 0x01 small).cmd = .command .freq ∧
      engineMoves { pending 0x01 small with host := [.engine, r32 8] } [r32 8] ∧ engineMoves (pending 0x01 small) []) ∧
    (small.status.busy = false ∧ engineMoves { small with host := [.engine] } [] ∧ engineMoves small []) ∧
    decodeTableWord 32 0x12 = some .matchCodes :=
  ⟨⟨by decide +kernel, by decide +kernel, .inl rfl, .inr ⟨rfl, rfl⟩⟩, ⟨by decide +kernel, .inl rfl, .inr ⟨rfl, rfl⟩⟩, by decide +kernel⟩

theorem witness_IllegalCommandFailsAlone :
    ∀ w ∈ [(0x00000000 : Word), 0x00000006, 0x000000FF, 0x00000101, 0x80000008], (pending w packed).status.busy = true ∧
      illegalWord (pending w packed).cmd ∧ engineMoves { pending w packed with host := [.engine] } [] := by
  unfold illegalWord
  exact fun w hw => ⟨rfl, forall_of_all (p := fun w : Word => w.toNat / 256 ≠ 0 ∨ w.toNat % 256 ∉ opNumbers) (by decide +kernel) w hw,
    .inl rfl⟩

theorem witness_PhasePrerequisites :
    (small.phase ∉ prerequisite .sort ∧ packed.phase ∉ prerequisite .matchCodes ∧ decoded.phase ∉ prerequisite .pack) ∧
    ((counted.phase ∈ prerequisite .sort ∧ ∃ t, exec .sort counted = .next t) ∧
      (packed.phase ∈ prerequisite .pack ∧ ∃ t, exec .pack packed = .next t) ∧
      (decoded.phase ∈ prerequisite .matchCodes ∧ ∃ t, exec .matchCodes decoded = .next t)) := by
  exact ⟨by decide +kernel, ⟨by decide +kernel, next_of_completes (by decide +kernel)⟩,
    ⟨by decide +kernel, next_of_completes (by decide +kernel)⟩, by decide +kernel, next_of_completes (by decide +kernel)⟩

theorem witness_CommandAcceptance :
    ({ packed with host := [w32 0x004 0x80000008] } : State).status.busy = false ∧
    ({ packed with host := [w32 0x004 0x80000008] } : State).host = .write .w32 0x004 0x80000008 :: [] :=
  ⟨by decide +kernel, rfl⟩

theorem witness_CommandDroppedWhileBusy :
    ((pending 0x08 small).status.busy = true ∧
      ({ pending 0x08 small with host := [w32 0x004 0x7F] } : State).host = .write .w32 0x004 0x7F :: []) ∧
    (∃ t, engineTurn (pending 0x08 (withSyms ab small)) = .next t) ∧
    engineTurn { pending 0x08 small with inLen := 1 } = .fault .unwrittenInput :=
  ⟨⟨rfl, rfl⟩, next_of_completes (by decide +kernel), rfl⟩

theorem witness_ResetDiscardsPendingCommand :
    ({ pending 0x08 packed with host := [.reset, .engine] } : State).host = .reset :: [.engine] := rfl

theorem witness_ResetValues : small = State.resetWith 16 32 := rfl

theorem witness_BusErrorsExactly :
    capsOk small.symCap small.byteCap = true ∧
    ({ small with host := [r32 0x7FFFFC] } : State).host = .read .w32 0x7FFFFC :: [] ∧ permitted small .w32 0x7FFFFC ∧
    ({ small with host := [r8 0x300020] } : State).host = .read .w8 0x300020 :: [] ∧ ¬ permitted small .w8 0x300020 ∧
    ({ small with host := [w8 0x30001F 1] } : State).host = .write .w8 0x30001F 1 :: [] ∧ permitted small .w8 0x30001F ∧
    ({ small with host := [w32 0x100002 1] } : State).host = .write .w32 0x100002 1 :: [] ∧ ¬ permitted small .w32 0x100002 := by
  unfold permitted; exact ⟨by decide +kernel, rfl, by decide +kernel, rfl, by decide +kernel, rfl, by decide +kernel, rfl, by decide +kernel⟩

theorem witness_InputWritesWhileBusyFault :
    capsOk small.symCap small.byteCap = true ∧ (pending 0x08 small).status.busy = true ∧ small.status.busy = false ∧
    (∀ a ∈ [(0x000010 : Addr), 0x100000, 0x10003C, 0x300000, 0x30001C], permitted small .w32 a ∧ inputAddr small a.toNat) ∧
    (permitted small .w8 0x30001F ∧ inputAddr small 0x30001F) ∧
    (∀ a ∈ [(0x000004 : Addr), 0x00000C, 0x000014, 0x100040, 0x200000, 0x300020, 0x400000],
      permitted small .w32 a ∧ ¬ inputAddr small a.toNat) ∧
    ({ small with host := [w32 0x10 5] } : State).host = .write .w32 0x000010 5 :: [] := by
  unfold permitted inputAddr; exact ⟨by decide +kernel, rfl, rfl, forall_of_all (by decide +kernel), by decide +kernel,
    forall_of_all (by decide +kernel), rfl⟩

theorem witness_CsrReadsReturnRegisters :
    (({ small with host := [r32 0x000] } : State).host = r32 0x000 :: [] ∧ (0x000, 0x48460100) ∈ csrAlways small) ∧
    (({ small with host := [r32 0x034] } : State).host = r32 0x034 :: [] ∧ (0x034, 32) ∈ csrAlways small) ∧
    (({ packed with host := [r32 0x038] } : State).host = r32 0x038 :: [] ∧ (0x038, 3) ∈ csrResults packed ∧
      packed.status.busy = false) ∧
    (({ packed with host := [r32 0x00C] } : State).host = r32 0x00C :: [] ∧
      (Phase.packed, (5 : Word)) ∈ [(Phase.idle, (0 : Word)), (.counted, 1), (.sorted, 2), (.tree, 3), (.coded, 4), (.packed, 5),
        (.parsed, 8), (.decoded, 9)] ∧ packed.phase = .packed ∧ decoded.phase = .decoded ∧ decoded.status.busy = false) :=
  ⟨⟨rfl, by decide +kernel⟩, ⟨rfl, by decide +kernel⟩, ⟨rfl, by decide +kernel, by decide +kernel⟩, ⟨rfl, by decide +kernel⟩⟩

theorem witness_StatusWordLayout : ({ pending 0x08 small with host := [r32 8] } : State).host = r32 0x008 :: [] := rfl

theorem witness_ReadsWhileBusy :
    capsOk (pending 0x08 small).symCap (pending 0x08 small).byteCap = true ∧ (pending 0x08 small).status.busy = true ∧
    (∀ a ∈ [0x001000, 0x0017FC, 0x002000, 0x004FFC, 0x200000, 0x20003C, 0x400000, 0x40001C, 0x100000, 0x10003C, 0x300000, 0x30001C],
      a % 4 = 0 ∧ a < 0x800000) ∧
    ((0x00C, 0) ∈ csrResults (pending 0x08 small) ∧ within 0x0017FC 0x001000 0x001800 ∧ within 0x004FFC 0x002000 0x005000 ∧
      within 0x20003C 0x200000 (0x200000 + 4 * small.symCap)) ∧
    within 0x40001C 0x400000 (0x400000 + small.byteCap) ∧
    (within 0x10003C 0x100000 (0x100000 + 4 * small.symCap) ∧ within 0x30001C 0x300000 (0x300000 + small.byteCap)) ∧
    ({ pending 0x08 small with host := [r32 0x40001C] } : State).host = r32 0x40001C :: [] ∧
    (({ pending 0x08 small with host := [r8 0x40001F] } : State).host = r8 0x40001F :: [] ∧
      within 0x40001F 0x400000 (0x400000 + small.byteCap)) ∧
    ({ pending 0x08 small with host := [r8 0x30001F] } : State).host = r8 0x30001F :: [] ∧
      within 0x30001F 0x300000 (0x300000 + small.byteCap) := by
  exact ⟨by decide +kernel, rfl, by decide +kernel, by decide +kernel, by decide +kernel, by decide +kernel, rfl,
    ⟨rfl, by decide +kernel⟩, rfl, by decide +kernel⟩

theorem witness_ReservedSpaceReadsZero :
    capsOk small.symCap small.byteCap = true ∧
    (∀ a ∈ [0x00003C, 0x000FFC, 0x001800, 0x001FFC, 0x005000, 0x0FFFFC, 0x100040, 0x200040, 0x300020, 0x400020, 0x500000, 0x7FFFFC],
      a % 4 = 0 ∧ a < 0x800000 ∧ reservedAddr small a) ∧
    ({ small with host := [r32 0x00003C] } : State).host = r32 0x00003C :: [] ∧
    ({ small with host := [w32 0x7FFFFC 9] } : State).host = .write .w32 (BitVec.ofNat 23 0x7FFFFC) 9 :: [] := by
  unfold reservedAddr; exact ⟨by decide +kernel, by decide +kernel, rfl, rfl⟩

theorem witness_ReadOnlyTargetsIgnoreWrites :
    capsOk packed.symCap packed.byteCap = true ∧
    (∀ a ∈ [(0x000000 : Addr), 0x000008, 0x000038, 0x001000, 0x0017FC, 0x002000, 0x004FFC, 0x200000, 0x20003C, 0x400000, 0x40001C],
      permitted packed .w32 a ∧ readOnlyAddr packed a.toNat) ∧
    (permitted packed .w8 0x40001F ∧ readOnlyAddr packed 0x40001F) ∧
    ({ packed with host := [w32 0x400000 9] } : State).host = .write .w32 0x400000 9 :: [] := by
  unfold permitted readOnlyAddr; exact ⟨by decide +kernel, forall_of_all (by decide +kernel), by decide +kernel, rfl⟩

theorem witness_ReadsHaveNoSideEffect :
    (({ packed with host := [r8 0x400000] } : State).host = .read .w8 0x400000 :: [] ∧
      ∃ t, step { packed with host := [r8 0x400000] } = .next t) ∧
    (({ packed with host := [w32 0x10 3] } : State).host = .write .w32 0x000010 3 :: [] ∧ (0x000010 : Addr) ≠ 0x004 ∧
      ∃ t, step { packed with host := [w32 0x10 3] } = .next t) :=
  ⟨⟨rfl, next_of_completes (by decide +kernel)⟩, ⟨rfl, by decide +kernel, next_of_completes (by decide +kernel)⟩⟩

theorem witness_InputWordsReadBack :
    capsOk small.symCap small.byteCap = true ∧ small.status.busy = false ∧
    ({ small with host := [w32 0x10 0xFFFFFFFF] } : State).host = .write .w32 0x010 0xFFFFFFFF :: [] ∧ 15 < small.symCap ∧
    ({ small with host := [w32 0x10003C 7] } : State).host = .write .w32 (BitVec.ofNat 23 (0x100000 + 4 * 15)) 7 :: [] ∧
    ({ small with host := [r32 0x10003C] } : State).host = r32 (0x100000 + 4 * 15) :: [] ∧
    ({ small with host := [r32 0x20003C] } : State).host = r32 (0x200000 + 4 * 15) :: [] :=
  ⟨by decide +kernel, rfl, rfl, by decide +kernel, rfl, rfl, rfl⟩

theorem witness_HostByteLanes :
    (capsOk small.symCap small.byteCap = true ∧ small.status.busy = false ∧ 4 * 7 < small.byteCap ∧
      ({ small with host := [w32 0x30001C 7] } : State).host = .write .w32 (BitVec.ofNat 23 (0x300000 + 4 * 7)) 7 :: []) ∧
    (31 < small.byteCap ∧
      ({ small with host := [w8 0x30001F 7] } : State).host = .write .w8 (BitVec.ofNat 23 (0x300000 + 31)) 7 :: []) ∧
    (capsOk packed.symCap packed.byteCap = true ∧ packed.status.busy = false ∧ 4 * 2 < packed.byteCap ∧
      ({ packed with host := [r32 0x400008] } : State).host = r32 (0x400000 + 4 * 2) :: [] ∧
      8 < packed.byteCap ∧ Memory.read packed.mem (0x400000 + 8) = some 0x04 ∧
      ({ packed with host := [r8 0x400008] } : State).host = r8 (0x400000 + 8) :: []) ∧
    (capsOk 16 30 = true ∧ 30 ≤ 4 * 7 + 2) := by
  exact ⟨⟨by decide +kernel, rfl, by decide +kernel, rfl⟩, ⟨by decide +kernel, rfl⟩,
    ⟨by decide +kernel, by decide +kernel, by decide +kernel, rfl, by decide +kernel, by decide +kernel, rfl⟩, by decide +kernel⟩

theorem witness_TableWindows :
    (packed.status.busy = false ∧ small.status.busy = false) ∧
    (({ packed with host := [r32 0x00100C] } : State).host = r32 (0x001000 + 8 * 1 + 4 * 1) :: [] ∧
      packed.phase ∈ [Phase.counted, .sorted, .tree, .coded, .packed] ∧ 1 < packed.nsym.toNat ∧
      packed.freqTab[1]? = some ⟨0x62, 1, 1⟩ ∧ small.phase ∉ [Phase.counted, .sorted, .tree, .coded, .packed] ∧
      packed.nsym.toNat ≤ 2) ∧
    (({ packed with host := [r32 0x00202C] } : State).host = r32 (0x002000 + 16 * 2 + 4 * 3) :: [] ∧
      packed.phase ∈ [Phase.tree, .coded, .packed] ∧ 2 < packed.nnodes.toNat ∧
      packed.nodeTab[2]? = some ⟨.root, 2, 0, some 1, some 0⟩ ∧ small.phase ∉ [Phase.tree, .coded, .packed] ∧
      packed.nnodes.toNat ≤ 3 ∧
      packed.nodeTab[0]? = some ⟨.leaf, 1, 0x61, none, none⟩ ∧
      (({ treed1 with host := [r32 0x00201C] } : State).host = r32 (0x002000 + 16 * 1 + 4 * 3) :: [] ∧
        treed1.status.busy = false ∧ treed1.phase = .tree ∧ 1 < treed1.nnodes.toNat ∧
        treed1.nodeTab[1]? = some ⟨.root, 1, 0, none, some 0⟩) ∧
      (({ treed with host := [r32 0x002050] } : State).host = r32 (0x002000 + 16 * 5 + 4 * 0) :: [] ∧
        treed.status.busy = false ∧ treed.phase = .tree ∧ 5 < treed.nnodes.toNat ∧
        treed.nodeTab[5]? = some ⟨.internal, 2, 0, some 4, some 3⟩) ∧
      (({ treed1 with nodeTab := [⟨.empty, 0, 0, none, none⟩] } : State).nodeTab[0]? = some ⟨.empty, 0, 0, none, none⟩)) ∧
    (({ packed with host := [r32 0x00401C] } : State).host = r32 (0x004000 + 16 * 1 + 4 * 3) :: [] ∧
      packed.phase ∈ [Phase.coded, .packed, .parsed, .decoded] ∧ 1 < packed.nsym.toNat ∧
      packed.codeTab[1]? = some ⟨0x62, [false]⟩ ∧ small.phase ∉ [Phase.coded, .packed, .parsed, .decoded] ∧
      packed.nsym.toNat ≤ 255) := by
  exact ⟨by decide +kernel, ⟨rfl, by decide +kernel⟩, ⟨rfl, by decide +kernel⟩, ⟨rfl, by decide +kernel⟩⟩

theorem witness_CodeWindowHoldsCode :
    (⟨0x61, List.replicate 64 true⟩ : CodeEntry).code.length ≤ 64 ∧ (⟨0x61, [true]⟩ : CodeEntry).code.length ≤ 64 := by decide +kernel

theorem witness_FreqCountsSymbols :
    capsOk (withSyms abra small).symCap (withSyms abra small).byteCap = true ∧ 1 ≤ (withSyms abra small).inLen.toNat ∧
    (withSyms abra small).inLen.toNat ≤ (withSyms abra small).symCap ∧
    (withSyms abra small).symbols (withSyms abra small).inLen.toNat = some abra ∧ (∀ x ∈ abra, x.toNat ≤ 0xFFFFFF) ∧
    abra.dedup.length ≤ 255 :=
  ⟨by decide +kernel, by decide +kernel, by decide +kernel, by decide +kernel, forall_of_all (by decide +kernel), by decide +kernel⟩

/-- 0 to 255. -/
def distinct256 : List Word := (List.range 256).map (BitVec.ofNat 32)

theorem witness_FreqErrorsInOrder :
    ({ small with inLen := 17 } : State).symCap < ({ small with inLen := 17 } : State).inLen.toNat ∧
    (small.inLen.toNat ≤ small.symCap ∧ small.inLen = 0) ∧
    (1 ≤ (withSyms [0, 0x1000000] small).inLen.toNat ∧
      (withSyms [0, 0x1000000] small).inLen.toNat ≤ (withSyms [0, 0x1000000] small).symCap ∧
      (withSyms [0, 0x1000000] small).symbols (withSyms [0, 0x1000000] small).inLen.toNat = some [0, 0x1000000] ∧
      ∃ x ∈ [(0 : Word), 0x1000000], 0xFFFFFF < x.toNat) ∧
    (1 ≤ (withSyms distinct256 State.reset).inLen.toNat ∧
      (withSyms distinct256 State.reset).inLen.toNat ≤ (withSyms distinct256 State.reset).symCap ∧
      (withSyms distinct256 State.reset).symbols (withSyms distinct256 State.reset).inLen.toNat = some distinct256 ∧
      (∀ x ∈ distinct256, x.toNat ≤ 0xFFFFFF) ∧ 255 < distinct256.dedup.length) := by
  refine ⟨by decide +kernel, ⟨by decide +kernel, rfl⟩,
    ⟨by decide +kernel, by decide +kernel, by decide +kernel, exists_of_any (by decide +kernel)⟩,
    by decide +kernel, by decide +kernel, symbols_withSyms distinct256 State.reset (by decide +kernel), ?_, ?_⟩
  · exact List.forall_mem_map.mpr fun n hn => by have := List.mem_range.mp hn; simp; omega
  · have h : distinct256.Nodup := List.nodup_range.map_on fun a ha b hb e => by
      have := List.mem_range.mp ha
      have := List.mem_range.mp hb
      have := congrArg BitVec.toNat e
      simp at this; omega
    rw [List.dedup_eq_self.mpr h]; decide +kernel

theorem witness_FreqSelectsSmallestMode :
    (withSyms [0x41, 0x100] small).symbols (withSyms [0x41, 0x100] small).inLen.toNat = some [0x41, 0x100] ∧
    ∃ t, exec .freq (withSyms [0x41, 0x100] small) = .next t ∧ t.status.err = false :=
  ⟨by decide +kernel, _, eq_after (by decide +kernel), by decide +kernel⟩

theorem witness_SortOrdersByCount : counted.phase = .counted ∧ small.phase ≠ .counted := ⟨rfl, by decide⟩

theorem witness_SortIsRepeatedExtraction : counted.phase = .counted ∧ ∃ t, exec .sort counted = .next t := ⟨rfl, next_of_completes (by decide +kernel)⟩

theorem witness_BuildMakesTree :
    (sorted.phase = .sorted ∧ 5 = sorted.nsym.toNat ∧ 1 ≤ 5 ∧ 5 ≤ sorted.freqTab.length) ∧
    (let s : State := { small with freqTab := [⟨0x61, 1, 0⟩], nsym := 1, encN := 1, phase := .sorted };
      s.phase = .sorted ∧ 1 = s.nsym.toNat ∧ 1 ≤ 1 ∧ 1 ≤ s.freqTab.length) := by decide +kernel

theorem witness_BuildNodesOwnChildren :
    sorted.phase = .sorted ∧ 1 ≤ sorted.nsym.toNat ∧ sorted.nsym.toNat ≤ sorted.freqTab.length ∧
    ∃ t, exec .build sorted = .next t := ⟨rfl, by decide +kernel, by decide +kernel, next_of_completes (by decide +kernel)⟩

theorem witness_QueueInsertionPoint :
    ([⟨0, 5⟩, ⟨1, 2⟩, ⟨2, 2⟩] : List QEntry).Pairwise (fun a b => b.freq.toNat ≤ a.freq.toNat) := by decide +kernel

theorem witness_MergeTakesTail :
    ([⟨0, 5⟩] : List QEntry) ≠ [] ∧ ([⟨0, 5⟩, ⟨1, 2⟩] : List QEntry).length < 3 := by decide +kernel

/-- 66 records whose 32-bit sums make a chain; no run reaches this state (R211). -/
def chainRecords : List FreqRecord := List.replicate 66 ⟨0x61, 0xFFFFFFFF, 0⟩

/-- The tree of `chainRecords`. -/
def chain : State := { small with
  freqTab := chainRecords, nodeTab := buildNodes chainRecords, nsym := 66, nnodes := 131, phase := .tree }

theorem witness_CodegenAssignsPaths :
    (treed.phase = .tree ∧ 1 ≤ treed.nsym.toNat ∧ treed.freqTab.length = treed.nsym.toNat ∧
      treed.nodeTab = buildNodes treed.freqTab ∧ treed.nnodes.toNat = treed.nodeTab.length ∧
      ∀ e ∈ treed.codeTable, e.code.length ≤ 63) ∧
    (treed1.phase = .tree ∧ 1 ≤ treed1.nsym.toNat ∧ treed1.freqTab.length = treed1.nsym.toNat ∧
      treed1.nodeTab = buildNodes treed1.freqTab ∧ treed1.nnodes.toNat = treed1.nodeTab.length ∧
      ∀ e ∈ treed1.codeTable, e.code.length ≤ 63) ∧
    (chain.phase = .tree ∧ 1 ≤ chain.nsym.toNat ∧ chain.freqTab.length = chain.nsym.toNat ∧
      chain.nodeTab = buildNodes chain.freqTab ∧ chain.nnodes.toNat = chain.nodeTab.length ∧
      ∃ e ∈ chain.codeTable, 63 < e.code.length) := by decide +kernel

/-- The whole invariant in a form `decide` evaluates. -/
theorem inv_of {s : State} (h1 : capsOk s.symCap s.byteCap = true) (h2 : s.statusInv) (h3 : s.resultsInv) (h4 : s.tablesInv)
    (h5 : s.memoryInv) (h6 : s.buffersInv) : s.Inv := ⟨h1, h2, h3, h4, h5, h6⟩

theorem inv_packed : packed.Inv := by
  apply inv_of
  · decide +kernel
  · unfold State.statusInv; decide +kernel
  · unfold State.resultsInv Phase.encoding Phase.decoding; decide +kernel
  · unfold State.tablesInv Phase.encoding Phase.decoding; decide +kernel
  · unfold State.memoryInv bufferAddr; decide +kernel
  · unfold State.buffersInv Phase.encoding Phase.decoding; decide +kernel

theorem inv_decoded : decoded.Inv := by
  apply inv_of
  · decide +kernel
  · unfold State.statusInv; decide +kernel
  · unfold State.resultsInv Phase.encoding Phase.decoding; decide +kernel
  · unfold State.tablesInv Phase.encoding Phase.decoding; decide +kernel
  · unfold State.memoryInv bufferAddr; decide +kernel
  · unfold State.buffersInv Phase.encoding Phase.decoding; decide +kernel

theorem inv_treed : treed.Inv := by
  apply inv_of
  · decide +kernel
  · unfold State.statusInv; decide +kernel
  · unfold State.resultsInv Phase.encoding Phase.decoding; decide +kernel
  · unfold State.tablesInv Phase.encoding Phase.decoding; decide +kernel
  · unfold State.memoryInv bufferAddr; decide +kernel
  · unfold State.buffersInv Phase.encoding Phase.decoding; decide +kernel

/-- After CODEGEN of "a" (V-CODE-2). -/
def coded1 : State := { treed1 with codeTab := [⟨0x61, [true]⟩], maxLen := 1, phase := .coded }

theorem inv_coded1 : coded1.Inv := by
  apply inv_of
  · decide +kernel
  · unfold State.statusInv; decide +kernel
  · unfold State.resultsInv Phase.encoding Phase.decoding; decide +kernel
  · unfold State.tablesInv Phase.encoding Phase.decoding; decide +kernel
  · unfold State.memoryInv bufferAddr; decide +kernel
  · unfold State.buffersInv Phase.encoding Phase.decoding; decide +kernel

theorem witness_CodesArePrefixFree :
    (packed.Inv ∧ (packed.phase = .coded ∨ packed.phase = .packed) ∧ packed.codeTab[0]? = some ⟨0x61, [true]⟩ ∧
      packed.codeTab[1]? = some ⟨0x62, [false]⟩ ∧ 0 ≠ 1) ∧
    (coded1.Inv ∧ (coded1.phase = .coded ∨ coded1.phase = .packed) ∧ coded1.nsym = 1) :=
  ⟨⟨inv_packed, by decide +kernel, by decide +kernel, by decide +kernel, by decide +kernel⟩, inv_coded1, .inl rfl, rfl⟩

theorem witness_CodeLengthOverflowUnreachable : treed.Inv ∧ treed.phase = .tree := ⟨inv_treed, rfl⟩

theorem witness_PackWritesContainer :
    ∃ cs, capsOk coded.symCap coded.byteCap = true ∧ (coded.phase = .coded ∨ coded.phase = .packed) ∧
    coded.nsym.toNat ≤ coded.codeTab.length ∧ (∀ e ∈ coded.codes, 1 ≤ e.code.length ∧ e.code.length ≤ coded.maxLen.toNat) ∧
    coded.symbols coded.encN.toNat = some abra ∧ abra.mapM (codeFor coded.codes) = some cs ∧
    20 = coded.nsym.toNat * (charBytes coded.mode + 1 + codeSlotBits coded.maxLen.toNat / 8) +
      (1 + cs.flatten.length + fillerBits cs.flatten.length) / 8 + 2 ∧ 20 ≤ coded.byteCap := by
  refine ⟨(abra.mapM (codeFor coded.codes)).getD [], ?_⟩
  decide +kernel

theorem witness_PackErrorsInOrder :
    (let s := withSyms [0x61, 0x65] { coded with encN := 2 };
      (s.phase = .coded ∨ s.phase = .packed) ∧ s.symbols s.encN.toNat = some [0x61, 0x65] ∧
      ∃ x ∈ [(0x61 : Word), 0x65], codeFor s.codes x = none) ∧
    (let s := { coded with byteCap := 19 };
      (s.phase = .coded ∨ s.phase = .packed) ∧ s.symbols s.encN.toNat = some abra ∧
      ∃ cs, abra.mapM (codeFor s.codes) = some cs ∧ s.byteCap < (containerOf s.nsym s.maxLen s.mode s.codes cs).length) := by
  exact ⟨⟨by decide +kernel, by decide +kernel, exists_of_any (by decide +kernel)⟩, by decide +kernel, by decide +kernel,
    (abra.mapM (codeFor coded.codes)).getD [], by decide +kernel⟩

theorem witness_PackLooksUpFullWord : 0xFFFFFF < (0x1000061 : Word).toNat ∧ 0xFFFFFF < (0x1000000 : Word).toNat := by decide +kernel

theorem witness_CompressCompletes :
    ∃ cs out, capsOk (withSyms ab small).symCap (withSyms ab small).byteCap = true ∧ 1 ≤ (withSyms ab small).inLen.toNat ∧
    (withSyms ab small).inLen.toNat ≤ (withSyms ab small).symCap ∧
    (withSyms ab small).symbols (withSyms ab small).inLen.toNat = some ab ∧ (∀ x ∈ ab, x.toNat ≤ 0xFFFFFF) ∧
    ab.dedup.length ≤ 255 ∧ (∀ e ∈ huffmanTable ab, e.code.length ≤ 63) ∧ ab.mapM (codeFor (huffmanTable ab)) = some cs ∧
    out = containerOf (BitVec.ofNat 8 (huffmanTable ab).length) (BitVec.ofNat 6 (maxLength (huffmanTable ab))) (selectMode ab)
      (huffmanTable ab) cs ∧ out.length ≤ (withSyms ab small).byteCap := by
  refine ⟨(ab.mapM (codeFor (huffmanTable ab))).getD [], abBytes, by decide +kernel, by decide +kernel, by decide +kernel,
    by decide +kernel, forall_of_all (by decide +kernel), by decide +kernel, by decide +kernel, by decide +kernel, by decide +kernel,
    by decide +kernel⟩

theorem witness_ParseReadsHeader :
    (let s := withBytes abBytes small;
      capsOk s.symCap s.byteCap = true ∧ 2 ≤ s.inLen.toNat ∧ s.inLen.toNat ≤ s.byteCap ∧
      s.inputBytes 0 s.inLen.toNat = some ([0x61, 0x07, 0x01, 0x62, 0x07, 0x00, 0x06] ++ [0x02, 0x04]) ∧
      8 = 8 * [1, 1, 2, 3].getD ((0x04 : Byte).toNat % 4) 0 ∧ 8 = 8 * ((0x04 : Byte).toNat / 4 / 8 + 1) ∧
      ∀ k < (0x02 : Byte).toNat, entryGood (bits [0x61, 0x07, 0x01, 0x62, 0x07, 0x00, 0x06]) 8 8 k) ∧
    (let s := withBytes [0x00, 0x04] small;
      2 ≤ s.inLen.toNat ∧ s.inLen.toNat ≤ s.byteCap ∧ s.inputBytes 0 s.inLen.toNat = some ([] ++ [0x00, 0x04]) ∧
      ∀ k < (0x00 : Byte).toNat, entryGood (bits []) 8 8 k) := by
  unfold entryGood; decide +kernel

theorem witness_ParseErrorsInOrder :
    ({ small with inLen := 33 } : State).byteCap < ({ small with inLen := 33 } : State).inLen.toNat ∧
    (small.inLen.toNat ≤ small.byteCap ∧ small.inLen.toNat < 2) ∧
    (let s := withBytes [0x61, 0x07, 0x01, 0x62, 0x02, 0x04] small;
      2 ≤ s.inLen.toNat ∧ s.inLen.toNat ≤ s.byteCap ∧
      s.inputBytes 0 s.inLen.toNat = some ([0x61, 0x07, 0x01, 0x62] ++ [0x02, 0x04]) ∧ 1 < (0x02 : Byte).toNat ∧
      (∀ j < 1, entryGood (bits [0x61, 0x07, 0x01, 0x62]) 8 8 j) ∧ (bits [0x61, 0x07, 0x01, 0x62]).length < (1 + 1) * (8 + 8 + 8)) ∧
    (let s := withBytes [0x61, 0x08, 0x01, 0x01, 0x04] small;
      2 ≤ s.inLen.toNat ∧ s.inLen.toNat ≤ s.byteCap ∧
      s.inputBytes 0 s.inLen.toNat = some ([0x61, 0x08, 0x01] ++ [0x01, 0x04]) ∧ 0 < (0x01 : Byte).toNat ∧
      (∀ j < 0, entryGood (bits [0x61, 0x08, 0x01]) 8 8 j) ∧ (0 + 1) * (8 + 8 + 8) ≤ (bits [0x61, 0x08, 0x01]).length ∧
      8 ≤ skipAt (bits [0x61, 0x08, 0x01]) 8 8 0) := by
  unfold entryGood; decide +kernel

/-- Greedy matching of "10" with the table of V-PARSE-1 gives [a, b]. -/
theorem greedy_ab : Greedy parsed.codes [true, false] [0x61, 0x62] :=
  .step [] [⟨0x62, [false]⟩] ⟨0x61, [true]⟩ [false] [0x62] rfl (by decide +kernel) (by decide +kernel)
    (.step [⟨0x61, [true]⟩] [] ⟨0x62, [false]⟩ [] [] rfl (by decide +kernel) (by decide +kernel) .done)

theorem witness_MatchDecodesGreedily :
    capsOk parsed.symCap parsed.byteCap = true ∧ (parsed.phase = .parsed ∨ parsed.phase = .decoded) ∧
    parsed.inputBytes parsed.payStart.toNat parsed.payEnd.toNat = some [0x06] ∧ bits [0x06] = zeros 5 ++ [true] ++ [true, false] ∧
    Greedy parsed.codes [true, false] [0x61, 0x62] ∧ ([0x61, 0x62] : List Sym).length ≤ parsed.symCap :=
  ⟨by decide +kernel, .inl rfl, by decide +kernel, by decide +kernel, greedy_ab, by decide +kernel⟩

theorem witness_MatchErrorsInOrder :
    (let s := { parsed with payStart := 5, payEnd := 6 };
      (s.phase = .parsed ∨ s.phase = .decoded) ∧ s.inputBytes s.payStart.toNat s.payEnd.toNat = some [0x00] ∧ true ∉ bits [0x00]) ∧
    (let s := { parsed with codeTab := [⟨0x61, [true]⟩], nsym := 1 };
      (s.phase = .parsed ∨ s.phase = .decoded) ∧ s.inputBytes s.payStart.toNat s.payEnd.toNat = some [0x06] ∧
      bits [0x06] = zeros 5 ++ [true] ++ [true, false] ∧ GreedyPart s.codes [true, false] [0x61] [false] ∧ [false] ≠ [] ∧
      ([0x61] : List Sym).length ≤ s.symCap ∧ ∀ e ∈ s.codes, ¬ e.code <+: [false]) ∧
    (let s := { parsed with symCap := 1 };
      (s.phase = .parsed ∨ s.phase = .decoded) ∧ s.inputBytes s.payStart.toNat s.payEnd.toNat = some [0x06] ∧
      GreedyPart s.codes [true, false] [0x61] [false] ∧ ([0x61] : List Sym).length = s.symCap ∧ ∃ e ∈ s.codes, e.code <+: [false]) :=
  ⟨⟨.inl rfl, by decide +kernel, by decide +kernel⟩,
    ⟨.inl rfl, by decide +kernel, by decide +kernel,
      .step [] [] ⟨0x61, [true]⟩ [false] [false] [] rfl (by decide +kernel) (by decide +kernel) (.start _), by decide +kernel, by decide +kernel,
      by decide +kernel⟩,
    ⟨.inl rfl, by decide +kernel,
      .step [] [⟨0x62, [false]⟩] ⟨0x61, [true]⟩ [false] [false] [] rfl (by decide +kernel) (by decide +kernel) (.start _), by decide +kernel,
      by decide +kernel⟩⟩

theorem witness_DecompressCompletes :
    (let s := withBytes abBytes small;
      capsOk s.symCap s.byteCap = true ∧ s.inLen.toNat ≤ s.byteCap ∧
      s.inputBytes 0 s.inLen.toNat = some ([0x61, 0x07, 0x01, 0x62, 0x07, 0x00] ++ [0x06] ++ [0x02, 0x04])) ∧
    (8 = 8 * [1, 1, 2, 3].getD ((0x04 : Byte).toNat % 4) 0 ∧ 8 = 8 * ((0x04 : Byte).toNat / 4 / 8 + 1)) ∧
    8 * ([0x61, 0x07, 0x01, 0x62, 0x07, 0x00] : List Byte).length = (0x02 : Byte).toNat * (8 + 8 + 8) ∧
    (∀ k < (0x02 : Byte).toNat, skipAt (bits [0x61, 0x07, 0x01, 0x62, 0x07, 0x00]) 8 8 k < 8) ∧
    StableDesc (fun e : CodeEntry => e.code.length)
      ((List.range (0x02 : Byte).toNat).map (entryAt (bits [0x61, 0x07, 0x01, 0x62, 0x07, 0x00]) 8 8)) parsed.codes ∧
    bits [0x06] = zeros 5 ++ [true] ++ [true, false] ∧ Greedy parsed.codes [true, false] [0x61, 0x62] ∧
    ([0x61, 0x62] : List Sym).length ≤ small.symCap := by
  have e : (List.range (0x02 : Byte).toNat).map (entryAt (bits [0x61, 0x07, 0x01, 0x62, 0x07, 0x00]) 8 8) = parsed.codes := by
    decide +kernel
  refine ⟨by decide +kernel, by decide +kernel, by decide +kernel, by decide +kernel, ?_, by decide +kernel, greedy_ab, by decide +kernel⟩
  rw [e]
  exact ⟨List.Perm.refl _, by decide +kernel, fun _ => rfl⟩

theorem witness_CompressDecompressRoundTrip :
    capsOk (withSyms ab small).symCap (withSyms ab small).byteCap = true ∧ exec .compress (withSyms ab small) = .next packed ∧
    packed.status.err = false ∧
    (let u := withBytes abBytes small;
      u.symCap = (withSyms ab small).symCap ∧ u.byteCap = (withSyms ab small).byteCap ∧ u.inLen = packed.outLen ∧
      ∀ j < packed.outLen.toNat, u.byteIn j = packed.byteOut j) := by
  exact ⟨by decide +kernel, eq_after (by decide +kernel), by decide +kernel, by decide +kernel⟩

theorem witness_UnwrittenInputFaults :
    (let s := { withSyms ab small with inLen := 3 };
      2 < s.inLen.toNat ∧ s.inLen.toNat ≤ s.symCap ∧ s.symIn 2 = none) ∧
    (let s := { withSyms ab coded1 with encN := 1, mem := [] };
      0 < s.encN.toNat ∧ (s.phase = .coded ∨ s.phase = .packed) ∧ s.symIn 0 = none ∧
      ∀ k < 0, ∃ x c, s.symIn k = some x ∧ codeFor s.codes x = some c) ∧
    (let s := { coded1 with encN := 2 };
      1 < s.encN.toNat ∧ s.symIn 1 = none ∧ ∀ k < 1, ∃ x c, s.symIn k = some x ∧ codeFor s.codes x = some c) ∧
    (let s := { withBytes abBytes small with inLen := 10 };
      9 < s.inLen.toNat ∧ 2 ≤ s.inLen.toNat ∧ s.inLen.toNat ≤ s.byteCap ∧ s.byteIn 9 = none) ∧
    (let s := { parsed with payEnd := 10 };
      9 < s.payEnd.toNat ∧ s.payStart.toNat ≤ 9 ∧ (s.phase = .parsed ∨ s.phase = .decoded) ∧ s.byteIn 9 = none) := by
  refine ⟨by decide +kernel, ⟨by decide +kernel, .inl rfl, by decide +kernel, fun k hk => absurd hk (by omega)⟩,
    ⟨by decide +kernel, by decide +kernel, fun k hk => ?_⟩, by decide +kernel, by decide +kernel⟩
  obtain rfl : k = 0 := by omega
  exact ⟨0x61, [true], by decide +kernel, by decide +kernel⟩

/-- The premise of the statements about every command that completes, for each command and for a failure of each kind. -/
theorem witness_CompletionWritesStatus :
    [exec .freq (withSyms abra small), exec .sort counted, exec .build sorted, exec .codegen treed, exec .pack coded,
      exec .compress (withSyms ab small), exec .parse (withBytes abBytes small), exec .matchCodes parsed,
      exec .decompress (withBytes abBytes small), exec .clear packed].all
      (fun o => completes o && !(after o).status.err) = true ∧
    [exec .freq small, exec .sort small, exec .pack { coded with byteCap := 19 }, exec .parse small].all
      (fun o => completes o && (after o).status.err) = true := by decide +kernel

theorem witness_ErrorCodesOfCommands : ∃ t, exec .codegen treed = .next t := next_of_completes (by decide +kernel)

theorem witness_FailureEffects :
    (∃ t, exec .freq small = .next t ∧ t.status.err = true ∧ t.status.errCode ≠ 12) ∧
    (exec .pack { coded with byteCap := 19 } = .next (after (exec .pack { coded with byteCap := 19 })) ∧
      (after (exec .pack { coded with byteCap := 19 })).status.err = true ∧
      (after (exec .pack { coded with byteCap := 19 })).status.errCode ≠ 12) ∧
    (exec .decompress (withBytes [0x03, 0x00, 0x04] small) = .next (after (exec .decompress (withBytes [0x03, 0x00, 0x04] small))) ∧
      (after (exec .decompress (withBytes [0x03, 0x00, 0x04] small))).status.errCode = 6) :=
  ⟨⟨_, eq_after (by decide +kernel), by decide +kernel, by decide +kernel⟩, ⟨eq_after (by decide +kernel), by decide +kernel, by decide +kernel⟩,
    eq_after (by decide +kernel), by decide +kernel⟩

theorem witness_CommandFrames :
    capsOk coded.symCap coded.byteCap = true ∧ exec .pack coded = .next (after (exec .pack coded)) ∧
    (after (exec .pack coded)).status.err = false ∧ ¬ within 0x300000 0x400000 (0x400000 + coded.byteCap) ∧
    ¬ within 0x400014 0x400000 (0x400000 + (after (exec .pack coded)).outLen.toNat) ∧
    capsOk parsed.symCap parsed.byteCap = true ∧ exec .matchCodes parsed = .next (after (exec .matchCodes parsed)) ∧
    (after (exec .matchCodes parsed)).status.err = false ∧
    ¬ within 0x200008 0x200000 (0x200000 + 4 * (after (exec .matchCodes parsed)).outLen.toNat) :=
  ⟨by decide +kernel, eq_after (by decide +kernel), by decide +kernel, by decide +kernel, by decide +kernel, by decide +kernel,
    eq_after (by decide +kernel), by decide +kernel, by decide +kernel⟩

theorem witness_OutLenAndEncN :
    (exec .sort packed = .next (after (exec .sort packed)) ∧ (after (exec .sort packed)).status.errCode = 12) ∧
    (exec .sort counted = .next (after (exec .sort counted)) ∧ (after (exec .sort counted)).status.errCode ≠ 12 ∧
      (after (exec .sort counted)).status.err = false) ∧
    (exec .freq (withSyms abra small) = .next (after (exec .freq (withSyms abra small))) ∧
      (after (exec .freq (withSyms abra small))).status.err = false) ∧
    (exec .freq small = .next (after (exec .freq small)) ∧ (after (exec .freq small)).status.err = true ∧
      (after (exec .freq small)).status.errCode ≠ 12) :=
  ⟨⟨eq_after (by decide +kernel), by decide +kernel⟩, ⟨eq_after (by decide +kernel), by decide +kernel, by decide +kernel⟩,
    ⟨eq_after (by decide +kernel), by decide +kernel⟩, eq_after (by decide +kernel), by decide +kernel, by decide +kernel⟩

theorem witness_CommandsIgnoreWhatTheyDoNotRead : ∃ t, exec .build sorted = .next t := next_of_completes (by decide +kernel)

theorem witness_PendingCommandCompletes :
    ((pending 0x02 small).status.busy = true ∧
      ∃ t, Host.Core.run Sys2Proof.core ((pending 0x02 small).host.length + 1) (pending 0x02 small) = .next t) ∧
    (({ pending 0x02 small with host := [w32 4 1, .engine] } : State).status.busy = true ∧
      HostEvent.reset ∉ ([w32 4 1, .engine] : List HostEvent).take 2 ∧
      ∃ t, Host.Core.run Sys2Proof.core 3 { pending 0x02 small with host := [w32 4 1, .engine] } = .next t) :=
  ⟨⟨rfl, next_of_completes (by decide +kernel)⟩, rfl, by decide +kernel, next_of_completes (by decide +kernel)⟩

theorem witness_PollSeesDone :
    ({ small with host := runCmd .clear 1 ++ [r32 0] } : State).status.busy = false ∧
    ({ small with host := runCmd .clear 1 ++ [r32 0] } : State).host = runCmd .clear 1 ++ [r32 0] ∧
    ∃ u, Host.Core.run Sys2Proof.core (1 + 3) { small with host := runCmd .clear 1 ++ [r32 0] } = .next u :=
  ⟨rfl, rfl, next_of_completes (by decide +kernel)⟩

theorem witness_InvHoldsAtReset : capsOk 1 3 = true ∧ capsOk 262144 1048576 = true := by decide +kernel

theorem witness_StepKeepsStatusInv :
    packed.statusInv ∧ ∃ t, step { packed with host := [w32 4 0x7F] } = .next t :=
  ⟨inv_packed.2.1, next_of_completes (by decide +kernel)⟩

theorem witness_StepKeepsMemoryInv :
    capsOk small.symCap small.byteCap = true ∧ packed.memoryInv ∧ ∃ t, step { packed with host := [w32 0x100000 7] } = .next t :=
  ⟨by decide +kernel, inv_packed.2.2.2.2.1, next_of_completes (by decide +kernel)⟩

theorem witness_StepKeepsInv :
    (packed.Inv ∧ ∃ t, step packed = .next t) ∧ (decoded.Inv ∧ ∃ t, step decoded = .next t) :=
  ⟨⟨inv_packed, next_of_completes (by decide +kernel)⟩, inv_decoded, next_of_completes (by decide +kernel)⟩

theorem witness_EngineTurnCompletes :
    (pending 0x08 packed).Inv ∧ (pending 0x08 packed).status.busy = true ∧
    (∀ k < (pending 0x08 packed).inLen.toNat, ((pending 0x08 packed).symIn k).isSome = true) ∧
    ∀ i, decode (pending 0x08 packed).cmd = .command i → i ≠ .parse ∧ i ≠ .decompress := by
  refine ⟨?_, rfl, by decide +kernel, ?_⟩
  · obtain ⟨h1, -, h3, h4, h5, h6⟩ := inv_packed
    exact ⟨h1, by unfold State.statusInv; decide +kernel, h3, h4, h5, h6⟩
  · intro i hi
    have : decode (pending 0x08 packed).cmd = .command .compress := by decide +kernel
    rw [this] at hi
    cases hi
    decide +kernel

end Sys2Proof.Tests
end

section
/-! The commands as stages: what every command leaves alone, how it can fail, and what it can store (R41, R49, R92, R294, R322). -/

namespace Sys2Proof.Machine

/-- The stage a command runs, behind its prerequisite check (R123, R294). -/
def stageOf : Instr → State → Stage
  | .freq => freqStage
  | .sort => requirePhase [.counted] sortStage
  | .build => requirePhase [.sorted] buildStage
  | .codegen => requirePhase [.tree] codegenStage
  | .pack => requirePhase [.coded, .packed] packStage
  | .compress => compressStage
  | .parse => parseStage
  | .matchCodes => requirePhase [.parsed, .decoded] matchStage
  | .decompress => decompressStage
  | .clear => fun s => .ok (clearResults s)

/-- A command is the completion of its stage (R292). -/
theorem exec_eq_complete (i : Instr) (s : State) : exec i s = complete (stageOf i s) := by cases i <;> rfl

/-- COMPRESS up to its PACK stage (R235). -/
def tableStages (s : State) : Stage := (((freqStage s).andThen sortStage).andThen buildStage).andThen codegenStage

theorem compressStage_eq (s : State) : compressStage s = (tableStages s).andThen packStage := rfl

/-- The prerequisite check raises only SEQUENCE, with the state as it was (R294, R323). -/
theorem requirePhase_cases (allowed : List Phase) (f : State → Stage) (s : State) :
    (s.phase ∈ allowed ∧ requirePhase allowed f s = f s) ∨ requirePhase allowed f s = .raised .sequence s := by
  by_cases h : s.phase ∈ allowed
  · exact .inl ⟨h, requirePhase_of_mem h f⟩
  · exact .inr (requirePhase_of_not_mem h f)

/-! ### A property of the state a stage leaves -/

/-- The state a stage leaves, whether it ran or raised, has the property P. -/
def Stage.Leaves (P : State → Prop) : Stage → Prop
  | .ok t => P t
  | .raised _ t => P t
  | .fault _ => True

section
variable {P : State → Prop}

/-- To know what a stage leaves, look at its successes and at its errors. -/
theorem Stage.leaves_of {r : Stage} (hok : ∀ t, r = .ok t → P t) (herr : ∀ e t, r = .raised e t → P t) : r.Leaves P := by
  cases r with
  | ok t => exact hok t rfl
  | raised e t => exact herr e t rfl
  | fault f => trivial

theorem Stage.Leaves.mono {Q : State → Prop} {r : Stage} (h : r.Leaves P) (hpq : ∀ t, P t → Q t) : r.Leaves Q := by
  cases r with
  | ok t => exact hpq t h
  | raised e t => exact hpq t h
  | fault f => trivial

theorem Stage.Leaves.andThen {r : Stage} {f : State → Stage} (hr : r.Leaves P) (hf : ∀ t, P t → (f t).Leaves P) :
    (r.andThen f).Leaves P := by
  cases r with
  | ok t => exact hf t hr
  | raised e t => exact hr
  | fault g => trivial

theorem Stage.Leaves.requirePhase {allowed : List Phase} {f : State → Stage} {s : State} (hs : P s) (hf : (f s).Leaves P) :
    (requirePhase allowed f s).Leaves P := by
  rcases requirePhase_cases allowed f s with ⟨-, e⟩ | e <;> rw [e]
  · exact hf
  · exact hs

theorem Stage.Leaves.of_ok {r : Stage} {t : State} (h : r.Leaves P) (e : r = .ok t) : P t := by subst e; exact h

theorem Stage.Leaves.of_raised {r : Stage} {e : Err} {t : State} (h : r.Leaves P) (he : r = .raised e t) : P t := by
  subst he; exact h

end

/-! ### What no stage writes -/

/-- The fields no stage of a command writes are the same in t as in s: IN_LEN, CMD, STATUS, the parameters and the model's own
fields (R41, R49, R92). -/
structure State.SameInputs (s t : State) : Prop where
  inLen : t.inLen = s.inLen := by rfl
  cmd : t.cmd = s.cmd := by rfl
  status : t.status = s.status := by rfl
  symCap : t.symCap = s.symCap := by rfl
  byteCap : t.byteCap = s.byteCap := by rfl
  host : t.host = s.host := by rfl
  lastRead : t.lastRead = s.lastRead := by rfl
  draws : t.draws = s.draws := by rfl

/-- Nothing but registers and tables differ. -/
def State.SameMemory (s t : State) : Prop := s.SameInputs t ∧ t.mem = s.mem

/-- Outside [lo, hi) memory is the same. -/
def State.SameMemoryOutside (lo hi : Nat) (s t : State) : Prop :=
  s.SameInputs t ∧ ∀ a, ¬ within a lo hi → Memory.read t.mem a = Memory.read s.mem a

theorem State.SameInputs.refl (s : State) : s.SameInputs s := {}

theorem State.SameInputs.trans {s t u : State} (h : s.SameInputs t) (k : t.SameInputs u) : s.SameInputs u :=
  ⟨k.inLen.trans h.inLen, k.cmd.trans h.cmd, k.status.trans h.status, k.symCap.trans h.symCap, k.byteCap.trans h.byteCap,
    k.host.trans h.host, k.lastRead.trans h.lastRead, k.draws.trans h.draws⟩

theorem State.SameMemory.refl (s : State) : s.SameMemory s := ⟨.refl s, rfl⟩

theorem State.SameMemory.trans {s t u : State} (h : s.SameMemory t) (k : t.SameMemory u) : s.SameMemory u :=
  ⟨h.1.trans k.1, k.2.trans h.2⟩

theorem State.SameMemoryOutside.of_same {lo hi : Nat} {s t : State} (h : s.SameMemory t) : s.SameMemoryOutside lo hi t :=
  ⟨h.1, fun a _ => by rw [h.2]⟩

theorem State.SameMemoryOutside.trans {lo hi : Nat} {s t u : State} (h : s.SameMemory t) (k : t.SameMemoryOutside lo hi u) :
    s.SameMemoryOutside lo hi u :=
  ⟨h.1.trans k.1, fun a ha => (k.2 a ha).trans (by rw [h.2])⟩

/-- Stages that each leave memory alone do so in turn. -/
theorem Stage.Leaves.andThen_memory {s : State} {r : Stage} {f : State → Stage} (hr : r.Leaves s.SameMemory)
    (hf : ∀ t, (f t).Leaves t.SameMemory) : (r.andThen f).Leaves s.SameMemory :=
  hr.andThen fun t h =>
    Stage.leaves_of (fun _ e => h.trans ((hf t).of_ok e)) fun _ _ e => h.trans ((hf t).of_raised e)

theorem freqStage_memory (s : State) : (freqStage s).Leaves s.SameMemory := by
  apply Stage.leaves_of
  · intro t h
    obtain ⟨xs, -, -, -, -, -, rfl⟩ := freqStage_eq_ok.mp h
    exact ⟨{}, rfl⟩
  · intro e t h
    rw [(freqStage_eq_raised h).1]
    exact .refl s

theorem sortStage_memory (s : State) : (sortStage s).Leaves s.SameMemory := ⟨{}, rfl⟩

theorem buildStage_memory (s : State) : (buildStage s).Leaves s.SameMemory := by
  apply Stage.leaves_of
  · intro t h
    obtain ⟨-, rfl⟩ := buildStage_eq_ok.mp h
    exact ⟨{}, rfl⟩
  · intro e t h
    rw [(buildStage_eq_raised h).1]
    exact .refl s

theorem codegenStage_memory (s : State) : (codegenStage s).Leaves s.SameMemory := by
  apply Stage.leaves_of
  · intro t h
    obtain ⟨-, rfl⟩ := codegenStage_eq_ok.mp h
    exact ⟨{}, rfl⟩
  · intro e t h
    rw [(codegenStage_eq_raised h).1]
    exact .refl s

theorem parseStage_memory (s : State) : (parseStage s).Leaves s.SameMemory := by
  apply Stage.leaves_of
  · intro t h
    obtain ⟨c, es, -, -, -, -, rfl⟩ := parseStage_eq_ok.mp h
    exact ⟨{}, rfl⟩
  · intro e t h
    rw [(parseStage_eq_raised h).1]
    exact .refl s

theorem tableStages_memory (s : State) : (tableStages s).Leaves s.SameMemory :=
  (((freqStage_memory s).andThen_memory sortStage_memory).andThen_memory buildStage_memory).andThen_memory
    codegenStage_memory

end Sys2Proof.Machine
end

section
/-! What FREQ's records add up to (R170), the code lengths of a built tree (R200, R205, R208) and the table PARSE reads (R260-R263):
the facts behind the invariant. -/

namespace Sys2Proof.Machine

/-! ### The records of an input -/

/-- One more occurrence adds one record at most, and that for a new symbol (R170). -/
theorem countOne_syms (x : Sym) (i : Nat) (t : List FreqRecord) : (countOne x i t).map FreqRecord.sym =
    if x ∈ t.map FreqRecord.sym then t.map FreqRecord.sym else t.map FreqRecord.sym ++ [x] := by
  induction t with
  | nil => rfl
  | cons r rs ih =>
    unfold countOne
    by_cases h : r.sym = x
    · simp [h]
    · have h' : x ≠ r.sym := Ne.symm h
      simp only [if_neg h, List.map_cons, ih, List.mem_cons, h', false_or]
      split <;> rfl

theorem countOne_nodup {x : Sym} {i : Nat} {t : List FreqRecord} (h : (t.map FreqRecord.sym).Nodup) :
    ((countOne x i t).map FreqRecord.sym).Nodup := by
  rw [countOne_syms]
  split
  · exact h
  · next hx =>
    refine List.nodup_append.mpr ⟨h, List.nodup_singleton x, fun a ha b hb => ?_⟩
    rw [List.mem_singleton.mp hb]
    exact ne_of_mem_of_not_mem ha hx

/-- One more occurrence adds one to the sum of the counts, as long as no count can wrap (R170). -/
theorem countOne_keys {x : Sym} {i : Nat} {t : List FreqRecord} (hs : (t.map FreqRecord.key).sum + 1 < 2 ^ 32) :
    ((countOne x i t).map FreqRecord.key).sum = (t.map FreqRecord.key).sum + 1 := by
  induction t with
  | nil => rfl
  | cons r rs ih =>
    rw [List.map_cons, List.sum_cons] at hs
    unfold countOne
    split
    · have hc : (r.count + 1).toNat = r.count.toNat + 1 := by
        unfold FreqRecord.key at hs
        rw [BitVec.toNat_add, Nat.mod_eq_of_lt (by simp; omega)]; rfl
      simp only [List.map_cons, List.sum_cons, FreqRecord.key, hc]
      omega
    · rw [List.map_cons, List.sum_cons, ih (by omega), List.map_cons, List.sum_cons, Nat.add_assoc]

theorem countOne_pos {x : Sym} {i : Nat} {t : List FreqRecord} (hs : (t.map FreqRecord.key).sum + 1 < 2 ^ 32)
    (h : ∀ r ∈ t, 1 ≤ r.count.toNat) : ∀ r ∈ countOne x i t, 1 ≤ r.count.toNat := by
  induction t with
  | nil => simp [countOne]
  | cons r rs ih =>
    rw [List.map_cons, List.sum_cons] at hs
    obtain ⟨h1, h2⟩ := List.forall_mem_cons.mp h
    unfold countOne
    split
    · refine List.forall_mem_cons.mpr ⟨?_, h2⟩
      unfold FreqRecord.key at hs
      simp
      omega
    · exact List.forall_mem_cons.mpr ⟨h1, ih (by omega) h2⟩

/-- Records whose counts are at least 1, one for each symbol, with n occurrences in all (R54, R170). -/
structure RecordsCount (t : List FreqRecord) (n : Nat) : Prop where
  pos : ∀ r ∈ t, 1 ≤ r.count.toNat
  nodup : (t.map FreqRecord.sym).Nodup
  sum : (t.map FreqRecord.key).sum = n

theorem RecordsCount.countOne {t : List FreqRecord} {n : Nat} (h : RecordsCount t n) (hn : n + 1 < 2 ^ 32) (x : Sym) (i : Nat) :
    RecordsCount (countOne x i t) (n + 1) where
  pos := countOne_pos (by rw [h.sum]; exact hn) h.pos
  nodup := countOne_nodup h.nodup
  sum := by rw [countOne_keys (by rw [h.sum]; exact hn), h.sum]

theorem RecordsCount.countFrom {xs : List Sym} {i n : Nat} {t : List FreqRecord} (h : RecordsCount t n)
    (hn : n + xs.length < 2 ^ 32) : RecordsCount (countFrom i t xs) (n + xs.length) := by
  induction xs generalizing i n t with
  | nil => exact h
  | cons x xs ih =>
    rw [List.length_cons] at hn ⊢
    have := ih (i := i + 1) (h.countOne (by omega) x i) (by omega)
    rwa [Nat.add_assoc, Nat.add_comm 1] at this

/-- FREQ's records count every entry of the input once (R170). -/
theorem recordsOf_count {xs : List Word} (hn : xs.length < 2 ^ 32) : RecordsCount (recordsOf xs) xs.length := by
  have h0 : RecordsCount [] 0 := ⟨by simp, by simp, rfl⟩
  simpa [recordsOf] using h0.countFrom (i := 0) (xs := xs.map toSym) (by simpa using hn)

/-- The order of the records does not matter. -/
theorem RecordsCount.perm {t u : List FreqRecord} {n : Nat} (h : RecordsCount t n) (p : u.Perm t) : RecordsCount u n where
  pos r hr := h.pos r (p.mem_iff.mp hr)
  nodup := (p.map _).nodup_iff.mpr h.nodup
  sum := by rw [(p.map _).sum_eq, h.sum]

/-- Where something was counted there is a record. -/
theorem RecordsCount.ne_nil {t : List FreqRecord} {n : Nat} (h : RecordsCount t n) (hn : 1 ≤ n) : t ≠ [] := by
  rintro rfl
  have := h.sum
  simp at this
  omega

/-! ### The codes of a built tree -/

theorem slotOf_of_prefix {xs ys : List Node} {x : Node} (h : xs ++ [x] <+: ys) : slotOf ys xs.length = x := by
  obtain ⟨zs, rfl⟩ := h
  simp [slotOf]

/-- An id that fits the 9 bits of a child field is held as it is (R55). -/
theorem childId_toNat {k : Nat} (h : k < 512) : ∃ c, childId k = some c ∧ c.toNat = k :=
  ⟨BitVec.ofNat 9 k, rfl, by simpa using h⟩

/-- The root's right child is the head of the queue (R203). -/
theorem rootOver_right (freq : BitVec 32) (e : QEntry) (q : List QEntry) : (rootOver freq (e :: q)).right = childId e.id := by
  cases q <;> rfl

/-- After the leaves stands the root or the first merge, whose right child is a leaf of the queue (R200, R202, R203). -/
theorem buildNodes_after_leaves {rs : List FreqRecord} (h0 : rs ≠ []) :
    ∃ x, rs.map leafOf ++ [x] <+: buildNodes rs ∧ ∃ e ∈ leafQueue 0 rs, x.right = childId e.id := by
  have hl : 0 < rs.length := List.length_pos_iff.mpr h0
  rw [buildNodes_eq]
  by_cases h3 : rs.length < 3
  · obtain ⟨e, q, hq⟩ := List.exists_cons_of_length_pos (l := leafQueue 0 rs) (by simpa using hl)
    rw [mergeLoop_short _ _ (by simpa using h3)]
    exact ⟨_, List.prefix_rfl, e, by simp [hq], by rw [hq]; exact rootOver_right _ e q⟩
  · obtain ⟨q, b, a, hq⟩ := exists_tail (q := leafQueue 0 rs) (by simp; omega)
    have hlen : rs.length = q.length + 2 := by simpa using congrArg List.length hq
    have hq0 : q ≠ [] := List.ne_nil_of_length_pos (by omega)
    have hids : ∀ e ∈ q ++ [b, a], e.id < (rs.map leafOf).length := fun e he => by
      simpa using leafQueue_id_lt (k := 0) (rs := rs) (hq ▸ he)
    refine ⟨mergedNode b a, ?_, b, by simp [hq], rfl⟩
    rw [hq, hlen, mergeLoop_turn _ _ _ _ hq0]
    obtain ⟨-, -, -, hpre⟩ := mergeLoop_ends (fuel := q.length + 1) (nodes := rs.map leafOf ++ [mergedNode b a])
      (q := insertDesc QEntry.key ⟨(rs.map leafOf).length, a.freq + b.freq⟩ q)
      (List.ne_nil_of_length_pos (by simp)) (by simp)
      (fun e he => by
        rcases List.mem_cons.mp ((insertDesc_perm QEntry.key _ q).mem_iff.mp he) with rfl | he
        · simp
        · have := hids e (by simp [he])
          simp at this ⊢
          omega) rfl
    exact hpre.trans (List.prefix_append _ _)

/-- The node after the leaves has a leaf for its right child. -/
theorem buildNodes_right_leaf {rs : List FreqRecord} (h0 : rs ≠ []) (h : rs.length < 512) :
    ∃ c, (slotOf (buildNodes rs) rs.length).right = some c ∧ c.toNat < rs.length := by
  obtain ⟨x, hx, e, he, hr⟩ := buildNodes_after_leaves h0
  have hid : e.id < rs.length := by simpa using leafQueue_id_lt he
  obtain ⟨c, hc, hn⟩ := childId_toNat (k := e.id) (by omega)
  have hs := slotOf_of_prefix hx
  rw [List.length_map] at hs
  exact ⟨c, by rw [hs, hr, hc], by omega⟩

/-- The codes of the children of the last node visited stand first (R205). -/
theorem assignCodes_succ (nodes : List Node) (lo n : Nat) (cs : List (Nat × BitStr)) :
    ∃ ds, assignCodes nodes lo (n + 1) cs = childCodes nodes ds lo ++ ds := by
  induction n generalizing cs with
  | zero => exact ⟨cs, rfl⟩
  | succ n ih => exact ih _

/-- A right child's code ends in 1, so it is not empty (R205). -/
theorem codeAt_right {nodes : List Node} {cs : List (Nat × BitStr)} {x : Nat} {c : BitVec 9}
    (h : (slotOf nodes x).right = some c) : codeAt (childCodes nodes cs x ++ cs) c.toNat = codeAt cs x ++ [true] := by
  simp [codeAt, childCodes, h]

/-- A code table made from a built tree has a code of at least one bit (R208). -/
theorem one_le_maxLength {rs : List FreqRecord} (h0 : rs ≠ []) (h : rs.length < 512) :
    1 ≤ maxLength (codeTableOf (buildNodes rs) rs.length (buildNodes rs).length) := by
  obtain ⟨c, hc, hlt⟩ := buildNodes_right_leaf h0 h
  have hl : 0 < rs.length := List.length_pos_iff.mpr h0
  obtain ⟨m, hm⟩ : ∃ m, (buildNodes rs).length - rs.length = m + 1 := by
    refine ⟨(buildNodes rs).length - rs.length - 1, ?_⟩
    rw [buildNodes_length h0]
    split <;> omega
  obtain ⟨ds, hds⟩ := assignCodes_succ (buildNodes rs) rs.length m []
  have hle := (maxLength_le (tab := codeTableOf (buildNodes rs) rs.length (buildNodes rs).length)).mp le_rfl
    ⟨(slotOf (buildNodes rs) c.toNat).sym, codeAt ds rs.length ++ [true]⟩ (by
      unfold codeTableOf
      rw [hm, hds]
      exact List.mem_map.mpr ⟨c.toNat, List.mem_range.mpr hlt, by rw [codeAt_right hc]⟩)
  rw [List.length_append] at hle
  exact le_trans (Nat.le_add_left 1 _) hle

/-! ### The table of a container -/

/-- Entries read from a tree region: their number, that they lie in its bits, and the lengths of their codes (R131, R260,
R262). -/
theorem parseEntries_ok {symBits slot n : Nat} {b : BitStr} {es : List CodeEntry} (h : parseEntries symBits slot n b = .ok es) :
    es.length = n ∧ n * (symBits + 8 + slot) ≤ b.length ∧ ∀ e ∈ es, 1 ≤ e.code.length ∧ e.code.length ≤ slot := by
  induction n generalizing b es with
  | zero => cases h; simp
  | succ n ih =>
    unfold parseEntries at h
    dsimp only at h
    split at h
    · cases h
    next hfit =>
    split at h
    · cases h
    next hskip =>
    split at h <;> cases h
    next ds hds =>
    obtain ⟨hlen, hbits, hcodes⟩ := ih hds
    rw [List.length_take] at hfit
    rw [List.length_drop] at hbits
    refine ⟨by rw [List.length_cons, hlen], by rw [Nat.succ_mul]; omega, List.forall_mem_cons.mpr ⟨?_, hcodes⟩⟩
    simp only [List.length_drop, List.length_take]
    omega

/-- A code slot has at most 64 bits (R132). -/
theorem codeSlotBits_le (n : BitVec 6) : codeSlotBits n.toNat ≤ 64 := by
  have := n.isLt
  unfold codeSlotBits
  omega

/-- The table of a container: its length, that the tree region ends within the body, and the lengths of the codes (R260, R262). -/
theorem parseTree_ok {t : Trailer} {body : List Byte} {es : List CodeEntry} (h : parseTree t body = .ok es) :
    es.length = t.count.toNat ∧ t.count.toNat * entryBits t.mode t.maxLen.toNat / 8 ≤ body.length ∧
      ∀ e ∈ es, 1 ≤ e.code.length ∧ e.code.length ≤ 64 := by
  obtain ⟨hlen, hbits, hcodes⟩ := parseEntries_ok h
  refine ⟨hlen, ?_, fun e he => ⟨(hcodes e he).1, (hcodes e he).2.trans (codeSlotBits_le _)⟩⟩
  rw [bits_length] at hbits
  exact Nat.div_le_of_le_mul hbits

end Sys2Proof.Machine
end

section
/-! What PACK and MATCH store, and how a command can fail (R82, R92, R294, R320, R322, R323). -/

namespace Sys2Proof.Machine

/-! ### What PACK and MATCH store -/

theorem packBytes_length {s : State} {out : List Byte} (h : packBytes s = .ok out) : out.length ≤ s.byteCap := by
  obtain ⟨cs, -, -, hle⟩ := packBytes_eq_ok.mp h
  exact hle

/-- Of memory, PACK writes the bytes of its output only. -/
theorem afterPack_outside (out : List Byte) (s : State) :
    s.SameMemoryOutside 0x400000 (0x400000 + out.length) (afterPack out s) :=
  ⟨{}, fun a ha => by
    show Memory.read (Memory.writeBytes s.mem 0x400000 out) a = _
    rw [Memory.read_writeBytes, if_neg ha]⟩

/-- Of memory, MATCH writes the words of its output only. -/
theorem afterMatch_outside (out : List Sym) (s : State) :
    s.SameMemoryOutside 0x200000 (0x200000 + 4 * out.length) (afterMatch out s) :=
  ⟨{}, fun a ha => Memory.read_writeWords_outside _ _ _ _ (by simpa [symOutBase] using ha)⟩

theorem State.SameMemoryOutside.mono {lo hi hi' : Nat} {s t : State} (h : s.SameMemoryOutside lo hi t) (hle : hi ≤ hi') :
    s.SameMemoryOutside lo hi' t :=
  ⟨h.1, fun a ha => h.2 a fun hw => ha ⟨hw.1, hw.2.trans_le hle⟩⟩

/-- The PACK stage touches BYTE_OUT only (R92, R322). -/
theorem packStage_outside (s : State) :
    (packStage s).Leaves (s.SameMemoryOutside 0x400000 (0x400000 + s.byteCap)) := by
  apply Stage.leaves_of
  · intro t h
    obtain ⟨out, hout, rfl⟩ := packStage_eq_ok.mp h
    exact (afterPack_outside out s).mono (Nat.add_le_add_left (packBytes_length hout) _)
  · intro e t h
    obtain ⟨-, rfl⟩ := packStage_eq_raised.mp h
    exact ⟨{}, fun a ha => (Memory.read_forget _ _ _ _).trans (if_neg ha)⟩

/-- The MATCH stage touches SYM_OUT only (R92, R322). -/
theorem matchStage_outside (s : State) :
    (matchStage s).Leaves (s.SameMemoryOutside 0x200000 (0x200000 + 4 * s.symCap)) := by
  apply Stage.leaves_of
  · intro t h
    obtain ⟨out, hout, rfl⟩ := matchStage_eq_ok.mp h
    exact (afterMatch_outside out s).mono
      (Nat.add_le_add_left (Nat.mul_le_mul_left 4 (matchSymbols_length hout)) _)
  · intro e t h
    obtain ⟨-, rfl⟩ := matchStage_eq_raised.mp h
    exact ⟨{}, fun a ha => (Memory.read_forget _ _ _ _).trans (if_neg ha)⟩

/-- A stage that leaves memory alone, then one that touches a region: together they touch the region. -/
theorem Stage.Leaves.andThen_outside {lo hi : Nat} {s : State} {r : Stage} {f : State → Stage} (hr : r.Leaves s.SameMemory)
    (hf : ∀ t, s.SameMemory t → (f t).Leaves (t.SameMemoryOutside lo hi)) :
    (r.andThen f).Leaves (s.SameMemoryOutside lo hi) := by
  cases r with
  | ok t => exact leaves_of (fun _ e => .trans hr ((hf t hr).of_ok e)) fun _ _ e => .trans hr ((hf t hr).of_raised e)
  | raised e t => exact .of_same hr
  | fault g => trivial

theorem compressStage_outside (s : State) :
    (compressStage s).Leaves (s.SameMemoryOutside 0x400000 (0x400000 + s.byteCap)) :=
  (tableStages_memory s).andThen_outside fun t h => h.1.byteCap ▸ packStage_outside t

theorem decompressStage_outside (s : State) :
    (decompressStage s).Leaves (s.SameMemoryOutside 0x200000 (0x200000 + 4 * s.symCap)) :=
  (parseStage_memory s).andThen_outside fun t h => h.1.symCap ▸ matchStage_outside t

/-- FREQ, SORT, BUILD, CODEGEN, PARSE and CLEAR change no byte of memory (R92, R295). -/
theorem stageOf_memory {i : Instr} (h : i ∈ [Instr.freq, .sort, .build, .codegen, .parse, .clear]) (s : State) :
    (stageOf i s).Leaves s.SameMemory := by
  cases i with
  | freq => exact freqStage_memory s
  | sort => exact .requirePhase (.refl s) (sortStage_memory s)
  | build => exact .requirePhase (.refl s) (buildStage_memory s)
  | codegen => exact .requirePhase (.refl s) (codegenStage_memory s)
  | parse => exact parseStage_memory s
  | clear => exact ⟨{}, rfl⟩
  | pack | compress | matchCodes | decompress => simp at h

/-- PACK and COMPRESS touch BYTE_OUT only (R92). -/
theorem stageOf_byteOut {i : Instr} (h : i = .pack ∨ i = .compress) (s : State) :
    (stageOf i s).Leaves (s.SameMemoryOutside 0x400000 (0x400000 + s.byteCap)) := by
  rcases h with rfl | rfl
  · exact .requirePhase (.of_same (.refl s)) (packStage_outside s)
  · exact compressStage_outside s

/-- MATCH and DECOMPRESS touch SYM_OUT only (R92). -/
theorem stageOf_symOut {i : Instr} (h : i = .matchCodes ∨ i = .decompress) (s : State) :
    (stageOf i s).Leaves (s.SameMemoryOutside 0x200000 (0x200000 + 4 * s.symCap)) := by
  rcases h with rfl | rfl
  · exact .requirePhase (.of_same (.refl s)) (matchStage_outside s)
  · exact decompressStage_outside s

/-- By what of memory they write, the commands are of three kinds. -/
theorem instr_by_memory (i : Instr) : i ∈ [Instr.freq, .sort, .build, .codegen, .parse, .clear] ∨
    (i = .pack ∨ i = .compress) ∨ (i = .matchCodes ∨ i = .decompress) := by cases i <;> decide

/-- No command writes IN_LEN, CMD, a parameter or the model's own fields, and no stage writes STATUS (R41, R49). -/
theorem stageOf_sameInputs (i : Instr) (s : State) : (stageOf i s).Leaves s.SameInputs := by
  rcases instr_by_memory i with hi | hi | hi
  · exact (stageOf_memory hi s).mono fun _ h => h.1
  · exact (stageOf_byteOut hi s).mono fun _ h => h.1
  · exact (stageOf_symOut hi s).mono fun _ h => h.1

/-- A successful PACK or COMPRESS ends with the PACK stage's effect, on a state with the memory of the first (R230, R235). -/
theorem stageOf_packs {i : Instr} {s t : State} (hi : i = .pack ∨ i = .compress) (h : stageOf i s = .ok t) :
    ∃ u out, s.SameMemory u ∧ packBytes u = .ok out ∧ t = afterPack out u := by
  rcases hi with rfl | rfl
  · rcases requirePhase_cases [.coded, .packed] packStage s with ⟨-, e⟩ | e
    · obtain ⟨out, hout, ht⟩ := packStage_eq_ok.mp (e.symm.trans h)
      exact ⟨s, out, .refl s, hout, ht⟩
    · cases e.symm.trans h
  · obtain ⟨u, hu, hp⟩ := Stage.andThen_eq_ok.mp ((compressStage_eq s).symm.trans h)
    obtain ⟨out, hout, ht⟩ := packStage_eq_ok.mp hp
    exact ⟨u, out, (tableStages_memory s).of_ok hu, hout, ht⟩

/-- A successful MATCH or DECOMPRESS ends with the MATCH stage's effect, on a state with the memory of the first (R264, R267). -/
theorem stageOf_matches {i : Instr} {s t : State} (hi : i = .matchCodes ∨ i = .decompress) (h : stageOf i s = .ok t) :
    ∃ u out, s.SameMemory u ∧ matchSymbols u = .ok out ∧ t = afterMatch out u := by
  rcases hi with rfl | rfl
  · rcases requirePhase_cases [.parsed, .decoded] matchStage s with ⟨-, e⟩ | e
    · obtain ⟨out, hout, ht⟩ := matchStage_eq_ok.mp (e.symm.trans h)
      exact ⟨s, out, .refl s, hout, ht⟩
    · cases e.symm.trans h
  · obtain ⟨u, hu, hp⟩ := Stage.andThen_eq_ok.mp h
    obtain ⟨out, hout, ht⟩ := matchStage_eq_ok.mp hp
    exact ⟨u, out, (parseStage_memory s).of_ok hu, hout, ht⟩

/-! ### How a command fails -/

/-- Every error the stage can raise clears the results (R322). -/
def Stage.RaisesFailures (r : Stage) : Prop := ∀ e t, r = .raised e t → e.isProtocol = false

theorem Stage.RaisesFailures.andThen {r : Stage} {f : State → Stage} (hr : r.RaisesFailures) (hf : ∀ t, (f t).RaisesFailures) :
    (r.andThen f).RaisesFailures := by
  intro e t h
  rcases Stage.andThen_eq_raised.mp h with h | ⟨u, -, h⟩
  · exact hr e t h
  · exact hf u e t h

theorem Stage.raisesFailures_of_mem {r : Stage} {errs : List Err} (h : ∀ e t, r = .raised e t → e ∈ errs)
    (herrs : ∀ e ∈ errs, e.isProtocol = false) : r.RaisesFailures := fun e t he => herrs e (h e t he)

theorem freqStage_failures (s : State) : (freqStage s).RaisesFailures :=
  Stage.raisesFailures_of_mem (fun _ _ h => (freqStage_eq_raised h).2) (by decide)

theorem sortStage_failures (s : State) : (sortStage s).RaisesFailures := fun e t h => by cases h

theorem buildStage_failures (s : State) : (buildStage s).RaisesFailures := fun e t h => by
  rw [(buildStage_eq_raised h).2.1]; rfl

theorem codegenStage_failures (s : State) : (codegenStage s).RaisesFailures := fun e t h => by
  rw [(codegenStage_eq_raised h).2.1]; rfl

theorem packStage_failures (s : State) : (packStage s).RaisesFailures := fun e t h => by
  rcases packBytes_raised (packStage_eq_raised.mp h).1 with rfl | rfl <;> rfl

theorem parseStage_failures (s : State) : (parseStage s).RaisesFailures :=
  Stage.raisesFailures_of_mem (fun _ _ h => (parseStage_eq_raised h).2) (by decide)

theorem matchStage_failures (s : State) : (matchStage s).RaisesFailures := fun e t h => by
  rcases matchSymbols_raised (matchStage_eq_raised.mp h).1 with rfl | rfl | rfl <;> rfl

theorem tableStages_failures (s : State) : (tableStages s).RaisesFailures :=
  (((freqStage_failures s).andThen sortStage_failures).andThen buildStage_failures).andThen codegenStage_failures

/-- Behind the prerequisite check a stage raises SEQUENCE, with the state as it was, or an error of its own. -/
theorem requirePhase_raised {allowed : List Phase} {f : State → Stage} {s t : State} {e : Err} (hf : (f s).RaisesFailures)
    (h : requirePhase allowed f s = .raised e t) : (e = .sequence ∧ t = s) ∨ e.isProtocol = false := by
  rcases requirePhase_cases allowed f s with ⟨-, e'⟩ | e'
  · exact .inr (hf e t (e'.symm.trans h))
  · cases e'.symm.trans h
    exact .inl ⟨rfl, rfl⟩

/-- A command fails with SEQUENCE and the state as it was, or with an error that clears the results (R294, R322, R323). -/
theorem stageOf_raised {i : Instr} {s t : State} {e : Err} (h : stageOf i s = .raised e t) :
    (e = .sequence ∧ t = s) ∨ e.isProtocol = false := by
  cases i with
  | freq => exact .inr (freqStage_failures s e t h)
  | sort => exact requirePhase_raised (sortStage_failures s) h
  | build => exact requirePhase_raised (buildStage_failures s) h
  | codegen => exact requirePhase_raised (codegenStage_failures s) h
  | pack => exact requirePhase_raised (packStage_failures s) h
  | compress => exact .inr (((tableStages_failures s).andThen packStage_failures) e t h)
  | parse => exact .inr (parseStage_failures s e t h)
  | matchCodes => exact requirePhase_raised (matchStage_failures s) h
  | decompress => exact .inr (((parseStage_failures s).andThen matchStage_failures) e t h)
  | clear => cases h

/-- Every way a command can complete: it succeeds; it is out of phase; or it fails and the results are cleared (R292, R322,
R323). -/
theorem exec_eq_next {i : Instr} {s t : State} (h : exec i s = .next t) :
    (∃ u, stageOf i s = .ok u ∧ t = completeOk u) ∨ t = { s with status := errStatus 12 s } ∨
      ∃ e u, e.isProtocol = false ∧ stageOf i s = .raised e u ∧ t = failedState e.code u := by
  rw [exec_eq_complete] at h
  rcases complete_eq_next.mp h with h | ⟨e, u, hu, rfl⟩
  · exact .inl h
  · rcases stageOf_raised hu with ⟨rfl, rfl⟩ | he
    · exact .inr (.inl (raiseError_of_protocol rfl u))
    · exact .inr (.inr ⟨e, u, he, hu, raiseError_of_failure he u⟩)

end Sys2Proof.Machine
end

section
/-! What STATUS promises after every step (R37-R39), what each event of a step can do (R94), and the changes of a state that keep
the whole invariant (R34, R42-R48, R54-R57). -/

namespace Sys2Proof.Machine

/-! ### STATUS -/

theorem okStatus_inv {s t : State} (h : t.status = okStatus s) : t.statusInv := by
  unfold State.statusInv okStatus at *
  simp [h]

theorem errStatus_inv {e : Err} {s t : State} (h : t.status = errStatus e.code s) : t.statusInv := by
  unfold State.statusInv
  rw [h]
  exact ⟨nofun, fun _ => rfl, ⟨nofun, fun h => absurd h e.code_ne_zero⟩, e.code_le⟩

/-- A command that completes leaves STATUS as R37-R39 promise. -/
theorem complete_statusInv {r : Stage} {t : State} (h : complete r = .next t) : t.statusInv := by
  rcases complete_eq_next.mp h with ⟨s, -, rfl⟩ | ⟨e, s, -, rfl⟩
  · exact okStatus_inv rfl
  · exact errStatus_inv (raiseError_status e s)

theorem cmdWrite_statusInv {s : State} (v : Word) (h : s.statusInv) : (cmdWrite v s).statusInv := by
  unfold cmdWrite
  split
  · exact h
  · simp [State.statusInv]

theorem resetInput_statusInv (s : State) : (resetInput s).statusInv := by
  simp [State.statusInv]

/-! ### What an event can do -/

/-- An engine's turn that completes: nothing is pending, or the latched word's stage completes (R292, R296). -/
theorem engineTurn_eq_next {s t : State} (h : engineTurn s = .next t) :
    t = s ∨ (∃ i, exec i s = .next t) ∨ execIllegal s = .next t := by
  unfold engineTurn at h
  split at h
  · split at h
    · next i hi => exact .inr (.inl ⟨i, h⟩)
    · exact .inr (.inr h)
  · cases h; exact .inl rfl

theorem hostRead_eq_next {w : Width} {a : Addr} {s t : State} (h : hostRead w a s = .next t) :
    t = { s with lastRead := some (readValue s w a), draws := s.draws + 1 } := by
  cases ha : accessOk s w a
  · rw [hostRead_not_ok ha] at h; cases h
  · rw [hostRead_ok ha] at h; cases h; rfl

theorem inputWrite_eq_next {s t u : State} (h : inputWrite s t = .next u) : u = t := by
  cases hb : s.status.busy
  · rw [inputWrite_idle hb] at h; cases h; rfl
  · rw [inputWrite_busy hb] at h; cases h

/-- A permitted access to a SYM_IN entry is a 32-bit one, and aligned (R83). -/
theorem accessOk_symIn {s : State} {w : Width} {a : Addr} (h : accessOk s w a = true) (hr : s.region a.toNat = .symIn) :
    a.toNat % 4 = 0 := by
  cases w with
  | w32 => simpa [accessOk] using h
  | w8 => simp [accessOk, hr] at h
  | other => simp [accessOk] at h

/-- Everything a host write that completes can do (R85, R290, R291, R293). -/
theorem hostWrite_eq_next {w : Width} {a : Addr} {v : Word} {s t : State} (h : hostWrite w a v s = .next t) :
    t = s ∨ t = cmdWrite v s ∨ t = { s with inLen := v } ∨
    (s.region a.toNat = .symIn ∧ a.toNat % 4 = 0 ∧ t = { s with mem := Memory.writeWord s.mem a.toNat v }) ∨
    (s.region a.toNat = .byteIn ∧ t = { s with mem := byteInWrite s w a.toNat v }) := by
  cases ha : accessOk s w a
  · rw [hostWrite_not_ok v ha] at h; cases h
  rw [hostWrite_ok v ha] at h
  rcases writeAt_cases w a.toNat v s with ⟨-, -, e⟩ | ⟨-, -, e⟩ | ⟨hr, e⟩ | ⟨hr, e⟩ | ⟨-, -, -, e⟩ <;> rw [e] at h
  · cases h; exact .inr (.inl rfl)
  · exact .inr (.inr (.inl (inputWrite_eq_next h)))
  · exact .inr (.inr (.inr (.inl ⟨hr, accessOk_symIn ha hr, inputWrite_eq_next h⟩)))
  · exact .inr (.inr (.inr (.inr ⟨hr, inputWrite_eq_next h⟩)))
  · cases h; exact .inl rfl

/-- A property every event keeps, and the events still to come do not touch, every step keeps (R94). -/
theorem step_keeps {P : State → Prop} (hhost : ∀ s rest, P s → P { s with host := rest })
    (hread : ∀ s w a, P s → P { s with lastRead := some (readValue s w a), draws := s.draws + 1 })
    (hwrite : ∀ s t w a v, P s → hostWrite w a v s = .next t → P t)
    (hengine : ∀ s t, P s → engineTurn s = .next t → P t) (hreset : ∀ s, P s → P (resetInput s))
    {s t : State} (hs : P s) (h : step s = .next t) : P t := by
  unfold step at h
  split at h
  · exact hengine s t hs h
  · next e rest _ =>
    have hs' := hhost s rest hs
    cases e with
    | read w a => rw [hostRead_eq_next h]; exact hread _ w a hs'
    | write w a v => exact hwrite _ t w a v hs' h
    | engine => exact hengine _ t hs' h
    | reset => cases h; exact hreset _ hs'

/-- Settles O56: the engine's turn completes a command, acceptance and reset write STATUS, and no other event does. -/
theorem stepKeepsStatusInv : Obligations.StepKeepsStatusInv := by
  intro s t hs h
  refine step_keeps (P := State.statusInv) (fun _ _ h => h) (fun _ _ _ h => h) ?_ ?_ (fun s _ => resetInput_statusInv s) hs h
  · intro s t w a v hs h
    rcases hostWrite_eq_next h with rfl | rfl | rfl | ⟨-, -, rfl⟩ | ⟨-, rfl⟩
    · exact hs
    · exact cmdWrite_statusInv v hs
    · exact hs
    · exact hs
    · exact hs
  · intro s t hs h
    rcases engineTurn_eq_next h with rfl | ⟨i, h⟩ | h
    · exact hs
    · rw [exec_eq_complete] at h; exact complete_statusInv h
    · exact complete_statusInv h

/-! ### Changes that keep the invariant -/

theorem inv_resetWith {symCap byteCap : Nat} (h : capsOk symCap byteCap = true) : (State.resetWith symCap byteCap).Inv := by
  refine ⟨h, ?_, ?_, ?_, ?_, ?_⟩
  · simp [State.statusInv, State.resetWith, Status.reset]
  · simp [State.resultsInv, State.resetWith, Phase.encoding, Phase.decoding]
  · simp [State.tablesInv, State.resetWith, Phase.encoding, Phase.decoding, Phase.nodeValid]
  · simp [State.memoryInv, State.resetWith, Memory.wf]
  · simp [State.buffersInv, State.resetWith, Phase.encoding, Phase.decoding]

/-- Settles O55: every table and buffer is empty and every register 0. -/
theorem invHoldsAtReset : Obligations.InvHoldsAtReset := fun _ _ h => inv_resetWith h

theorem State.Inv.resetInput {s : State} (h : s.Inv) : (resetInput s).Inv := by
  obtain ⟨hcaps, -⟩ := h
  exact inv_resetWith hcaps

/-- CMD is in no clause of the invariant, and STATUS in one. -/
theorem State.Inv.with_status {s : State} {c : Word} {st : Status} (h : s.Inv)
    (hst : State.statusInv { s with cmd := c, status := st }) : State.Inv { s with cmd := c, status := st } := by
  obtain ⟨hcaps, -, hrest⟩ := h
  exact ⟨hcaps, hst, hrest⟩

theorem State.Inv.statusInv {s : State} (h : s.Inv) : s.statusInv := by
  obtain ⟨-, hst, -⟩ := h
  exact hst

theorem State.Inv.cmdWrite {s : State} (h : s.Inv) (v : Word) : (cmdWrite v s).Inv := by
  have hst := cmdWrite_statusInv v h.statusInv
  unfold Machine.cmdWrite at *
  split at hst
  · next hb => rw [if_pos hb]; exact h.with_status hst
  · next hb => rw [if_neg hb]; exact h.with_status hst

/-- Every byte that holds a value in m holds one in m'. -/
def Memory.Grows (m m' : List Host.Cell) : Prop := ∀ a, (Memory.read m a).isSome = true → (Memory.read m' a).isSome = true

theorem Memory.Grows.word {m m' : List Host.Cell} (h : Memory.Grows m m') {a : Nat}
    (ha : (Memory.readWord m a).isSome = true) : (Memory.readWord m' a).isSome = true :=
  (Memory.readWord_isSome m' a).mpr fun k hk => h _ ((Memory.readWord_isSome m a).mp ha k hk)

theorem Memory.grows_writeWord (m : List Host.Cell) (a : Nat) (v : Word) : Memory.Grows m (Memory.writeWord m a v) := by
  intro x hx
  rw [Memory.read_writeWord]
  split
  · rfl
  · exact hx

theorem grows_storeLane (hi : Nat) (m : List Host.Cell) (a : Nat) (b : Byte) : Memory.Grows m (storeLane hi m a b) := by
  intro x hx
  rw [read_storeLane]
  split
  · rfl
  · exact hx

theorem grows_storeLanes (hi : Nat) (m : List Host.Cell) (a : Nat) (v : Word) : Memory.Grows m (storeLanes hi m a v) := by
  intro x hx
  rw [read_storeLanes]
  split
  · rfl
  · exact hx

theorem grows_byteInWrite (s : State) (w : Width) (a : Nat) (v : Word) : Memory.Grows s.mem (byteInWrite s w a v) := by
  cases w with
  | w8 => exact grows_storeLane _ _ _ _
  | w32 => exact grows_storeLanes _ _ _ _
  | other => exact grows_storeLanes _ _ _ _

/-- A memory that still lists buffer addresses only and has lost no byte keeps the invariant. -/
theorem State.Inv.with_mem {s : State} {m : List Host.Cell} (h : s.Inv) (hm : State.memoryInv { s with mem := m })
    (hg : Memory.Grows s.mem m) : State.Inv { s with mem := m } := by
  obtain ⟨hcaps, hstatus, hresults, htables, -, hsymIn, hbyteIn, hbyteOut, hsymOut⟩ := h
  exact ⟨hcaps, hstatus, hresults, htables, hm, fun hp i hi => hg.word (hsymIn hp i hi),
    fun hp j hj hj' => hg _ (hbyteIn hp j hj hj'), fun hp j hj => hg _ (hbyteOut hp j hj), fun hp i hi => hg.word (hsymOut hp i hi)⟩

/-- A write of an aligned SYM_IN entry stays in the buffer (R80). -/
theorem State.memoryInv.symInWrite {s : State} {a : Nat} (v : Word) (h : s.memoryInv) (hr : s.region a = .symIn) (ha : a % 4 = 0)
    (hcaps : capsOk s.symCap s.byteCap = true) : State.memoryInv { s with mem := Memory.writeWord s.mem a v } := by
  obtain ⟨hwf, hlisted⟩ := h
  obtain ⟨-, -, -, -, hsymIn, -⟩ := region_iff s a hcaps
  have hw := hsymIn.mp hr
  refine ⟨Memory.writeWord_wf hwf a v, fun c hc => ?_⟩
  rcases Memory.mem_writeWord hc with hc | hc
  · exact .inl (show within c.1 0x100000 (0x100000 + 4 * s.symCap) by unfold within at *; omega)
  · exact hlisted c hc

/-- A write of BYTE_IN stays in the buffer (R80, R85). -/
theorem State.memoryInv.byteInWrite {s : State} {w : Width} {a : Nat} (v : Word) (h : s.memoryInv) (hr : s.region a = .byteIn)
    (hcaps : capsOk s.symCap s.byteCap = true) : State.memoryInv { s with mem := byteInWrite s w a v } := by
  obtain ⟨hwf, hlisted⟩ := h
  obtain ⟨-, -, -, -, -, -, hbyteIn, -⟩ := region_iff s a hcaps
  have hw := hbyteIn.mp hr
  refine ⟨byteInWrite_wf hwf w a v, fun c hc => ?_⟩
  rcases mem_byteInWrite hc with hc | hc
  · exact .inr (.inr (.inl ⟨hw.1.trans hc.1, hc.2⟩))
  · exact hlisted c hc

/-- A failure that clears the results leaves nothing to promise but the parameters and the shape of memory (R322). -/
theorem failedState_inv {e : Err} {s : State} (hcaps : capsOk s.symCap s.byteCap = true) (hm : s.memoryInv) :
    (failedState e.code s).Inv := by
  refine ⟨hcaps, errStatus_inv (s := s) rfl, ?_, ?_, hm, ?_⟩
  · simp [State.resultsInv, failedState, Phase.encoding, Phase.decoding]
  · simp [State.tablesInv, failedState, Phase.encoding, Phase.decoding, Phase.nodeValid]
  · simp [State.buffersInv, failedState, Phase.encoding, Phase.decoding]

/-! ### What a stage leaves -/

/-- A stage of a state of the invariant ends well: where it runs, the invariant holds and PHASE is p; where it raises, memory is
in order and, if nothing will be cleared, the invariant holds. -/
def Stage.Good (p : Phase) : Stage → Prop
  | .ok t => t.Inv ∧ t.phase = p
  | .raised e t => (capsOk t.symCap t.byteCap = true ∧ t.memoryInv) ∧ (e.isProtocol = true → t.Inv)
  | .fault _ => True

theorem Stage.good_of {p : Phase} {r : Stage} (hok : ∀ t, r = .ok t → t.Inv ∧ t.phase = p)
    (herr : ∀ e t, r = .raised e t → (capsOk t.symCap t.byteCap = true ∧ t.memoryInv) ∧ (e.isProtocol = true → t.Inv)) :
    r.Good p := by
  cases r with
  | ok t => exact hok t rfl
  | raised e t => exact herr e t rfl
  | fault f => trivial

theorem Stage.Good.andThen {p q : Phase} {r : Stage} {f : State → Stage} (hr : r.Good p)
    (hf : ∀ t, t.Inv → t.phase = p → (f t).Good q) : (r.andThen f).Good q := by
  cases r with
  | ok t => exact hf t hr.1 hr.2
  | raised e t => exact hr
  | fault g => trivial

theorem State.Inv.memory {s : State} (h : s.Inv) : capsOk s.symCap s.byteCap = true ∧ s.memoryInv := by
  obtain ⟨hcaps, -, -, -, hm, -⟩ := h
  exact ⟨hcaps, hm⟩

theorem requirePhase_good {p : Phase} {allowed : List Phase} {f : State → Stage} {s : State} (hs : s.Inv)
    (hf : s.phase ∈ allowed → (f s).Good p) : (requirePhase allowed f s).Good p := by
  rcases requirePhase_cases allowed f s with ⟨h, e⟩ | e <;> rw [e]
  · exact hf h
  · exact ⟨hs.memory, fun _ => hs⟩

/-- A command whose stage ends well keeps the invariant (R292, R322, R323). -/
theorem complete_keeps_inv {p : Phase} {r : Stage} {t : State} (hr : r.Good p) (h : complete r = .next t) : t.Inv := by
  rcases complete_eq_next.mp h with ⟨s, rfl, rfl⟩ | ⟨e, s, rfl, rfl⟩
  · exact hr.1.with_status (okStatus_inv (s := s) rfl)
  · cases he : e.isProtocol
    · rw [raiseError_of_failure he]
      exact failedState_inv hr.1.1 hr.1.2
    · rw [raiseError_of_protocol he]
      exact (hr.2 he).with_status (errStatus_inv (s := s) rfl)

/-- A stage whose errors leave the state as it was ends well if its successes do. -/
theorem Stage.good_of_unchanged {p : Phase} {s : State} {r : Stage} (hs : s.Inv) (herr : ∀ e t, r = .raised e t → t = s)
    (hok : ∀ t, r = .ok t → t.Inv ∧ t.phase = p) : r.Good p :=
  good_of hok fun e t h => by rw [herr e t h]; exact ⟨hs.memory, fun _ => hs⟩

end Sys2Proof.Machine
end

section
/-! The invariant in the encoding and the decoding phases, and the FREQ, SORT, BUILD and CODEGEN stages, which end well on a state
of the invariant (R170, R172, R200, R205). -/

namespace Sys2Proof.Machine

/-! ### The invariant in the two families of phases -/

/-- The invariant where PHASE is 1 to 5, sorted by what it speaks of. -/
structure State.EncodingInv (s : State) : Prop where
  caps : capsOk s.symCap s.byteCap = true
  status : s.statusInv
  memory : s.memoryInv
  count : RecordsCount s.freqTab s.encN.toNat
  length : s.freqTab.length = s.nsym.toNat
  encN_pos : 1 ≤ s.encN.toNat
  encN_le : s.encN.toNat ≤ s.symCap
  payStart : s.payStart = 0
  payEnd : s.payEnd = 0
  input : ∀ i < s.encN.toNat, (s.symIn i).isSome = true
  nnodes : s.phase = .counted ∨ s.phase = .sorted → s.nnodes = 0
  maxLen : s.phase = .counted ∨ s.phase = .sorted ∨ s.phase = .tree → s.maxLen = 0
  outLen : s.phase ≠ .packed → s.outLen = 0
  descending : s.phase ≠ .counted → s.freqTab.Pairwise fun a b => b.key ≤ a.key
  tree : s.phase.nodeValid = true → s.nodeTab = buildNodes s.freqTab ∧ s.nnodes.toNat = s.nodeTab.length
  code : s.phase = .coded ∨ s.phase = .packed → s.codeTab = s.codeTable ∧ s.maxLen.toNat = maxLength s.codeTab
  maxLen_pos : s.phase = .coded ∨ s.phase = .packed → 1 ≤ s.maxLen.toNat
  outLen_le : s.phase = .packed → s.outLen.toNat ≤ s.byteCap
  output : s.phase = .packed → ∀ j < s.outLen.toNat, (s.byteOut j).isSome = true

/-- The invariant where PHASE is 8 or 9, sorted by what it speaks of. -/
structure State.DecodingInv (s : State) : Prop where
  caps : capsOk s.symCap s.byteCap = true
  status : s.statusInv
  memory : s.memoryInv
  encN : s.encN = 0
  nnodes : s.nnodes = 0
  pay_le : s.payStart.toNat ≤ s.payEnd.toNat
  payEnd_le : s.payEnd.toNat + 2 ≤ s.byteCap
  length : s.codeTab.length = s.nsym.toNat
  codes : ∀ e ∈ s.codeTab, 1 ≤ e.code.length ∧ e.code.length ≤ 64
  descending : s.codeTab.Pairwise fun a b => b.code.length ≤ a.code.length
  input : ∀ j, s.payStart.toNat ≤ j → j < s.payEnd.toNat → (s.byteIn j).isSome = true
  outLen : s.phase ≠ .decoded → s.outLen = 0
  outLen_le : s.phase = .decoded → s.outLen.toNat ≤ s.symCap
  output : s.phase = .decoded → ∀ i < s.outLen.toNat, (s.symOut i).isSome = true

theorem State.EncodingInv.nsym_pos {s : State} (h : s.EncodingInv) : 1 ≤ s.nsym.toNat := by
  rw [← h.length]
  exact List.length_pos_iff.mpr (h.count.ne_nil h.encN_pos)

theorem Phase.encoding_cases {p : Phase} (h : p.encoding) :
    p ≠ .idle ∧ p ≠ .decoded ∧ ¬ p.decoding := by
  unfold Phase.encoding Phase.decoding at *
  cases p <;> simp at h ⊢

theorem Phase.decoding_cases {p : Phase} (h : p.decoding) :
    (p = .parsed ∨ p = .decoded) ∧ ¬ p.encoding ∧ p.nodeValid = false := by
  unfold Phase.encoding Phase.decoding at *
  cases p <;> simp [Phase.nodeValid] at h ⊢

theorem State.Inv.encodingInv {s : State} (h : s.Inv) (hp : s.phase.encoding) : s.EncodingInv := by
  obtain ⟨hcaps, hstatus, ⟨-, hres, -, hnnodes, hmaxLen, hcode, hout, hpacked, -⟩, ⟨htab, hdesc, htree, hcodeTab, -⟩, hm,
    hsymIn, -, hbyteOut, -⟩ := h
  obtain ⟨-, hpos, hle, hstart, hend⟩ := hres hp
  obtain ⟨hlen, hcount, hnodup, hsum⟩ := htab hp
  obtain ⟨-, hdec, -⟩ := Phase.encoding_cases hp
  exact {
    caps := hcaps, status := hstatus, memory := hm, count := ⟨hcount, hnodup, hsum⟩, length := hlen, encN_pos := hpos,
    encN_le := hle, payStart := hstart, payEnd := hend, input := hsymIn hp, nnodes := hnnodes, maxLen := hmaxLen,
    outLen := fun h => hout h hdec, descending := hdesc hp, tree := htree, code := hcodeTab, maxLen_pos := hcode,
    outLen_le := hpacked, output := hbyteOut }

theorem State.EncodingInv.inv {s : State} (h : s.EncodingInv) (hp : s.phase.encoding) : s.Inv := by
  obtain ⟨hidle, hdec, hnot⟩ := Phase.encoding_cases hp
  refine ⟨h.caps, h.status, ?_, ?_, h.memory, ?_⟩
  · exact ⟨fun e => absurd e hidle, fun _ => ⟨h.nsym_pos, h.encN_pos, h.encN_le, h.payStart, h.payEnd⟩, fun e => absurd e hnot,
      h.nnodes, h.maxLen, h.maxLen_pos, fun e _ => h.outLen e, h.outLen_le, fun e => absurd e hdec⟩
  · exact ⟨fun _ => ⟨h.length, h.count.pos, h.count.nodup, h.count.sum⟩, fun _ => h.descending, h.tree, h.code,
      fun e => absurd e hnot⟩
  · exact ⟨fun _ => h.input, fun e => absurd e hnot, h.output, fun e => absurd e hdec⟩

theorem State.Inv.decodingInv {s : State} (h : s.Inv) (hp : s.phase.decoding) : s.DecodingInv := by
  obtain ⟨hcaps, hstatus, ⟨-, -, hres, -, -, -, hout, -, hdecoded⟩, ⟨-, -, -, -, htab⟩, hm, -, hbyteIn, -, hsymOut⟩ := h
  obtain ⟨hencN, hnnodes, hpay, hend⟩ := hres hp
  obtain ⟨hlen, hcodes, hdesc⟩ := htab hp
  have hpacked : s.phase ≠ .packed := by
    obtain ⟨e | e, -⟩ := Phase.decoding_cases hp <;> simp [e]
  exact {
    caps := hcaps, status := hstatus, memory := hm, encN := hencN, nnodes := hnnodes, pay_le := hpay, payEnd_le := hend,
    length := hlen, codes := hcodes, descending := hdesc, input := hbyteIn hp, outLen := hout hpacked,
    outLen_le := hdecoded, output := hsymOut }

theorem State.DecodingInv.inv {s : State} (h : s.DecodingInv) (hp : s.phase.decoding) : s.Inv := by
  obtain ⟨hcases, hnot, hnode⟩ := Phase.decoding_cases hp
  have hne : ∀ p, p ≠ .parsed → p ≠ .decoded → s.phase ≠ p := by
    rintro p h1 h2 rfl
    exact hcases.elim h1 h2
  have hc := hne .counted (by simp) (by simp)
  have hs := hne .sorted (by simp) (by simp)
  have ht := hne .tree (by simp) (by simp)
  have ho := hne .coded (by simp) (by simp)
  have hk := hne .packed (by simp) (by simp)
  refine ⟨h.caps, h.status, ?_, ?_, h.memory, ?_⟩
  · exact ⟨fun e => absurd e (hne .idle (by simp) (by simp)), fun e => absurd e hnot,
      fun _ => ⟨h.encN, h.nnodes, h.pay_le, h.payEnd_le⟩, fun _ => h.nnodes, by simp [hc, hs, ht], by simp [ho, hk],
      fun _ => h.outLen, fun e => absurd e hk, h.outLen_le⟩
  · exact ⟨fun e => absurd e hnot, fun e => absurd e hnot, by simp [hnode], by simp [ho, hk],
      fun _ => ⟨h.length, h.codes, h.descending⟩⟩
  · exact ⟨fun e => absurd e hnot, fun _ => h.input, fun e => absurd e hk, h.output⟩

/-! ### FREQ, SORT, BUILD and CODEGEN -/

/-- FREQ ends well from every state of the invariant, in PHASE 1 (R170). -/
theorem freqStage_good {s : State} (hs : s.Inv) : (freqStage s).Good .counted := by
  refine Stage.good_of_unchanged hs (fun e t h => (freqStage_eq_raised h).1) fun t h => ?_
  obtain ⟨xs, hcap, hpos, hxs, -, hle, rfl⟩ := freqStage_eq_ok.mp h
  obtain ⟨hlen, hget⟩ := State.symbols_eq_some.mp hxs
  have hrec := recordsOf_count (xs := xs) (by rw [hlen]; exact s.inLen.isLt)
  refine ⟨State.EncodingInv.inv ?_ (by simp [Phase.encoding, afterFreq]), rfl⟩
  exact {
    caps := hs.memory.1, status := hs.statusInv, memory := hs.memory.2, count := hlen ▸ hrec
    length := (Nat.mod_eq_of_lt (show (recordsOf xs).length < 2 ^ 8 by omega)).symm
    encN_pos := Nat.pos_of_ne_zero hpos, encN_le := hcap, payStart := rfl, payEnd := rfl
    input := fun i hi => by
      rw [show (afterFreq xs (recordsOf xs) s).symIn i = s.symIn i from rfl, hget i hi,
        List.getElem?_eq_getElem (hlen ▸ hi)]; rfl
    nnodes := fun _ => rfl, maxLen := fun _ => rfl, outLen := fun _ => rfl
    descending := fun h => absurd rfl h
    tree := nofun, code := nofun, maxLen_pos := nofun, outLen_le := nofun, output := nofun }

/-- In the encoding phases FREQ_TAB has NSYM records (R54). -/
theorem State.EncodingInv.records_eq {s : State} (h : s.EncodingInv) : s.records = s.freqTab :=
  List.take_of_length_le h.length.le

/-- SORT reorders the records, which count the same input (R172). -/
theorem sortStage_good {s : State} (hs : s.Inv) (hp : s.phase = .counted) : (sortStage s).Good .sorted := by
  have h := hs.encodingInv (by simp [Phase.encoding, hp])
  refine ⟨State.EncodingInv.inv ?_ (by simp [Phase.encoding]), rfl⟩
  exact {
    caps := h.caps, status := h.status, memory := h.memory
    count := h.count.perm (h.records_eq ▸ sortDesc_perm _ _)
    length := by rw [← h.length, ← h.records_eq]; exact sortDesc_length _ _
    encN_pos := h.encN_pos, encN_le := h.encN_le, payStart := rfl, payEnd := rfl, input := h.input
    nnodes := fun _ => h.nnodes (.inl hp), maxLen := fun _ => h.maxLen (.inl hp), outLen := fun _ => rfl
    descending := fun _ => sortDesc_pairwise _ _
    tree := nofun, code := nofun, maxLen_pos := nofun, outLen_le := nofun, output := nofun }

/-- BUILD leaves the tree of the records, whose size NNODES holds (R48, R200). -/
theorem buildStage_good {s : State} (hs : s.Inv) (hp : s.phase = .sorted) : (buildStage s).Good .tree := by
  refine Stage.good_of_unchanged hs (fun e t h => (buildStage_eq_raised h).1) fun t h => ?_
  obtain ⟨-, rfl⟩ := buildStage_eq_ok.mp h
  have h := hs.encodingInv (by simp [Phase.encoding, hp])
  have hn := s.nsym.isLt
  have hlen : (buildNodes s.records).length < 2 ^ 32 := by
    rw [h.records_eq, buildNodes_length (h.count.ne_nil h.encN_pos), h.length]
    split <;> omega
  refine ⟨State.EncodingInv.inv ?_ (by simp [Phase.encoding]), rfl⟩
  exact {
    caps := h.caps, status := h.status, memory := h.memory, count := h.count, length := h.length
    encN_pos := h.encN_pos, encN_le := h.encN_le, payStart := rfl, payEnd := rfl, input := h.input
    nnodes := nofun, maxLen := fun _ => h.maxLen (.inr (.inl hp)), outLen := fun _ => rfl
    descending := fun _ => h.descending (by simp [hp])
    tree := fun _ => ⟨congrArg buildNodes h.records_eq, Nat.mod_eq_of_lt hlen⟩
    code := nofun, maxLen_pos := nofun, outLen_le := nofun, output := nofun }

/-- The tree of the invariant gives a code of at least one bit (R208). -/
theorem State.EncodingInv.one_le_maxLength {s : State} (h : s.EncodingInv) (hp : s.phase.nodeValid = true) :
    1 ≤ maxLength s.codeTable := by
  obtain ⟨hnodes, hnnodes⟩ := h.tree hp
  have hn := s.nsym.isLt
  unfold State.codeTable
  rw [hnnodes, hnodes, ← h.length]
  exact Machine.one_le_maxLength (h.count.ne_nil h.encN_pos) (by rw [h.length]; omega)

/-- CODEGEN leaves the code table of the tree, and MAXLEN its longest length (R44, R205). -/
theorem codegenStage_good {s : State} (hs : s.Inv) (hp : s.phase = .tree) : (codegenStage s).Good .coded := by
  refine Stage.good_of_unchanged hs (fun e t h => (codegenStage_eq_raised h).1) fun t h => ?_
  obtain ⟨hle, rfl⟩ := codegenStage_eq_ok.mp h
  have h := hs.encodingInv (by simp [Phase.encoding, hp])
  have hv : s.phase.nodeValid = true := by rw [hp]; rfl
  have hmax : (BitVec.ofNat 6 (maxLength s.codeTable)).toNat = maxLength s.codeTable :=
    Nat.mod_eq_of_lt (by omega)
  refine ⟨State.EncodingInv.inv ?_ (by simp [Phase.encoding]), rfl⟩
  exact {
    caps := h.caps, status := h.status, memory := h.memory, count := h.count, length := h.length
    encN_pos := h.encN_pos, encN_le := h.encN_le, payStart := rfl, payEnd := rfl, input := h.input
    nnodes := nofun, maxLen := nofun, outLen := fun _ => rfl
    descending := fun _ => h.descending (by simp [hp])
    tree := fun _ => h.tree hv
    code := fun _ => ⟨rfl, hmax⟩, maxLen_pos := fun _ => (h.one_le_maxLength hv).trans_eq hmax.symm
    outLen_le := nofun, output := nofun }

end Sys2Proof.Machine
end

section
/-! The PACK, PARSE and MATCH stages end well on a state of the invariant (R230, R260, R264), so every command, and every step,
keeps the invariant. -/

namespace Sys2Proof.Machine

/-! ### PACK, PARSE, MATCH and CLEAR -/

/-- Bytes written inside BYTE_OUT leave memory in order. -/
theorem State.memoryInv.writeByteOut {s : State} {out : List Byte} (h : s.memoryInv) (hle : out.length ≤ s.byteCap) :
    State.memoryInv { s with mem := Memory.writeBytes s.mem byteOutBase out } := by
  obtain ⟨hwf, hlisted⟩ := h
  refine ⟨Memory.writeBytes_wf hwf _ _, fun c hc => ?_⟩
  rcases Memory.mem_writeBytes hc with hc | hc
  · exact .inr (.inr (.inr ⟨hc.1, hc.2.trans_le (Nat.add_le_add_left hle _)⟩))
  · exact hlisted c hc

/-- Words written inside SYM_OUT leave memory in order. -/
theorem State.memoryInv.writeSymOut {s : State} {out : List Word} (h : s.memoryInv) (hle : out.length ≤ s.symCap) :
    State.memoryInv { s with mem := Memory.writeWords s.mem symOutBase out } := by
  obtain ⟨hwf, hlisted⟩ := h
  refine ⟨Memory.writeWords_wf hwf _ _, fun c hc => ?_⟩
  rcases Memory.mem_writeWords hc with hc | hc
  · exact .inr (.inl ⟨hc.1, hc.2.trans_le (Nat.add_le_add_left (Nat.mul_le_mul_left 4 hle) _)⟩)
  · exact hlisted c hc

/-- Discarding bytes leaves memory in order. -/
theorem State.memoryInv.forget {s : State} (h : s.memoryInv) (lo hi : Nat) :
    State.memoryInv { s with mem := Memory.forget s.mem lo hi } := by
  obtain ⟨hwf, hlisted⟩ := h
  exact ⟨Memory.forget_wf hwf _ _, fun c hc => hlisted c (Memory.mem_forget hc)⟩

/-- A word outside the region a stage touches reads as before. -/
theorem State.SameMemoryOutside.readWord {lo hi a : Nat} {s t : State} (h : s.SameMemoryOutside lo hi t)
    (ha : a + 4 ≤ lo ∨ hi ≤ a) : Memory.readWord t.mem a = Memory.readWord s.mem a :=
  Memory.readWord_congr fun k hk => h.2 _ (by unfold within; omega)

/-- PACK leaves SYM_IN as it was. -/
theorem symIn_afterPack {s : State} {i : Nat} (out : List Byte) (hcaps : capsOk s.symCap s.byteCap = true) (hi : i < s.symCap) :
    (afterPack out s).symIn i = s.symIn i := by
  obtain ⟨⟨-, hsym⟩, -⟩ := (capsOk_iff _ _).mp hcaps
  exact (afterPack_outside out s).readWord (.inl (by unfold symInBase; omega))

/-- What PACK wrote is in BYTE_OUT. -/
theorem byteOut_afterPack {s : State} {out : List Byte} {j : Nat} (hj : j < out.length) :
    (afterPack out s).byteOut j = out[j]? := by
  show Memory.read (Memory.writeBytes s.mem byteOutBase out) (byteOutBase + j) = _
  rw [Memory.read_writeBytes, if_pos ⟨Nat.le_add_right _ _, Nat.add_lt_add_left hj _⟩, Nat.add_sub_cancel_left]

/-- OUT_LEN after PACK is the number of bytes written. -/
theorem outLen_afterPack {s : State} {out : List Byte} (hcaps : capsOk s.symCap s.byteCap = true) (hle : out.length ≤ s.byteCap) :
    (afterPack out s).outLen.toNat = out.length := by
  obtain ⟨-, -, hbyte⟩ := (capsOk_iff _ _).mp hcaps
  exact Nat.mod_eq_of_lt (by omega)

/-- OUT_LEN after MATCH is the number of symbols written. -/
theorem outLen_afterMatch {s : State} {out : List Sym} (hcaps : capsOk s.symCap s.byteCap = true) (hle : out.length ≤ s.symCap) :
    (afterMatch out s).outLen.toNat = out.length := by
  obtain ⟨⟨-, hsym⟩, -⟩ := (capsOk_iff _ _).mp hcaps
  exact Nat.mod_eq_of_lt (by omega)

/-- MATCH leaves BYTE_IN as it was. -/
theorem byteIn_afterMatch {s : State} {out : List Sym} (hcaps : capsOk s.symCap s.byteCap = true) (hle : out.length ≤ s.symCap)
    (j : Nat) : (afterMatch out s).byteIn j = s.byteIn j := by
  obtain ⟨⟨-, hsym⟩, -⟩ := (capsOk_iff _ _).mp hcaps
  exact (afterMatch_outside out s).2 _ (by unfold within byteInBase; omega)

/-- What MATCH wrote is in SYM_OUT. -/
theorem symOut_afterMatch {s : State} {out : List Sym} {i : Nat} (hi : i < out.length) :
    (afterMatch out s).symOut i = (out.map symWord)[i]? :=
  Memory.readWord_writeWords _ _ _ _ (by simpa using hi)

/-- PACK leaves its container in BYTE_OUT, and the input where it was (R47, R230). -/
theorem packStage_good {s : State} (hs : s.Inv) (hp : s.phase = .coded ∨ s.phase = .packed) : (packStage s).Good .packed := by
  apply Stage.good_of
  · intro t ht
    obtain ⟨out, hout, rfl⟩ := packStage_eq_ok.mp ht
    have h := hs.encodingInv (by rcases hp with hp | hp <;> simp [Phase.encoding, hp])
    have hle := packBytes_length hout
    have hlen := outLen_afterPack h.caps hle
    refine ⟨State.EncodingInv.inv ?_ (by simp [Phase.encoding, afterPack]), rfl⟩
    exact {
      caps := h.caps, status := h.status, memory := h.memory.writeByteOut hle, count := h.count, length := h.length
      encN_pos := h.encN_pos, encN_le := h.encN_le, payStart := rfl, payEnd := rfl
      input := fun i hi => by rw [symIn_afterPack out h.caps (hi.trans_le h.encN_le)]; exact h.input i hi
      nnodes := nofun, maxLen := nofun, outLen := fun e => absurd rfl e
      descending := fun _ => h.descending (by rcases hp with hp | hp <;> simp [hp])
      tree := fun _ => h.tree (by rcases hp with hp | hp <;> rw [hp] <;> rfl)
      code := fun _ => h.code hp, maxLen_pos := fun _ => h.maxLen_pos hp, outLen_le := fun _ => hlen.trans_le hle
      output := fun _ j hj => by
        have hj' := hj.trans_eq hlen
        rw [byteOut_afterPack hj', List.getElem?_eq_getElem hj']; rfl }
  · intro e t ht
    obtain ⟨he, rfl⟩ := packStage_eq_raised.mp ht
    obtain ⟨hcaps, hm⟩ := hs.memory
    exact ⟨⟨hcaps, hm.forget _ _⟩, fun hpr => absurd hpr (by rw [packStage_failures s e _ ht]; simp)⟩

theorem State.inputBytes_eq_some {s : State} {n : Nat} {bs : List Byte} (h : s.inputBytes 0 n = some bs) :
    bs.length = n ∧ ∀ k < n, s.byteIn k = bs[k]? := by
  simpa using collect_eq_some.mp h

/-- PARSE leaves a payload region inside the container it read (R46, R260). -/
theorem parseStage_good {s : State} (hs : s.Inv) : (parseStage s).Good .parsed := by
  refine Stage.good_of_unchanged hs (fun e t h => (parseStage_eq_raised h).1) fun t h => ?_
  obtain ⟨c, es, hcap, h2, hc, hes, rfl⟩ := parseStage_eq_ok.mp h
  obtain ⟨hlen, hget⟩ := State.inputBytes_eq_some hc
  obtain ⟨hcount, hfit, hcodes⟩ := parseTree_ok hes
  obtain ⟨hcaps, hm⟩ := hs.memory
  have hn := s.inLen.isLt
  have hbody : (bodyOf c).length = c.length - 2 := by simp [bodyOf]
  have hstart : (afterParse (trailerIn c) es c.length s).payStart.toNat =
      (trailerIn c).count.toNat * entryBits (trailerIn c).mode (trailerIn c).maxLen.toNat / 8 :=
    Nat.mod_eq_of_lt (by omega)
  have hend : (afterParse (trailerIn c) es c.length s).payEnd.toNat = c.length - 2 := Nat.mod_eq_of_lt (by omega)
  refine ⟨State.DecodingInv.inv ?_ (by simp [Phase.decoding, afterParse]), rfl⟩
  exact {
    caps := hcaps, status := hs.statusInv, memory := hm, encN := rfl, nnodes := rfl
    pay_le := by rw [hstart, hend]; omega
    payEnd_le := by rw [hend]; exact (by omega : c.length - 2 + 2 ≤ s.byteCap)
    length := (sortDesc_length _ _).trans hcount
    codes := fun e he => hcodes e ((sortDesc_perm _ _).mem_iff.mp he)
    descending := sortDesc_pairwise _ _
    input := fun j _ hj => by
      rw [hend] at hj
      rw [show (afterParse (trailerIn c) es c.length s).byteIn j = s.byteIn j from rfl, hget j (by omega),
        List.getElem?_eq_getElem (by omega)]; rfl
    outLen := fun _ => rfl, outLen_le := nofun, output := nofun }

/-- MATCH leaves its symbols in SYM_OUT, and the payload where it was (R42, R264). -/
theorem matchStage_good {s : State} (hs : s.Inv) (hp : s.phase = .parsed ∨ s.phase = .decoded) :
    (matchStage s).Good .decoded := by
  apply Stage.good_of
  · intro t ht
    obtain ⟨out, hout, rfl⟩ := matchStage_eq_ok.mp ht
    have h := hs.decodingInv (by rcases hp with hp | hp <;> simp [Phase.decoding, hp])
    have hle := matchSymbols_length hout
    have hlen := outLen_afterMatch h.caps hle
    refine ⟨State.DecodingInv.inv ?_ (by simp [Phase.decoding, afterMatch]), rfl⟩
    exact {
      caps := h.caps, status := h.status, memory := h.memory.writeSymOut (by simpa using hle), encN := h.encN
      nnodes := h.nnodes, pay_le := h.pay_le, payEnd_le := h.payEnd_le, length := h.length, codes := h.codes
      descending := h.descending
      input := fun j hj hj' => by rw [byteIn_afterMatch h.caps hle]; exact h.input j hj hj'
      outLen := fun e => absurd rfl e
      outLen_le := fun _ => hlen.trans_le hle
      output := fun _ i hi => by
        have hi' := hi.trans_eq hlen
        rw [symOut_afterMatch hi', List.getElem?_eq_getElem (by simpa using hi')]; rfl }
  · intro e t ht
    obtain ⟨he, rfl⟩ := matchStage_eq_raised.mp ht
    obtain ⟨hcaps, hm⟩ := hs.memory
    exact ⟨⟨hcaps, hm.forget _ _⟩, fun hpr => absurd hpr (by rw [matchStage_failures s e _ ht]; simp)⟩

theorem clearResults_inv {s : State} (hs : s.Inv) : (clearResults s).Inv := by
  obtain ⟨hcaps, hm⟩ := hs.memory
  refine ⟨hcaps, hs.statusInv, ?_, ?_, hm, ?_⟩
  · simp [State.resultsInv, Phase.encoding, Phase.decoding]
  · simp [State.tablesInv, Phase.encoding, Phase.decoding, Phase.nodeValid]
  · simp [State.buffersInv, Phase.encoding, Phase.decoding]

theorem compressStage_good {s : State} (hs : s.Inv) : (compressStage s).Good .packed :=
  ((((freqStage_good hs).andThen fun _ h hp => sortStage_good h hp).andThen fun _ h hp => buildStage_good h hp).andThen
    fun _ h hp => codegenStage_good h hp).andThen fun _ h hp => packStage_good h (.inl hp)

/-- From a state of the invariant every command's stage ends well. -/
theorem stageOf_good (i : Instr) {s : State} (hs : s.Inv) : ∃ p, (stageOf i s).Good p := by
  cases i with
  | freq => exact ⟨_, freqStage_good hs⟩
  | sort => exact ⟨_, requirePhase_good hs fun h => sortStage_good hs (by simpa using h)⟩
  | build => exact ⟨_, requirePhase_good hs fun h => buildStage_good hs (by simpa using h)⟩
  | codegen => exact ⟨_, requirePhase_good hs fun h => codegenStage_good hs (by simpa using h)⟩
  | pack => exact ⟨_, requirePhase_good hs fun h => packStage_good hs (by simpa using h)⟩
  | compress => exact ⟨_, compressStage_good hs⟩
  | parse => exact ⟨_, parseStage_good hs⟩
  | matchCodes => exact ⟨_, requirePhase_good hs fun h => matchStage_good hs (by simpa using h)⟩
  | decompress => exact ⟨_, (parseStage_good hs).andThen fun _ h hp => matchStage_good h (.inl hp)⟩
  | clear => exact ⟨.idle, clearResults_inv hs, rfl⟩

/-! ### Every step -/

theorem engineTurn_keeps_inv {s t : State} (hs : s.Inv) (h : engineTurn s = .next t) : t.Inv := by
  rcases engineTurn_eq_next h with rfl | ⟨i, h⟩ | h
  · exact hs
  · obtain ⟨p, hg⟩ := stageOf_good i hs
    exact complete_keeps_inv hg ((exec_eq_complete i s).symm.trans h)
  · exact complete_keeps_inv (p := .idle) (r := .raised .illegalCommand s) ⟨hs.memory, fun _ => hs⟩ h

theorem hostWrite_keeps_inv {w : Width} {a : Addr} {v : Word} {s t : State} (hs : s.Inv) (h : hostWrite w a v s = .next t) :
    t.Inv := by
  obtain ⟨hcaps, hm⟩ := hs.memory
  rcases hostWrite_eq_next h with rfl | rfl | rfl | ⟨hr, ha, rfl⟩ | ⟨hr, rfl⟩
  · exact hs
  · exact hs.cmdWrite v
  · exact hs
  · exact hs.with_mem (hm.symInWrite v hr ha hcaps) (Memory.grows_writeWord _ _ _)
  · exact hs.with_mem (hm.byteInWrite v hr hcaps) (grows_byteInWrite _ _ _ _)

/-- Settles O58: each stage ends well from the invariant's states, and the host's events keep it too. -/
theorem stepKeepsInv : Obligations.StepKeepsInv := fun _ _ hs h =>
  step_keeps (P := State.Inv) (fun _ _ h => h) (fun _ _ _ h => h) (fun _ _ _ _ _ => hostWrite_keeps_inv)
    (fun _ _ => engineTurn_keeps_inv) (fun _ h => h.resetInput) hs h

end Sys2Proof.Machine
end

section
/-! What a completed command leaves unchanged, and OUT_LEN and ENC_N after it (R41, R42, R47, R49, R82, R92). -/

namespace Sys2Proof.Machine

/-! ### Completion on top of a stage -/

/-- A completed command leaves the state of its stage but for STATUS, PHASE and the result registers. -/
theorem exec_leaves {i : Instr} {s t : State} (h : exec i s = .next t) :
    ∃ u, (∀ P, (stageOf i s).Leaves P → P u) ∧ u.SameMemory { t with status := u.status } := by
  rw [exec_eq_complete] at h
  rcases complete_eq_next.mp h with ⟨u, hu, rfl⟩ | ⟨e, u, hu, rfl⟩
  · exact ⟨u, fun P hP => hP.of_ok hu, {}, rfl⟩
  · refine ⟨u, fun P hP => hP.of_raised hu, ?_⟩
    cases he : e.isProtocol
    · rw [raiseError_of_failure he]; exact ⟨{}, rfl⟩
    · rw [raiseError_of_protocol he]; exact ⟨{}, rfl⟩

/-- ERR = 0 means the stage ran (R292). -/
theorem exec_succeeded {i : Instr} {s t : State} (h : exec i s = .next t) (herr : t.status.err = false) :
    ∃ u, stageOf i s = .ok u ∧ t = completeOk u := by
  rcases exec_eq_next h with h | rfl | ⟨e, u, -, -, rfl⟩
  · exact h
  · cases herr
  · cases herr

/-! ### Frames -/

/-- A successful PACK or COMPRESS wrote BYTE_OUT[0..OUT_LEN) only (R92). -/
theorem stageOf_packs_outside {i : Instr} {s t : State} (hi : i = .pack ∨ i = .compress)
    (hcaps : capsOk s.symCap s.byteCap = true) (h : stageOf i s = .ok t) :
    s.SameMemoryOutside 0x400000 (0x400000 + t.outLen.toNat) t := by
  obtain ⟨u, out, hu, hout, rfl⟩ := stageOf_packs hi h
  rw [outLen_afterPack (by rw [hu.1.symCap, hu.1.byteCap]; exact hcaps) (packBytes_length hout)]
  exact .trans hu (afterPack_outside out u)

/-- A successful MATCH or DECOMPRESS wrote SYM_OUT[0..OUT_LEN) only (R92). -/
theorem stageOf_matches_outside {i : Instr} {s t : State} (hi : i = .matchCodes ∨ i = .decompress)
    (hcaps : capsOk s.symCap s.byteCap = true) (h : stageOf i s = .ok t) :
    s.SameMemoryOutside 0x200000 (0x200000 + 4 * t.outLen.toNat) t := by
  obtain ⟨u, out, hu, hout, rfl⟩ := stageOf_matches hi h
  rw [outLen_afterMatch (by rw [hu.1.symCap, hu.1.byteCap]; exact hcaps) (matchSymbols_length hout)]
  exact .trans hu (afterMatch_outside out u)

/-- Settles O50: the stage's frame, which completion does not widen. -/
theorem commandFrames : Obligations.CommandFrames := by
  intro i s t hcaps h
  obtain ⟨u, hu, hdone⟩ := exec_leaves h
  have hin := (hu _ (stageOf_sameInputs i s)).trans hdone.1
  have hread : ∀ a, Memory.read t.mem a = Memory.read u.mem a := fun a => congrArg (Memory.read · a) hdone.2
  refine ⟨hin.inLen, hin.cmd, hin.symCap, hin.byteCap, hin.host, hin.lastRead, hin.draws, ?_, ?_, ?_, ?_, ?_⟩
  · intro hi
    exact ((hu _ (stageOf_memory hi s)).trans hdone).2
  · intro hi a ha
    exact (hread a).trans ((hu _ (stageOf_byteOut hi s)).2 a ha)
  · intro hi herr
    obtain ⟨v, hv, rfl⟩ := exec_succeeded h herr
    exact (stageOf_packs_outside hi hcaps hv).2
  · intro hi a ha
    exact (hread a).trans ((hu _ (stageOf_symOut hi s)).2 a ha)
  · intro hi herr
    obtain ⟨v, hv, rfl⟩ := exec_succeeded h herr
    exact (stageOf_matches_outside hi hcaps hv).2

/-! ### OUT_LEN and ENC_N -/

theorem requirePhase_eq_ok {allowed : List Phase} {f : State → Stage} {s t : State} (h : requirePhase allowed f s = .ok t) :
    f s = .ok t := by
  rcases requirePhase_cases allowed f s with ⟨-, e⟩ | e
  · exact e.symm.trans h
  · cases e.symm.trans h

/-- The commands that write no output leave OUT_LEN at 0 (R42). -/
theorem stageOf_outLen {i : Instr} {s t : State} (hi : i ∉ [Instr.pack, .compress, .matchCodes, .decompress])
    (h : stageOf i s = .ok t) : t.outLen = 0 := by
  cases i with
  | freq => obtain ⟨xs, -, -, -, -, -, rfl⟩ := freqStage_eq_ok.mp h; rfl
  | sort => cases requirePhase_eq_ok h; rfl
  | build => obtain ⟨-, rfl⟩ := buildStage_eq_ok.mp (requirePhase_eq_ok h); rfl
  | codegen => obtain ⟨-, rfl⟩ := codegenStage_eq_ok.mp (requirePhase_eq_ok h); rfl
  | parse => obtain ⟨c, es, -, -, -, -, rfl⟩ := parseStage_eq_ok.mp h; rfl
  | clear => cases h; rfl
  | pack | compress | matchCodes | decompress => simp at hi

/-- SORT, BUILD, CODEGEN and PACK keep ENC_N (R47). -/
theorem stageOf_keeps_encN {i : Instr} {s t : State} (hi : i ∈ [Instr.sort, .build, .codegen, .pack])
    (h : stageOf i s = .ok t) : t.encN = s.encN := by
  cases i with
  | sort => cases requirePhase_eq_ok h; rfl
  | build => obtain ⟨-, rfl⟩ := buildStage_eq_ok.mp (requirePhase_eq_ok h); rfl
  | codegen => obtain ⟨-, rfl⟩ := codegenStage_eq_ok.mp (requirePhase_eq_ok h); rfl
  | pack => obtain ⟨out, -, rfl⟩ := packStage_eq_ok.mp (requirePhase_eq_ok h); rfl
  | freq | compress | parse | matchCodes | decompress | clear => simp at hi

/-- FREQ and COMPRESS set ENC_N to IN_LEN (R47). -/
theorem stageOf_encN {i : Instr} {s t : State} (hi : i = .freq ∨ i = .compress) (h : stageOf i s = .ok t) :
    t.encN = s.inLen := by
  rcases hi with rfl | rfl
  · obtain ⟨xs, -, -, -, -, -, rfl⟩ := freqStage_eq_ok.mp h; rfl
  · obtain ⟨u4, h, hpack⟩ := Stage.andThen_eq_ok.mp h
    obtain ⟨u3, h, hcodegen⟩ := Stage.andThen_eq_ok.mp h
    obtain ⟨u2, h, hbuild⟩ := Stage.andThen_eq_ok.mp h
    obtain ⟨u1, hfreq, hsort⟩ := Stage.andThen_eq_ok.mp h
    obtain ⟨out, -, rfl⟩ := packStage_eq_ok.mp hpack
    obtain ⟨-, rfl⟩ := codegenStage_eq_ok.mp hcodegen
    obtain ⟨-, rfl⟩ := buildStage_eq_ok.mp hbuild
    cases hsort
    obtain ⟨xs, -, -, -, -, -, rfl⟩ := freqStage_eq_ok.mp hfreq
    rfl

/-- PARSE and CLEAR set ENC_N to 0 (R47). -/
theorem stageOf_clears_encN {i : Instr} {s t : State} (hi : i = .parse ∨ i = .clear) (h : stageOf i s = .ok t) :
    t.encN = 0 := by
  rcases hi with rfl | rfl
  · obtain ⟨c, es, -, -, -, -, rfl⟩ := parseStage_eq_ok.mp h; rfl
  · cases h; rfl

/-- Settles O51: by how the command completed. -/
theorem outLenAndEncN : Obligations.OutLenAndEncN := by
  intro i s t h
  rcases exec_eq_next h with ⟨u, hu, rfl⟩ | rfl | ⟨e, u, he, -, rfl⟩
  · refine ⟨nofun, ?_, fun _ hi => (completeOk_encN u).trans (stageOf_encN hi hu),
      fun _ hi => (completeOk_encN u).trans (stageOf_keeps_encN hi hu), ?_⟩
    · rintro - (herr | hi)
      · cases herr
      · exact (completeOk_outLen u).trans (stageOf_outLen hi hu)
    · rintro - (herr | hi)
      · cases herr
      · exact (completeOk_encN u).trans (stageOf_clears_encN hi hu)
  · exact ⟨fun _ => ⟨rfl, rfl⟩, fun h => absurd rfl h, nofun, nofun, fun h => absurd rfl h⟩
  · refine ⟨fun h => ?_, fun _ _ => rfl, nofun, nofun, fun _ _ => rfl⟩
    rw [Err.code_eq_twelve.mp h] at he
    cases he

end Sys2Proof.Machine
end

section
/-! One step that is a host access: what each window returns and what a write does (R32-R61, R80-R93). -/

namespace Sys2Proof.Machine

/-! ### The step of an access -/

theorem toNat_addr {a : Nat} (h : a < 0x800000) : (BitVec.ofNat 23 a).toNat = a := Nat.mod_eq_of_lt h

theorem accessOk_w32 (s : State) {a : Nat} (h : a < 0x800000) (h4 : a % 4 = 0) : accessOk s .w32 (BitVec.ofNat 23 a) = true := by
  show ((BitVec.ofNat 23 a).toNat % 4 == 0) = true
  rw [toNat_addr h, h4]; rfl

theorem readValue_w32 (s : State) (x : Addr) : readValue s .w32 x = readWordAt s x.toNat := rfl

/-- A permitted 32-bit read returns what the address map says (R88). -/
theorem step_read32 {s : State} {a : Nat} {rest : List HostEvent} {v : Word} (hh : s.host = r32 a :: rest) (h : a < 0x800000)
    (h4 : a % 4 = 0) (hv : readWordAt s a = v) : step s = .next (afterRead rest v s) := by
  subst hv
  have hr : hostRead .w32 (BitVec.ofNat 23 a) { s with host := rest } = .next (afterRead rest (readWordAt s a) s) := by
    rw [hostRead_ok (accessOk_w32 _ h h4), readValue_w32, toNat_addr h]; rfl
  unfold step
  rw [hh]
  exact hr

/-- A permitted 8-bit read returns its byte (R87, R88). -/
theorem step_read8 {s : State} {a : Nat} {rest : List HostEvent} {v : Word} (hh : s.host = r8 a :: rest) (h : a < 0x800000)
    (hr : s.region a = .byteIn ∨ s.region a = .byteOut) (hv : readByteAt s a = v) : step s = .next (afterRead rest v s) := by
  subst hv
  have ha : accessOk { s with host := rest } .w8 (BitVec.ofNat 23 a) = true := by
    show (s.region (BitVec.ofNat 23 a).toNat == .byteIn || s.region (BitVec.ofNat 23 a).toNat == .byteOut) = true
    rw [toNat_addr h]
    rcases hr with hr | hr <;> rw [hr] <;> rfl
  have hr : hostRead .w8 (BitVec.ofNat 23 a) { s with host := rest } = .next (afterRead rest (readByteAt s a) s) := by
    rw [hostRead_ok ha, readValue, toNat_addr h]; rfl
  unfold step
  rw [hh]
  exact hr

/-- A permitted 32-bit write does what the address map says (R80). -/
theorem step_write32 {s : State} {a : Nat} {v : Word} {rest : List HostEvent}
    (hh : s.host = .write .w32 (BitVec.ofNat 23 a) v :: rest) (h : a < 0x800000) (h4 : a % 4 = 0) :
    step s = writeAt .w32 a v { s with host := rest } := by
  have hw : hostWrite .w32 (BitVec.ofNat 23 a) v { s with host := rest } = writeAt .w32 a v { s with host := rest } := by
    rw [hostWrite_ok v (accessOk_w32 _ h h4), toNat_addr h]
  unfold step
  rw [hh]
  exact hw

/-! ### What a window returns -/

section
variable {s : State} {a : Nat}

theorem readWordAt_csr (h : s.region a = .csr) : readWordAt s a = csrRead s a := by unfold readWordAt; rw [h]
theorem readWordAt_reserved (h : s.region a = .reserved) : readWordAt s a = 0 := by unfold readWordAt; rw [h]
theorem readWordAt_freqTab (h : s.region a = .freqTab) : readWordAt s a =
    tableRead s s.phase.freqTabValid s.nsym.toNat 2 s.freqTab FreqRecord.window ((a - 0x001000) / 4) := by
  unfold readWordAt; rw [h]; rfl
theorem readWordAt_node (h : s.region a = .node) : readWordAt s a =
    tableRead s s.phase.nodeValid s.nnodes.toNat 4 s.nodeTab Node.window ((a - 0x002000) / 4) := by
  unfold readWordAt; rw [h]; rfl
theorem readWordAt_codeTab (h : s.region a = .codeTab) : readWordAt s a =
    tableRead s s.phase.codeTabValid s.nsym.toNat 4 s.codeTab CodeEntry.window ((a - 0x004000) / 4) := by
  unfold readWordAt; rw [h]; rfl
theorem readWordAt_symIn (h : s.region a = .symIn) :
    readWordAt s a = (Memory.readWord s.mem a).getD (Config.freeWord s.draws) := by
  unfold readWordAt; rw [h]; rfl
theorem readWordAt_symOut (h : s.region a = .symOut) :
    readWordAt s a = whenIdle s ((Memory.readWord s.mem a).getD (Config.freeWord s.draws)) := by
  unfold readWordAt; rw [h]; rfl
theorem readWordAt_byteIn (h : s.region a = .byteIn) : readWordAt s a = lanesRead s false a (0x300000 + s.byteCap) := by
  unfold readWordAt; rw [h]; rfl
theorem readWordAt_byteOut (h : s.region a = .byteOut) :
    readWordAt s a = lanesRead s s.status.busy a (0x400000 + s.byteCap) := by
  unfold readWordAt; rw [h]; rfl

theorem readByteAt_byteIn (h : s.region a = .byteIn) :
    readByteAt s a = (laneRead s false a (0x300000 + s.byteCap) 0).setWidth 32 := by
  unfold readByteAt; rw [h]; rfl
theorem readByteAt_byteOut (h : s.region a = .byteOut) :
    readByteAt s a = (laneRead s s.status.busy a (0x400000 + s.byteCap) 0).setWidth 32 := by
  unfold readByteAt; rw [h]; rfl

end

theorem whenIdle_idle {s : State} (h : s.status.busy = false) (v : Word) : whenIdle s v = v := by simp [whenIdle, h]

theorem whenIdle_busy {s : State} (h : s.status.busy = true) (v : Word) : whenIdle s v = Config.freeWord s.draws := by
  rw [whenIdle, if_pos h]; rfl

/-- The regions below the buffers do not depend on the parameters (R80). -/
theorem region_low (s : State) (a : Nat) :
    (a < 0x100 → s.region a = .csr) ∧ (within a 0x001000 0x001800 → s.region a = .freqTab) ∧
    (within a 0x002000 0x004000 → s.region a = .node) ∧ (within a 0x004000 0x005000 → s.region a = .codeTab) := by
  unfold within
  rcases region_cases s a with e | e | e | e | e | e | e | e | e
  all_goals
    obtain ⟨e, hw⟩ := e
    rw [e]
    simp only [reduceCtorEq, imp_false, implies_true, true_and, and_true]
    try unfold within at hw
    omega

/-! ### Control and status registers -/

/-- The registers that always read as they are (R32, R60). -/
theorem csrRead_always {s : State} {off : Nat} {v : Word} (h : (off, v) ∈ csrAlways s) :
    csrRead s off = v ∧ off < 0x100 ∧ off % 4 = 0 := by
  simp only [csrAlways, List.mem_cons, Prod.mk.injEq, List.not_mem_nil, or_false] at h
  rcases h with ⟨rfl, rfl⟩ | ⟨rfl, rfl⟩ | ⟨rfl, rfl⟩ | ⟨rfl, rfl⟩ | ⟨rfl, rfl⟩ | ⟨rfl, rfl⟩ <;>
    exact ⟨rfl, by decide, by decide⟩

/-- PHASE and the result registers read as they are while idle, and as a free value while a command is pending (R32, R60). -/
theorem csrRead_results {s : State} {off : Nat} {v : Word} (h : (off, v) ∈ csrResults s) :
    csrRead s off = whenIdle s v ∧ off < 0x100 ∧ off % 4 = 0 := by
  simp only [csrResults, List.mem_cons, Prod.mk.injEq, List.not_mem_nil, or_false] at h
  rcases h with ⟨rfl, rfl⟩ | ⟨rfl, rfl⟩ | ⟨rfl, rfl⟩ | ⟨rfl, rfl⟩ | ⟨rfl, rfl⟩ | ⟨rfl, rfl⟩ | ⟨rfl, rfl⟩ | ⟨rfl, rfl⟩ |
    ⟨rfl, rfl⟩ <;> exact ⟨rfl, by decide, by decide⟩

theorem step_readCsr {s : State} {off : Nat} {rest : List HostEvent} {v : Word} (hh : s.host = r32 off :: rest)
    (hv : csrRead s off = v) (h : off < 0x100) (h4 : off % 4 = 0) : step s = .next (afterRead rest v s) :=
  have hr : s.region off = .csr := (region_low s off).1 h
  step_read32 hh (by omega) h4 ((readWordAt_csr hr).trans hv)

/-- Settles O12: the CSR block's table of values, entry by entry. -/
theorem csrReadsReturnRegisters : Obligations.CsrReadsReturnRegisters := by
  intro s off v rest hh
  have hresult : ∀ w, (off, w) ∈ csrResults s → s.status.busy = false → step s = .next (afterRead rest w s) := by
    intro w hw hidle
    obtain ⟨hv, hlt, h4⟩ := csrRead_results hw
    exact step_readCsr hh (hv.trans (whenIdle_idle hidle w)) hlt h4
  refine ⟨fun hv => ?_, hresult v, fun p n hpn hp hoff => ?_⟩
  · obtain ⟨hv, hlt, h4⟩ := csrRead_always hv
    exact step_readCsr hh hv hlt h4
  · have hn : s.phase.word = n := by
      subst hp
      simp only [List.mem_cons, Prod.mk.injEq, List.not_mem_nil, or_false] at hpn
      rcases hpn with ⟨e, rfl⟩ | ⟨e, rfl⟩ | ⟨e, rfl⟩ | ⟨e, rfl⟩ | ⟨e, rfl⟩ | ⟨e, rfl⟩ | ⟨e, rfl⟩ | ⟨e, rfl⟩
      all_goals rw [e]; rfl
    exact hresult n (by simp [csrResults, hoff, hn])

/-- Every bit of the STATUS word is in its place, whichever of its 256 values STATUS has (R36). -/
theorem Status.word_fields (st : Status) :
    st.word.getLsbD 0 = st.busy ∧ st.word.getLsbD 1 = st.done ∧ st.word.getLsbD 2 = st.err ∧ st.word.getLsbD 3 = st.ovr ∧
      st.word.extractLsb' 4 4 = 0 ∧ st.word.extractLsb' 8 4 = st.errCode ∧ st.word.extractLsb' 12 20 = 0 := by
  obtain ⟨busy, done, err, ovr, code⟩ := st
  revert busy done err ovr code
  decide

/-- Settles O13: the word a STATUS read returns has its fields in place. -/
theorem statusWordLayout : Obligations.StatusWordLayout := fun s _ hh =>
  ⟨s.status.word, step_readCsr hh rfl (by decide) (by decide), s.status.word_fields⟩

end Sys2Proof.Machine
end

section
/-! The host's accesses while a command is pending, at reserved addresses, at the input buffers and at the table windows
(R54-R57, R60, R61, R80, R85, R87, R93). -/

namespace Sys2Proof.Machine

/-! ### While a command is pending -/

theorem tableRead_busy {α : Type} {s : State} (h : s.status.busy = true) (valid : Bool) (len per : Nat) (tab : List α)
    (window : α → Nat → Word) (i : Nat) : tableRead s valid len per tab window i = Config.freeWord s.draws := by
  simp [tableRead, h, State.drawWord]

theorem lane_lanesRead (s : State) (hidden : Bool) (a hi : Nat) {k : Nat} (h : k < 4) :
    lane (lanesRead s hidden a hi) k = laneRead s hidden a hi k := by
  rw [lanesRead, lane_joinLanes _ _ _ _ k h]
  have hk : k = 0 ∨ k = 1 ∨ k = 2 ∨ k = 3 := by omega
  rcases hk with rfl | rfl | rfl | rfl <;> rfl

theorem laneRead_hidden (s : State) (a hi k : Nat) :
    laneRead s true a hi k = if a + k < hi then Config.freeByte s.draws k else 0 := rfl

/-- The windows that R60 hides while a command is pending. -/
theorem readWordAt_busy {s : State} {a : Nat} (hcaps : capsOk s.symCap s.byteCap = true) (hb : s.status.busy = true)
    (h : (∃ v, (a, v) ∈ csrResults s) ∨ within a 0x001000 0x001800 ∨ within a 0x002000 0x005000 ∨
      within a 0x200000 (0x200000 + 4 * s.symCap)) : readWordAt s a = Config.freeWord s.draws := by
  obtain ⟨hcsr, hfreq, hnode, hcode⟩ := region_low s a
  obtain ⟨-, -, -, -, -, hsymOut, -, -⟩ := region_iff s a hcaps
  rcases h with ⟨v, hv⟩ | h | h | h
  · obtain ⟨hread, hlt, -⟩ := csrRead_results hv
    rw [readWordAt_csr (hcsr hlt), hread, whenIdle_busy hb]
  · rw [readWordAt_freqTab (hfreq h), tableRead_busy hb]
  · by_cases h4 : a < 0x004000
    · rw [readWordAt_node (hnode ⟨h.1, h4⟩), tableRead_busy hb]
    · rw [readWordAt_codeTab (hcode ⟨by omega, h.2⟩), tableRead_busy hb]
  · rw [readWordAt_symOut (hsymOut.mpr h), whenIdle_busy hb]

/-- The inputs read the same whether a command is pending or not (R60). -/
theorem readWordAt_input {s : State} {a : Nat} (st : Status) (h : s.region a = .symIn ∨ s.region a = .byteIn) :
    readWordAt { s with status := st } a = readWordAt s a := by
  rcases h with h | h
  · rw [readWordAt_symIn h, readWordAt_symIn (s := { s with status := st }) h]
  · rw [readWordAt_byteIn h, readWordAt_byteIn (s := { s with status := st }) h]; rfl

theorem readByteAt_input {s : State} {a : Nat} (st : Status) (h : s.region a = .byteIn) :
    readByteAt { s with status := st } a = readByteAt s a := by
  rw [readByteAt_byteIn h, readByteAt_byteIn (s := { s with status := st }) h]; rfl

theorem byte_fields (b : Byte) : (b.setWidth 32).extractLsb' 0 8 = b ∧ (b.setWidth 32).extractLsb' 8 24 = 0 := by
  have hb := b.isLt
  constructor <;> apply BitVec.eq_of_toNat_eq <;> simp <;> omega

/-- Settles O14: by the window the address lies in. -/
theorem readsWhileBusy : Obligations.ReadsWhileBusy := by
  intro s a rest hcaps hb
  obtain ⟨-, -, -, -, hsymIn, -, hbyteIn, hbyteOut⟩ := region_iff s a hcaps
  obtain ⟨⟨-, hsym⟩, -, hbyte⟩ := (capsOk_iff _ _).mp hcaps
  refine ⟨fun hh h4 hlt => ⟨fun h => ?_, fun h => ?_, fun h => ?_⟩, fun hh => ⟨fun h => ?_, fun h => ?_⟩⟩
  · exact step_read32 hh hlt h4 (readWordAt_busy hcaps hb h)
  · refine ⟨_, step_read32 hh hlt h4 (readWordAt_byteOut (hbyteOut.mpr h)), fun k hk => ?_⟩
    rw [lane_lanesRead _ _ _ _ hk, hb, laneRead_hidden]
  · exact ⟨_, step_read32 hh hlt h4 rfl, step_read32 hh hlt h4 (readWordAt_input _ (h.imp hsymIn.mpr hbyteIn.mpr))⟩
  · have hlt : a < 0x800000 := by unfold within at h; omega
    refine ⟨_, step_read8 hh hlt (.inr (hbyteOut.mpr h)) (readByteAt_byteOut (hbyteOut.mpr h)), ?_⟩
    rw [hb, laneRead_hidden, if_pos (show a + 0 < _ from h.2)]
    exact byte_fields _
  · have hlt : a < 0x800000 := by unfold within at h; omega
    have hr := hbyteIn.mpr h
    exact ⟨_, step_read8 hh hlt (.inl hr) rfl, step_read8 hh hlt (.inl hr) (readByteAt_input _ hr)⟩

/-! ### Reserved addresses -/

/-- A reserved address lies in the CSR block above its registers, or in no region (R61, R80). -/
theorem region_of_reservedAddr {s : State} {a : Nat} (hcaps : capsOk s.symCap s.byteCap = true) (h : reservedAddr s a) :
    (s.region a = .csr ∧ 0x3C ≤ a) ∨ s.region a = .reserved := by
  obtain ⟨⟨-, hsym⟩, -, hbyte⟩ := (capsOk_iff _ _).mp hcaps
  unfold reservedAddr within at h
  rcases region_cases s a with ⟨e, hw⟩ | ⟨-, hw⟩ | ⟨-, hw⟩ | ⟨-, hw⟩ | ⟨-, hw⟩ | ⟨-, hw⟩ | ⟨-, hw⟩ | ⟨-, hw⟩ | ⟨e, -⟩
  · exact .inl ⟨e, by omega⟩
  iterate 7
    · unfold within at hw; omega
  · exact .inr e

/-- Above its registers the CSR block reads 0 (R61). -/
theorem csrRead_reserved (s : State) {off : Nat} (h : 0x3C ≤ off) : csrRead s off = 0 := by
  unfold csrRead offId offCmd offStatus offPhase offInLen offOutLen offNsym offMaxLen offMode offPayStart offPayEnd offEncN
    offSymCap offByteCap offNnodes
  repeat rw [if_neg (by omega)]

/-- A write that is no input's and not to CMD is ignored (R85, R86). -/
theorem writeAt_ignored {s : State} {a : Nat} (w : Width) (v : Word) (hsym : s.region a ≠ .symIn) (hbyte : s.region a ≠ .byteIn)
    (hcsr : s.region a = .csr → a ≠ 0x004 ∧ a ≠ 0x010) : writeAt w a v s = .next s := by
  rcases writeAt_cases w a v s with ⟨hr, ha, -⟩ | ⟨hr, ha, -⟩ | ⟨hr, -⟩ | ⟨hr, -⟩ | ⟨-, -, -, e⟩
  · exact absurd ha (hcsr hr).1
  · exact absurd ha (hcsr hr).2
  · exact absurd hr hsym
  · exact absurd hr hbyte
  · exact e

/-- Settles O15: in both kinds of reserved space. -/
theorem reservedSpaceReadsZero : Obligations.ReservedSpaceReadsZero := by
  intro s a v rest hcaps h4 hlt hres
  have hr := region_of_reservedAddr hcaps hres
  constructor
  · intro hh
    refine step_read32 hh hlt h4 ?_
    rcases hr with ⟨hr, hge⟩ | hr
    · rw [readWordAt_csr hr, csrRead_reserved s hge]
    · exact readWordAt_reserved hr
  · intro hh
    rw [step_write32 hh hlt h4]
    rcases hr with ⟨hr, hge⟩ | hr
    · exact writeAt_ignored _ _ (ne_of_eq_of_ne hr (by decide)) (ne_of_eq_of_ne hr (by decide)) fun _ => by omega
    · exact writeAt_ignored _ _ (ne_of_eq_of_ne hr (by decide)) (ne_of_eq_of_ne hr (by decide)) fun h => nomatch hr.symm.trans h

/-! ### The input registers and buffers -/

theorem writeAt_inLen {s : State} (v : Word) (h : s.status.busy = false) : writeAt .w32 0x010 v s = .next { s with inLen := v } :=
  inputWrite_idle h

theorem writeAt_symIn {s : State} {a : Nat} (v : Word) (h : s.status.busy = false) (hr : s.region a = .symIn) :
    writeAt .w32 a v s = .next { s with mem := Memory.writeWord s.mem a v } := by
  unfold writeAt; rw [hr]; exact inputWrite_idle h

/-- The entries of SYM_IN and SYM_OUT lie in their regions (R80). -/
theorem region_symEntry {s : State} (hcaps : capsOk s.symCap s.byteCap = true) {i : Nat} (hi : i < s.symCap) :
    s.region (0x100000 + 4 * i) = .symIn ∧ s.region (0x200000 + 4 * i) = .symOut := by
  obtain ⟨-, -, -, -, hsymIn, -⟩ := region_iff s (0x100000 + 4 * i) hcaps
  obtain ⟨-, -, -, -, -, hsymOut, -⟩ := region_iff s (0x200000 + 4 * i) hcaps
  unfold within at hsymIn hsymOut
  exact ⟨hsymIn.mpr (by omega), hsymOut.mpr (by omega)⟩

/-- Settles O18: a write of an entry and the read after it. -/
theorem inputWordsReadBack : Obligations.InputWordsReadBack := by
  intro s v rest hcaps hidle
  obtain ⟨⟨-, hsym⟩, -⟩ := (capsOk_iff _ _).mp hcaps
  refine ⟨fun hh => ?_, fun i hi hh => ?_, fun i hi => ⟨fun hh => ?_, fun hh => ?_⟩⟩
  · exact (step_write32 hh (by decide) (by decide)).trans (writeAt_inLen v hidle)
  · refine ⟨Memory.writeWord s.mem (0x100000 + 4 * i) v, ?_, fun a ha => ?_, Memory.readWord_writeWord_same _ _ _,
      fun rest' => ?_⟩
    · exact (step_write32 hh (by omega) (by omega)).trans (writeAt_symIn v hidle ((region_symEntry hcaps hi).1))
    · rw [Memory.read_writeWord, if_neg ha]
    · refine step_read32 rfl (by omega) (by omega) ((readWordAt_symIn ?_).trans ?_)
      · exact (region_symEntry hcaps hi).1
      · exact congrArg (Option.getD · _) (Memory.readWord_writeWord_same s.mem (0x100000 + 4 * i) v)
  · exact step_read32 hh (by omega) (by omega) (readWordAt_symIn ((region_symEntry hcaps hi).1))
  · exact step_read32 hh (by omega) (by omega) ((readWordAt_symOut ((region_symEntry hcaps hi).2)).trans (whenIdle_idle hidle _))

/-! ### The table windows -/

section
variable {α : Type} {s : State} {valid : Bool} {len per k j : Nat} {tab : List α} {window : α → Nat → Word}

/-- Word j of entry k, where the entry is valid (R57). -/
theorem tableRead_valid {e : α} (hidle : s.status.busy = false) (hv : valid = true) (hk : k < len) (hj : j < per)
    (he : tab[k]? = some e) : tableRead s valid len per tab window (per * k + j) = window e j := by
  have hdiv : (per * k + j) / per = k := by
    rw [Nat.mul_add_div (by omega), Nat.div_eq_of_lt hj, Nat.add_zero]
  have hmod : (per * k + j) % per = j := by rw [Nat.mul_add_mod, Nat.mod_eq_of_lt hj]
  simp [tableRead, hidle, hv, hdiv, hmod, hk, he]

/-- Out of the valid phases and at an entry beyond the length a window reads a free value (R57). -/
theorem tableRead_invalid (hj : j < per) (h : valid = false ∨ len ≤ k) :
    tableRead s valid len per tab window (per * k + j) = Config.freeWord s.draws := by
  have hdiv : (per * k + j) / per = k := by
    rw [Nat.mul_add_div (by omega), Nat.div_eq_of_lt hj, Nat.add_zero]
  rw [tableRead, if_neg]
  · rfl
  · rw [hdiv]
    rcases h with h | h <;> simp [h]

end

theorem Phase.freqTabValid_iff (p : Phase) :
    p.freqTabValid = true ↔ p ∈ [Phase.counted, .sorted, .tree, .coded, .packed] := List.contains_iff_mem

theorem Phase.nodeValid_iff (p : Phase) : p.nodeValid = true ↔ p ∈ [Phase.tree, .coded, .packed] := List.contains_iff_mem

theorem Phase.codeTabValid_iff (p : Phase) :
    p.codeTabValid = true ↔ p ∈ [Phase.coded, .packed, .parsed, .decoded] := List.contains_iff_mem

section
variable {s : State} {a k j : Nat} {v : Word} {rest : List HostEvent} (hh : s.host = r32 a :: rest)
include hh

/-- Word j of entry k of the FREQ_TAB window (R54). -/
theorem step_readFreqTab (hk : k < 256) (hj : j < 2) (ha : a = 0x001000 + 8 * k + 4 * j)
    (hv : tableRead s s.phase.freqTabValid s.nsym.toNat 2 s.freqTab FreqRecord.window (2 * k + j) = v) :
    step s = .next (afterRead rest v s) := by
  have hi : (a - 0x001000) / 4 = 2 * k + j := by omega
  obtain ⟨-, hr, -⟩ := region_low s a
  refine step_read32 hh (by omega) (by omega) ?_
  rw [readWordAt_freqTab (hr (by unfold within; omega)), hi, hv]

/-- Word j of slot k of the NODE window (R55). -/
theorem step_readNode (hk : k < 512) (hj : j < 4) (ha : a = 0x002000 + 16 * k + 4 * j)
    (hv : tableRead s s.phase.nodeValid s.nnodes.toNat 4 s.nodeTab Node.window (4 * k + j) = v) :
    step s = .next (afterRead rest v s) := by
  have hi : (a - 0x002000) / 4 = 4 * k + j := by omega
  obtain ⟨-, -, hr, -⟩ := region_low s a
  refine step_read32 hh (by omega) (by omega) ?_
  rw [readWordAt_node (hr (by unfold within; omega)), hi, hv]

/-- Word j of entry k of the CODE_TAB window (R56). -/
theorem step_readCodeTab (hk : k < 256) (hj : j < 4) (ha : a = 0x004000 + 16 * k + 4 * j)
    (hv : tableRead s s.phase.codeTabValid s.nsym.toNat 4 s.codeTab CodeEntry.window (4 * k + j) = v) :
    step s = .next (afterRead rest v s) := by
  have hi : (a - 0x004000) / 4 = 4 * k + j := by omega
  obtain ⟨-, -, -, hr⟩ := region_low s a
  refine step_read32 hh (by omega) (by omega) ?_
  rw [readWordAt_codeTab (hr (by unfold within; omega)), hi, hv]

end

/-- The words of a NODE slot (R55). -/
theorem Node.window_words (n : Node) (j : Nat) :
    (j = 0 → (n.kind = .empty → n.window j = 0) ∧ (n.kind = .leaf → n.window j = 1) ∧ (n.kind = .internal → n.window j = 2) ∧
      (n.kind = .root → n.window j = 3)) ∧
    (j = 1 → n.window j = n.freq) ∧
    (j = 2 → (n.kind = .leaf → n.window j = 0) ∧ (n.kind ≠ .leaf → n.left = none → n.window j = 0) ∧
      ∀ i, n.kind ≠ .leaf → n.left = some i → (n.window j).toNat = 2 ^ 31 + i.toNat) ∧
    (j = 3 → (n.kind = .leaf → (n.window j).toNat = n.sym.toNat) ∧ (n.kind ≠ .leaf → n.right = none → n.window j = 0) ∧
      ∀ i, n.kind ≠ .leaf → n.right = some i → (n.window j).toNat = 2 ^ 31 + i.toNat) := by
  have hsym := n.sym.isLt
  refine ⟨?_, ?_, ?_, ?_⟩ <;> rintro rfl
  · refine ⟨?_, ?_, ?_, ?_⟩ <;> intro h <;> rw [Node.window_kind, h] <;> rfl
  · rfl
  · rw [Node.window_left]
    refine ⟨fun h => if_pos h, fun h hl => ?_, fun i h hl => ?_⟩ <;> rw [if_neg h, hl]
    · rfl
    · exact childWord_some_toNat i
  · rw [Node.window_right]
    refine ⟨fun h => ?_, fun h hr => ?_, fun i h hr => ?_⟩
    · rw [if_pos h, BitVec.toNat_setWidth, Nat.mod_eq_of_lt (by omega)]
    · rw [if_neg h, hr]; rfl
    · rw [if_neg h, hr, childWord_some_toNat]

/-- The words of a CODE_TAB entry (R56). -/
theorem CodeEntry.window_words (e : CodeEntry) (j : Nat) :
    (j = 0 → (e.window j).toNat = e.sym.toNat) ∧ (j = 1 → (e.window j).toNat = e.code.length % 2 ^ 8) ∧
    (j = 2 → (e.window j).toNat = val e.code % 2 ^ 32) ∧ (j = 3 → (e.window j).toNat = val e.code / 2 ^ 32 % 2 ^ 32) := by
  have hsym := e.sym.isLt
  refine ⟨?_, ?_, ?_, ?_⟩ <;> rintro rfl
  · show (e.sym.setWidth 32).toNat = _
    rw [BitVec.toNat_setWidth, Nat.mod_eq_of_lt (by omega)]
  · show ((BitVec.ofNat 8 e.code.length).setWidth 32).toNat = _
    rw [BitVec.toNat_setWidth, BitVec.toNat_ofNat, Nat.mod_eq_of_lt (by omega)]
  · exact BitVec.toNat_ofNat _ _
  · exact BitVec.toNat_ofNat _ _

/-- Settles O20: window by window, in and out of its phases. -/
theorem tableWindows : Obligations.TableWindows := by
  intro s a k j rest hidle hh
  refine ⟨fun hk hj ha => ⟨fun r hp hlt hr => ?_, fun h => ?_⟩, fun hk hj ha => ⟨fun n hp hlt hn => ?_, fun h => ?_⟩,
    fun hk hj ha => ⟨fun e hp hlt he => ?_, fun h => ?_⟩⟩
  · exact step_readFreqTab hh hk hj ha (tableRead_valid hidle (s.phase.freqTabValid_iff.mpr hp) hlt hj hr)
  · exact step_readFreqTab hh hk hj ha
      (tableRead_invalid hj (h.imp_left fun h => by rwa [← s.phase.freqTabValid_iff, Bool.not_eq_true] at h))
  · exact ⟨_, step_readNode hh hk hj ha (tableRead_valid hidle (s.phase.nodeValid_iff.mpr hp) hlt hj hn), n.window_words j⟩
  · exact step_readNode hh hk hj ha
      (tableRead_invalid hj (h.imp_left fun h => by rwa [← s.phase.nodeValid_iff, Bool.not_eq_true] at h))
  · exact ⟨_, step_readCodeTab hh hk hj ha (tableRead_valid hidle (s.phase.codeTabValid_iff.mpr hp) hlt hj he), e.window_words j⟩
  · exact step_readCodeTab hh hk hj ha
      (tableRead_invalid hj (h.imp_left fun h => by rwa [← s.phase.codeTabValid_iff, Bool.not_eq_true] at h))

/-- Settles O21: a code of at most 64 bits is the field of its length with its value. -/
theorem codeWindowHoldsCode : Obligations.CodeWindowHoldsCode := by
  intro e hle
  have hval : val e.code < 2 ^ 64 := (val_lt e.code).trans_le (Nat.pow_le_pow_right (by omega) hle)
  obtain ⟨-, hw1, -⟩ := e.window_words 1
  obtain ⟨-, -, hw2, -⟩ := e.window_words 2
  obtain ⟨-, -, -, hw3⟩ := e.window_words 3
  have hlen : (e.window 1).toNat = e.code.length := by rw [hw1 rfl, Nat.mod_eq_of_lt (by omega)]
  have hcode : (e.window 2).toNat + 2 ^ 32 * (e.window 3).toNat = val e.code := by
    rw [hw2 rfl, hw3 rfl]
    omega
  exact ⟨hlen, hcode, by rw [hlen, hcode, bin_val]⟩

end Sys2Proof.Machine
end

section
/-! The engine's turn and the values after reset (R58, R63, R292, R334). -/

namespace Sys2Proof.Machine

/-- When the engine moves, the step is its turn on the state without the event (R94, R368). -/
theorem step_engineMoves {s : State} {rest : List HostEvent} (h : engineMoves s rest) :
    step s = engineTurn { s with host := rest } := by
  unfold step
  rcases h with h | ⟨h, rfl⟩
  · rw [h]; rfl
  · have hs : { s with host := [] } = s := by rw [← h]
    rw [hs, h]

theorem engineTurn_idle {s : State} (h : s.status.busy = false) : engineTurn s = .next s := by
  unfold engineTurn; rw [if_neg (by simp [h])]

theorem engineTurn_command {s : State} {i : Instr} (hb : s.status.busy = true) (hi : decode s.cmd = .command i) :
    engineTurn s = exec i s := by
  unfold engineTurn fetch; rw [if_pos hb, hi]

/-- A word the table decodes is, as 32 bits, its command (R120). -/
theorem decode_of_decodeTableWord {w : Nat} {i : Instr} (h : decodeTableWord 32 w = some i) :
    decode (tableWord 32 w) = .command i := by
  unfold decodeTableWord at h
  rw [if_pos (Nat.mod_lt _ (by decide))] at h
  cases hd : decode (tableWord 32 w) with
  | command j => rw [hd] at h; cases h; rfl
  | rejected r => rw [hd] at h; cases h

theorem tableWord_eq (w : Nat) : tableWord 32 w = BitVec.ofNat 32 w := BitVec.eq_of_toNat_eq (by simp [tableWord])

/-- Settles O3: by the engine's turn, idle or with a command. -/
theorem stepRunsLatchedCommand : Obligations.StepRunsLatchedCommand := by
  refine ⟨fun s i rest hb hi hm => ?_, fun s rest hidle hm => ?_, fun s i w hw => ?_⟩
  · exact (step_engineMoves hm).trans (engineTurn_command hb hi)
  · exact (step_engineMoves hm).trans (engineTurn_idle hidle)
  · rw [← tableWord_eq]
    exact (step_engineMoves (rest := s.host) (.inl rfl)).trans (engineTurn_command rfl (decode_of_decodeTableWord hw))

/-- Settles O9: every register is set to the value, and the buffers and tables are empty. -/
theorem resetValues : Obligations.ResetValues := by
  rintro symCap byteCap s rfl
  exact ⟨rfl, rfl, rfl, rfl, rfl, rfl, rfl, rfl, rfl, rfl, rfl, rfl, rfl, rfl, rfl, fun _ => ⟨rfl, rfl, rfl, rfl⟩, rfl, rfl, rfl⟩

end Sys2Proof.Machine
end

section
/-! The host's accesses as the memory map permits them: bus errors, writes that are ignored, what an access can change at all, and
the lanes of the byte buffers (R80, R83-R88, R93). -/

namespace Sys2Proof.Machine

/-! ### The step of a host event -/

/-- A step takes the event at the head of the order (R94). -/
theorem step_event {s : State} {e : HostEvent} {rest : List HostEvent} (hh : s.host = e :: rest) :
    step s = perform e { s with host := rest } := by
  unfold step; rw [hh]

/-- The step of a read (R83, R88). -/
theorem step_read {s : State} {w : Width} {a : Addr} {rest : List HostEvent} (hh : s.host = .read w a :: rest) :
    step s = hostRead w a { s with host := rest } := step_event hh

/-- The step of a write (R83, R85). -/
theorem step_write {s : State} {w : Width} {a : Addr} {v : Word} {rest : List HostEvent} (hh : s.host = .write w a v :: rest) :
    step s = hostWrite w a v { s with host := rest } := step_event hh

/-! ### Bus errors -/

theorem hostRead_eq_busError {w : Width} {a : Addr} {s : State} :
    hostRead w a s = .fault .busError ↔ accessOk s w a = false := by
  cases ha : accessOk s w a
  · simp [hostRead_not_ok ha]
  · simp [hostRead_ok ha]

/-- A permitted write never ends in a bus error: where it faults, a command is pending (R364). -/
theorem writeAt_ne_busError (w : Width) (a : Nat) (v : Word) (s : State) : writeAt w a v s ≠ .fault .busError := by
  have hinput : ∀ t, inputWrite s t ≠ .fault .busError := fun t => by
    cases hb : s.status.busy
    · rw [inputWrite_idle hb]; nofun
    · rw [inputWrite_busy hb]; nofun
  rcases writeAt_cases w a v s with ⟨-, -, e⟩ | ⟨-, -, e⟩ | ⟨-, e⟩ | ⟨-, e⟩ | ⟨-, -, -, e⟩ <;> rw [e]
  · nofun
  · exact hinput _
  · exact hinput _
  · exact hinput _
  · nofun

theorem hostWrite_eq_busError {w : Width} {a : Addr} {v : Word} {s : State} :
    hostWrite w a v s = .fault .busError ↔ accessOk s w a = false := by
  cases ha : accessOk s w a
  · simp [hostWrite_not_ok v ha]
  · simp [hostWrite_ok v ha, writeAt_ne_busError]

/-- The accesses that are not permitted, in numbers (R83, R84). -/
theorem accessOk_eq_false_iff {s : State} (w : Width) (a : Addr) (hcaps : capsOk s.symCap s.byteCap = true) :
    accessOk s w a = false ↔ ¬ permitted s w a := by
  rw [← accessOk_iff s hcaps, Bool.not_eq_true]

/-- Settles O10: both kinds of access begin with the check of width and alignment, and only the check answers a bus error. -/
theorem busErrorsExactly : Obligations.BusErrorsExactly := by
  intro s w a v rest hcaps
  refine ⟨fun hh => ?_, fun hh hp => ?_, fun hh => ?_⟩
  · rw [step_read hh, hostRead_eq_busError]
    exact accessOk_eq_false_iff (s := { s with host := rest }) w a hcaps
  · rw [step_read hh]
    exact ⟨_, hostRead_ok ((accessOk_iff { s with host := rest } hcaps w a).mpr hp)⟩
  · rw [step_write hh, hostWrite_eq_busError]
    exact accessOk_eq_false_iff (s := { s with host := rest }) w a hcaps

/-! ### Writes that are ignored -/

/-- A read-only target lies in no input buffer, and in the CSR block it is neither CMD nor IN_LEN (R80, R86). -/
theorem region_of_readOnlyAddr {s : State} {a : Nat} (hcaps : capsOk s.symCap s.byteCap = true) (h : readOnlyAddr s a) :
    s.region a ≠ .symIn ∧ s.region a ≠ .byteIn ∧ (s.region a = .csr → a ≠ 0x004 ∧ a ≠ 0x010) := by
  obtain ⟨hcsr, -, -, -, hsymIn, -, hbyteIn, -⟩ := region_iff s a hcaps
  obtain ⟨⟨-, hsym⟩, -, hbyte⟩ := (capsOk_iff _ _).mp hcaps
  rw [Ne, Ne, hsymIn, hbyteIn, hcsr]
  unfold readOnlyAddr within at h
  unfold within
  omega

/-- Settles O16: a read-only target is none of the four that take a write. -/
theorem readOnlyTargetsIgnoreWrites : Obligations.ReadOnlyTargetsIgnoreWrites := by
  intro s w a v rest hcaps hp hro hh
  obtain ⟨hsym, hbyte, hcsr⟩ := region_of_readOnlyAddr hcaps hro
  rw [step_write hh, hostWrite_ok v ((accessOk_iff { s with host := rest } hcaps w a).mpr hp)]
  exact writeAt_ignored w v hsym hbyte hcsr

/-! ### What an access can change -/

/-- A write that is not to CMD changes at most IN_LEN and memory (R88). -/
theorem writeAt_frame {w : Width} {a : Nat} {v : Word} {s t : State} (ha : a ≠ 0x004) (h : writeAt w a v s = .next t) :
    t = { s with inLen := t.inLen, mem := t.mem } := by
  rcases writeAt_cases w a v s with ⟨-, hcmd, -⟩ | ⟨-, -, e⟩ | ⟨-, e⟩ | ⟨-, e⟩ | ⟨-, -, -, e⟩
  · exact absurd hcmd ha
  · rw [inputWrite_eq_next (e.symm.trans h)]
  · rw [inputWrite_eq_next (e.symm.trans h)]
  · rw [inputWrite_eq_next (e.symm.trans h)]
  · cases e.symm.trans h; rfl

/-- Settles O17: a read that completes leaves the block alone, and so does a write but for its target. -/
theorem readsHaveNoSideEffect : Obligations.ReadsHaveNoSideEffect := by
  refine ⟨fun s t w a rest hh h => ?_, fun s t w a v rest hh ha h => ?_⟩
  · rw [step_read hh] at h
    exact ⟨_, hostRead_eq_next h⟩
  · rw [step_write hh] at h
    have ha' : a.toNat ≠ 0x004 := fun e => ha (BitVec.eq_of_toNat_eq e)
    cases hok : accessOk { s with host := rest } w a
    · rw [hostWrite_not_ok v hok] at h; cases h
    · rw [hostWrite_ok v hok] at h
      exact writeAt_frame ha' h

/-! ### Byte lanes -/

/-- The bytes of BYTE_IN and BYTE_OUT lie in their regions (R80). -/
theorem region_byteEntry {s : State} (hcaps : capsOk s.symCap s.byteCap = true) {j : Nat} (hj : j < s.byteCap) :
    s.region (0x300000 + j) = .byteIn ∧ s.region (0x400000 + j) = .byteOut := by
  obtain ⟨-, -, -, -, -, -, hbyteIn, -⟩ := region_iff s (0x300000 + j) hcaps
  obtain ⟨-, -, -, -, -, -, -, hbyteOut⟩ := region_iff s (0x400000 + j) hcaps
  unfold within at hbyteIn hbyteOut
  exact ⟨hbyteIn.mpr (by omega), hbyteOut.mpr (by omega)⟩

/-- A permitted 8-bit write of BYTE_IN does what the address map says (R80, R83). -/
theorem step_write8 {s : State} {a : Nat} {v : Word} {rest : List HostEvent}
    (hh : s.host = .write .w8 (BitVec.ofNat 23 a) v :: rest) (h : a < 0x800000) (hr : s.region a = .byteIn) :
    step s = writeAt .w8 a v { s with host := rest } := by
  have hok : accessOk { s with host := rest } .w8 (BitVec.ofNat 23 a) = true := by
    show (s.region (BitVec.ofNat 23 a).toNat == .byteIn || s.region (BitVec.ofNat 23 a).toNat == .byteOut) = true
    rw [toNat_addr h, hr]; rfl
  rw [step_write hh, hostWrite_ok v hok, toNat_addr h]

theorem writeAt_byteIn {s : State} {a : Nat} (w : Width) (v : Word) (h : s.status.busy = false) (hr : s.region a = .byteIn) :
    writeAt w a v s = .next { s with mem := byteInWrite s w a v } := by
  unfold writeAt; rw [hr]; exact inputWrite_idle h

/-- A lane that nothing hides (R87, R93). -/
theorem laneRead_shown (s : State) (a hi k : Nat) : laneRead s false a hi k =
    if a + k < hi then (Memory.read s.mem (a + k)).getD (Config.freeByte s.draws k) else 0 := rfl

/-- The two byte windows read alike while no command is pending, at either width (R60, R87). -/
theorem read_byteWindow {s : State} (hcaps : capsOk s.symCap s.byteCap = true) (hidle : s.status.busy = false) {base j : Nat}
    (hbase : base = 0x300000 ∨ base = 0x400000) (hj : j < s.byteCap) :
    (s.region (base + j) = .byteIn ∨ s.region (base + j) = .byteOut) ∧
      readWordAt s (base + j) = lanesRead s false (base + j) (base + s.byteCap) ∧
      readByteAt s (base + j) = (laneRead s false (base + j) (base + s.byteCap) 0).setWidth 32 := by
  obtain ⟨hin, hout⟩ := region_byteEntry hcaps hj
  rcases hbase with rfl | rfl
  · exact ⟨.inl hin, readWordAt_byteIn hin, readByteAt_byteIn hin⟩
  · have hword := readWordAt_byteOut hout
    have hbyte := readByteAt_byteOut hout
    rw [hidle] at hword hbyte
    exact ⟨.inr hout, hword, hbyte⟩

/-- Settles O19: the lanes a write stores and the lanes a read joins, at both widths. -/
theorem hostByteLanes : Obligations.HostByteLanes := by
  intro s v rest hcaps hidle
  obtain ⟨-, -, hcap⟩ := (capsOk_iff _ _).mp hcaps
  refine ⟨fun k hk hh => ?_, fun j hj hh => ?_, fun base hbase => ⟨fun k hk hh => ?_, fun j hj hh => ?_⟩⟩
  · obtain ⟨hin, -⟩ := region_byteEntry hcaps hk
    refine ⟨storeLanes (0x300000 + s.byteCap) s.mem (0x300000 + 4 * k) v, ?_, fun j hj hlt => ?_, fun a ha => ?_⟩
    · exact (step_write32 hh (by omega) (by omega)).trans (writeAt_byteIn _ v hidle hin)
    · rw [read_storeLanes, if_pos (by unfold within; omega), Nat.add_sub_cancel_left]; rfl
    · rw [read_storeLanes, if_neg (by unfold within at *; omega)]
  · obtain ⟨hin, -⟩ := region_byteEntry hcaps hj
    refine ⟨storeLane (0x300000 + s.byteCap) s.mem (0x300000 + j) (lane v 0), ?_, ?_, fun a ha => ?_⟩
    · exact (step_write8 hh (by omega) hin).trans (writeAt_byteIn _ v hidle hin)
    · rw [read_storeLane, if_pos ⟨rfl, Nat.add_lt_add_left hj _⟩]; rfl
    · rw [read_storeLane, if_neg fun e => ha e.1]
  · obtain ⟨-, hword, -⟩ := read_byteWindow hcaps hidle hbase hk
    refine ⟨_, step_read32 hh (by omega) (by omega) hword, fun j hj => ?_⟩
    show lane _ j = _
    rw [lane_lanesRead _ _ _ _ hj, laneRead_shown]
    simp only [Nat.add_assoc, Nat.add_lt_add_iff_left]
  · obtain ⟨hr, -, hbyte⟩ := read_byteWindow hcaps hidle hbase hj
    refine ⟨_, step_read8 hh (by omega) hr hbyte, ?_⟩
    rw [laneRead_shown, Nat.add_zero, if_pos (Nat.add_lt_add_left hj _)]
    exact byte_fields _

end Sys2Proof.Machine
end

section
/-! Every step keeps memory canonical and inside the four buffers (R80, R82, R86). -/

namespace Sys2Proof.Machine

/-- The parameters are these, and memory is in order (R49, R80). -/
def State.MemoryOk (symCap byteCap : Nat) (s : State) : Prop := s.symCap = symCap ∧ s.byteCap = byteCap ∧ s.memoryInv

section
variable {symCap byteCap : Nat} {s t : State}

/-- Only the parameters and memory matter. -/
theorem State.MemoryOk.congr (h : s.MemoryOk symCap byteCap) (hsym : t.symCap = s.symCap) (hbyte : t.byteCap = s.byteCap)
    (hmem : t.mem = s.mem) : t.MemoryOk symCap byteCap := by
  unfold State.MemoryOk State.memoryInv bufferAddr at *
  rwa [hsym, hbyte, hmem]

theorem State.MemoryOk.of_same (h : s.MemoryOk symCap byteCap) (k : s.SameMemory t) : t.MemoryOk symCap byteCap :=
  h.congr k.1.symCap k.1.byteCap k.2

/-- A memory in order may be put in the place of another. -/
theorem State.MemoryOk.with_mem {m : List Host.Cell} (h : s.MemoryOk symCap byteCap)
    (hm : s.memoryInv → State.memoryInv { s with mem := m }) : State.MemoryOk symCap byteCap { s with mem := m } := by
  obtain ⟨hsym, hbyte, hinv⟩ := h
  exact ⟨hsym, hbyte, hm hinv⟩

/-- PACK stores in BYTE_OUT, or discards it (R92, R322). -/
theorem packStage_memoryOk (h : s.MemoryOk symCap byteCap) : (packStage s).Leaves (State.MemoryOk symCap byteCap) := by
  apply Stage.leaves_of
  · intro t ht
    obtain ⟨out, hout, rfl⟩ := packStage_eq_ok.mp ht
    exact h.with_mem fun hm => hm.writeByteOut (packBytes_length hout)
  · intro e t ht
    obtain ⟨-, rfl⟩ := packStage_eq_raised.mp ht
    exact h.with_mem fun hm => hm.forget _ _

/-- MATCH stores in SYM_OUT, or discards it (R92, R322). -/
theorem matchStage_memoryOk (h : s.MemoryOk symCap byteCap) : (matchStage s).Leaves (State.MemoryOk symCap byteCap) := by
  apply Stage.leaves_of
  · intro t ht
    obtain ⟨out, hout, rfl⟩ := matchStage_eq_ok.mp ht
    exact h.with_mem fun hm => hm.writeSymOut (by simpa using matchSymbols_length hout)
  · intro e t ht
    obtain ⟨-, rfl⟩ := matchStage_eq_raised.mp ht
    exact h.with_mem fun hm => hm.forget _ _

/-- Every stage leaves memory in order. -/
theorem stageOf_memoryOk (i : Instr) (h : s.MemoryOk symCap byteCap) : (stageOf i s).Leaves (State.MemoryOk symCap byteCap) := by
  rcases instr_by_memory i with hi | (rfl | rfl) | (rfl | rfl)
  · exact (stageOf_memory hi s).mono fun _ => h.of_same
  · exact .requirePhase h (packStage_memoryOk h)
  · exact ((tableStages_memory s).mono fun _ => h.of_same).andThen fun _ => packStage_memoryOk
  · exact .requirePhase h (matchStage_memoryOk h)
  · exact ((parseStage_memory s).mono fun _ => h.of_same).andThen fun _ => matchStage_memoryOk

/-- Completion writes no memory (R292, R322). -/
theorem complete_memoryOk {r : Stage} (hr : r.Leaves (State.MemoryOk symCap byteCap)) (h : complete r = .next t) :
    t.MemoryOk symCap byteCap := by
  rcases complete_eq_next.mp h with ⟨u, rfl, rfl⟩ | ⟨e, u, rfl, rfl⟩
  · exact hr
  · have hu : u.MemoryOk symCap byteCap := hr
    cases he : e.isProtocol
    · rw [raiseError_of_failure he]; exact hu
    · rw [raiseError_of_protocol he]; exact hu

theorem engineTurn_memoryOk (hs : s.MemoryOk symCap byteCap) (h : engineTurn s = .next t) : t.MemoryOk symCap byteCap := by
  rcases engineTurn_eq_next h with rfl | ⟨i, h⟩ | h
  · exact hs
  · exact complete_memoryOk (stageOf_memoryOk i hs) ((exec_eq_complete i s).symm.trans h)
  · exact complete_memoryOk (r := .raised .illegalCommand s) hs h

theorem cmdWrite_memoryOk (hs : s.MemoryOk symCap byteCap) (v : Word) : (cmdWrite v s).MemoryOk symCap byteCap := by
  unfold cmdWrite
  split
  · exact hs
  · exact hs

/-- A host write stores in SYM_IN or BYTE_IN, or not in memory (R85, R86). -/
theorem hostWrite_memoryOk {w : Width} {a : Addr} {v : Word} (hcaps : capsOk symCap byteCap = true)
    (hs : s.MemoryOk symCap byteCap) (h : hostWrite w a v s = .next t) : t.MemoryOk symCap byteCap := by
  have hcaps' : capsOk s.symCap s.byteCap = true := by
    obtain ⟨hsym, hbyte, -⟩ := hs
    rwa [hsym, hbyte]
  rcases hostWrite_eq_next h with rfl | rfl | rfl | ⟨hr, ha, rfl⟩ | ⟨hr, rfl⟩
  · exact hs
  · exact cmdWrite_memoryOk hs v
  · exact hs
  · exact hs.with_mem fun hm => hm.symInWrite v hr ha hcaps'
  · exact hs.with_mem fun hm => hm.byteInWrite v hr hcaps'

theorem resetInput_memoryOk (hs : s.MemoryOk symCap byteCap) : (resetInput s).MemoryOk symCap byteCap := by
  obtain ⟨hsym, hbyte, -⟩ := hs
  exact ⟨hsym, hbyte, rfl, nofun⟩

end

/-- Settles O57: each command stores in its own buffer, a host write in the one it addresses, and reset empties memory. -/
theorem stepKeepsMemoryInv : Obligations.StepKeepsMemoryInv := fun s _ hcaps hs h =>
  step_keeps (P := State.MemoryOk s.symCap s.byteCap) (fun _ _ h => h) (fun _ _ _ h => h)
    (fun _ _ _ _ _ => hostWrite_memoryOk hcaps) (fun _ _ => engineTurn_memoryOk) (fun _ => resetInput_memoryOk)
    ⟨rfl, rfl, hs⟩ h

end Sys2Proof.Machine
end

section
/-! An engine read of an input entry never written stops the model (R93). -/

namespace Sys2Proof.Machine

theorem State.inputBytes_eq_none {s : State} {lo hi j : Nat} (hlo : lo ≤ j) (hhi : j < hi) (h : s.byteIn j = none) :
    s.inputBytes lo hi = none :=
  collect_eq_none.mpr ⟨j - lo, by omega, by rwa [Nat.add_sub_cancel' hlo]⟩

section
variable {s : State} {k : Nat}

/-- FREQ reads SYM_IN[0..IN_LEN) (R170). -/
theorem freqStage_unwritten (hk : k < s.inLen.toNat) (hcap : s.inLen.toNat ≤ s.symCap) (h : s.symIn k = none) :
    freqStage s = .fault .unwrittenInput := by
  unfold freqStage
  rw [if_neg (by omega), if_neg (by omega), State.symbols_eq_none.mpr ⟨k, hk, h⟩]

/-- PACK reads and looks up one entry after the other, so it stops at the first that has no value (R230, R232; log 16). -/
theorem payloadCodes_unwritten {tab : List CodeEntry} {f : Nat → Option Word} {i n : Nat} (hk : k < n) (h : f (i + k) = none)
    (hbefore : ∀ j < k, ∃ x c, f (i + j) = some x ∧ codeFor tab x = some c) :
    payloadCodes tab f i n = .fault .unwrittenInput := by
  induction n generalizing i k with
  | zero => omega
  | succ n ih =>
    unfold payloadCodes
    cases k with
    | zero => rw [Nat.add_zero] at h; rw [h]
    | succ k =>
      obtain ⟨x, c, hx, hc⟩ := hbefore 0 (by omega)
      rw [Nat.add_zero] at hx
      have hshift : ∀ j, i + 1 + j = i + (j + 1) := fun j => by omega
      have hrest : payloadCodes tab f (i + 1) n = .fault .unwrittenInput :=
        ih (k := k) (by omega) (by rwa [hshift]) fun j hj => by rw [hshift]; exact hbefore (j + 1) (by omega)
      simp [hx, hc, hrest]

theorem packStage_unwritten (hk : k < s.encN.toNat) (h : s.symIn k = none)
    (hbefore : ∀ j < k, ∃ x c, s.symIn j = some x ∧ codeFor s.codes x = some c) :
    packStage s = .fault .unwrittenInput := by
  have hcodes : payloadCodes s.codes s.symIn 0 s.encN.toNat = .fault .unwrittenInput :=
    payloadCodes_unwritten hk (by rwa [Nat.zero_add]) fun j hj => by rw [Nat.zero_add]; exact hbefore j hj
  unfold packStage packBytes
  rw [hcodes]

/-- PARSE reads BYTE_IN[0..IN_LEN) (R260). -/
theorem parseStage_unwritten (hk : k < s.inLen.toNat) (h2 : 2 ≤ s.inLen.toNat) (hcap : s.inLen.toNat ≤ s.byteCap)
    (h : s.byteIn k = none) : parseStage s = .fault .unwrittenInput := by
  unfold parseStage
  rw [if_neg (by omega), if_neg (by omega), State.inputBytes_eq_none (Nat.zero_le k) hk h]

/-- MATCH reads the payload region (R264). -/
theorem matchStage_unwritten (hk : k < s.payEnd.toNat) (hlo : s.payStart.toNat ≤ k) (h : s.byteIn k = none) :
    matchStage s = .fault .unwrittenInput := by
  unfold matchStage matchSymbols
  rw [State.inputBytes_eq_none hlo hk h]

end

/-- A command whose stage faults stops the model. -/
theorem exec_fault {i : Instr} {s : State} {f : Fault} (h : stageOf i s = .fault f) : exec i s = .fault f := by
  rw [exec_eq_complete, h, complete_fault]

/-- Settles O45: the stage that reads the entry faults, and a combined command faults with its first stage. -/
theorem unwrittenInputFaults : Obligations.UnwrittenInputFaults := by
  intro s
  refine ⟨fun i hi hcap h => ?_, fun i hi hp h hbefore => ?_, fun j hj h2 hcap h => ?_, fun j hj hlo hp h => ?_⟩
  · have hfreq := freqStage_unwritten hi hcap h
    refine ⟨exec_fault hfreq, exec_fault (i := .compress) ?_⟩
    simp only [stageOf, compressStage, hfreq, Stage.andThen_fault]
  · refine exec_fault (i := .pack) ?_
    exact (requirePhase_of_mem (by simpa using hp) packStage).trans (packStage_unwritten hi h hbefore)
  · have hparse := parseStage_unwritten hj h2 hcap h
    refine ⟨exec_fault hparse, exec_fault (i := .decompress) ?_⟩
    simp only [stageOf, decompressStage, hparse, Stage.andThen_fault]
  · refine exec_fault (i := .matchCodes) ?_
    exact (requirePhase_of_mem (by simpa using hp) matchStage).trans (matchStage_unwritten hj hlo h)

end Sys2Proof.Machine
end

section
/-! A command depends only on what it reads: a change of what a stage does not read goes through it (R92, R94, R365). -/

namespace Sys2Proof.Machine

/-- A change of IN_LEN, of memory and of the model's own fields, those the host writes and those that are the host's (R41, R93,
R94): a value to put in the place of each, or none to keep it. -/
structure Edit where
  /-- IN_LEN -/
  inLen : Option Word := none
  /-- memory -/
  mem : Option (List Host.Cell) := none
  /-- the events to come -/
  host : Option (List HostEvent) := none
  /-- the data read -/
  lastRead : Option (Option Word) := none
  /-- the draw counter -/
  draws : Option Nat := none

/-- The state so changed. -/
def Edit.apply (c : Edit) (s : State) : State :=
  { s with
    inLen := c.inLen.getD s.inLen
    mem := c.mem.getD s.mem
    host := c.host.getD s.host
    lastRead := c.lastRead.getD s.lastRead
    draws := c.draws.getD s.draws }

/-- A stage that ends in the state so changed. -/
def Stage.edit (c : Edit) : Stage → Stage
  | .ok s => .ok (c.apply s)
  | .raised e s => .raised e (c.apply s)
  | .fault f => .fault f

/-- The stage f does not see the change c: it ends as it would have, in the state so changed. -/
def Edit.Unseen (c : Edit) (f : State → Stage) : Prop := ∀ s, f (c.apply s) = (f s).edit c

section
variable {c : Edit}

theorem Edit.Unseen.andThen {f g : State → Stage} (hf : c.Unseen f) (hg : c.Unseen g) : c.Unseen fun s => (f s).andThen g := by
  intro s
  show (f (c.apply s)).andThen g = ((f s).andThen g).edit c
  rw [hf s]
  cases f s with
  | ok t => exact hg t
  | raised e t => rfl
  | fault e => rfl

/-- No change touches PHASE (R294). -/
theorem Edit.Unseen.requirePhase {f : State → Stage} (hf : c.Unseen f) (allowed : List Phase) :
    c.Unseen (requirePhase allowed f) := by
  intro s
  by_cases hp : s.phase ∈ allowed
  · rw [requirePhase_of_mem hp, requirePhase_of_mem (s := c.apply s) hp]
    exact hf s
  · rw [requirePhase_of_not_mem hp, requirePhase_of_not_mem (s := c.apply s) hp]
    rfl

/-- Completion writes STATUS, PHASE and the result registers, which no change touches (R292, R322). -/
theorem complete_edit {r : Stage} {t : State} (h : complete r = .next t) : complete (r.edit c) = .next (c.apply t) := by
  rcases complete_eq_next.mp h with ⟨u, rfl, rfl⟩ | ⟨e, u, rfl, rfl⟩
  · rfl
  · show Host.Outcome.next (raiseError e (c.apply u)) = _
    cases he : e.isProtocol
    · rw [raiseError_of_failure he, raiseError_of_failure he]; rfl
    · rw [raiseError_of_protocol he, raiseError_of_protocol he]; rfl

/-- A command whose stage does not see a change completes as it would have, in the state so changed. -/
theorem exec_edit {i : Instr} {s t : State} (hi : c.Unseen (stageOf i)) (h : exec i s = .next t) :
    exec i (c.apply s) = .next (c.apply t) := by
  rw [exec_eq_complete] at h ⊢
  rw [hi s]
  exact complete_edit h

/-! ### What each stage does not read -/

/-- SORT reads the records (R172). -/
theorem sortStage_unseen (c : Edit) : c.Unseen sortStage := fun _ => rfl

/-- BUILD reads the records and NSYM (R200). -/
theorem buildStage_unseen (c : Edit) : c.Unseen buildStage := by
  intro s
  unfold buildStage
  rw [apply_ite (Stage.edit c)]
  rfl

/-- CODEGEN reads the tree, NSYM and NNODES (R205). -/
theorem codegenStage_unseen (c : Edit) : c.Unseen codegenStage := by
  intro s
  unfold codegenStage
  rw [apply_ite (Stage.edit c)]
  rfl

theorem parseOf_unseen (c : Edit) (bs : List Byte) : c.Unseen (parseOf bs) := by
  intro s
  unfold parseOf
  cases parseTree (trailerIn bs) (bodyOf bs) <;> rfl

theorem clearStage_unseen (c : Edit) : c.Unseen fun s => .ok (clearResults s) := fun _ => rfl

/-- SORT, BUILD and CODEGEN read no buffer and not IN_LEN (R92). -/
theorem stageOf_unseen_of_tables {i : Instr} (h : i ∈ [Instr.sort, .build, .codegen]) : c.Unseen (stageOf i) := by
  cases i with
  | sort => exact (sortStage_unseen c).requirePhase _
  | build => exact (buildStage_unseen c).requirePhase _
  | codegen => exact (codegenStage_unseen c).requirePhase _
  | freq | pack | compress | parse | matchCodes | decompress | clear => simp at h

/-- Once its input is read, FREQ still reads IN_LEN, for ENC_N (R170). -/
theorem freqOf_unseen (hi : c.inLen = none) (xs : List Word) : c.Unseen (freqOf xs) := by
  intro s
  have hafter : afterFreq xs (recordsOf xs) (c.apply s) = c.apply (afterFreq xs (recordsOf xs) s) := by
    obtain ⟨inLen, mem, host, lastRead, draws⟩ := c
    cases hi; rfl
  unfold freqOf
  rw [hafter, apply_ite (Stage.edit c), apply_ite (Stage.edit c)]
  rfl

section
variable (hm : c.mem = none)
include hm

theorem packBytes_apply (s : State) : packBytes (c.apply s) = packBytes s := by
  obtain ⟨inLen, mem, host, lastRead, draws⟩ := c
  cases hm; rfl

theorem matchSymbols_apply (s : State) : matchSymbols (c.apply s) = matchSymbols s := by
  obtain ⟨inLen, mem, host, lastRead, draws⟩ := c
  cases hm; rfl

/-- PACK reads memory and the table (R230). -/
theorem packStage_unseen : c.Unseen packStage := by
  intro s
  unfold packStage
  rw [packBytes_apply hm]
  obtain ⟨inLen, mem, host, lastRead, draws⟩ := c
  cases hm
  cases packBytes s <;> rfl

/-- MATCH reads memory and the table (R264). -/
theorem matchStage_unseen : c.Unseen matchStage := by
  intro s
  unfold matchStage
  rw [matchSymbols_apply hm]
  obtain ⟨inLen, mem, host, lastRead, draws⟩ := c
  cases hm
  cases matchSymbols s <;> rfl

/-- SORT, BUILD, CODEGEN, PACK and MATCH do not read IN_LEN (R92). -/
theorem stageOf_unseen_of_mem {i : Instr} (h : i ∈ [Instr.sort, .build, .codegen, .pack, .matchCodes]) :
    c.Unseen (stageOf i) := by
  cases i with
  | sort | build | codegen => exact stageOf_unseen_of_tables (by decide)
  | pack => exact (packStage_unseen hm).requirePhase _
  | matchCodes => exact (matchStage_unseen hm).requirePhase _
  | freq | compress | parse | decompress | clear => simp at h

variable (hi : c.inLen = none)
include hi

theorem symbols_apply (s : State) : (c.apply s).symbols (c.apply s).inLen.toNat = s.symbols s.inLen.toNat := by
  obtain ⟨inLen, mem, host, lastRead, draws⟩ := c
  cases hm; cases hi; rfl

theorem inputBytes_apply (s : State) : (c.apply s).inputBytes 0 (c.apply s).inLen.toNat = s.inputBytes 0 s.inLen.toNat := by
  obtain ⟨inLen, mem, host, lastRead, draws⟩ := c
  cases hm; cases hi; rfl

/-- FREQ reads IN_LEN and memory (R170). -/
theorem freqStage_unseen : c.Unseen freqStage := by
  intro s
  have hlen : (c.apply s).inLen = s.inLen := congrArg (Option.getD · s.inLen) hi
  unfold freqStage
  rw [symbols_apply hm hi, hlen, apply_ite (Stage.edit c), apply_ite (Stage.edit c)]
  refine if_congr Iff.rfl rfl (if_congr Iff.rfl rfl ?_)
  cases s.symbols s.inLen.toNat with
  | none => rfl
  | some xs => exact freqOf_unseen hi xs s

/-- PARSE reads IN_LEN and memory (R260). -/
theorem parseStage_unseen : c.Unseen parseStage := by
  intro s
  have hlen : (c.apply s).inLen = s.inLen := congrArg (Option.getD · s.inLen) hi
  unfold parseStage
  rw [inputBytes_apply hm hi, hlen, apply_ite (Stage.edit c), apply_ite (Stage.edit c)]
  refine if_congr Iff.rfl rfl (if_congr Iff.rfl rfl ?_)
  cases s.inputBytes 0 s.inLen.toNat with
  | none => rfl
  | some bs => exact parseOf_unseen c bs s

/-- No command sees a change of the host's side alone (R94). -/
theorem stageOf_unseen (i : Instr) : c.Unseen (stageOf i) := by
  have hfreq := freqStage_unseen hm hi
  have hparse := parseStage_unseen hm hi
  cases i with
  | freq => exact hfreq
  | sort | build | codegen | pack | matchCodes => exact stageOf_unseen_of_mem hm (by decide)
  | compress =>
    exact (((hfreq.andThen (sortStage_unseen c)).andThen (buildStage_unseen c)).andThen (codegenStage_unseen c)).andThen
      (packStage_unseen hm)
  | parse => exact hparse
  | decompress => exact hparse.andThen (matchStage_unseen hm)
  | clear => exact clearStage_unseen c

end

end

/-- Settles O52: IN_LEN, memory or the host's side replaced is a change the command's stage does not see. -/
theorem commandsIgnoreWhatTheyDoNotRead : Obligations.CommandsIgnoreWhatTheyDoNotRead := by
  intro i s t v m h r d hex
  refine ⟨fun hi => ?_, fun hi => ?_, ?_⟩
  · exact exec_edit (c := { inLen := some v }) (stageOf_unseen_of_mem rfl hi) hex
  · exact exec_edit (c := { mem := some m }) (stageOf_unseen_of_tables hi) hex
  · exact exec_edit (c := { host := some h, lastRead := some r, draws := some d }) (stageOf_unseen rfl rfl i) hex

end Sys2Proof.Machine
end

section
/-! Command words: a word is its two fields, and the opcode map lists each command once (R120, R122-R124). -/

namespace Sys2Proof.Machine

/-! ### The fields of a word -/

theorem opField_toNat (w : Word) : (opField w).toNat = w.toNat % 256 := by simp [opField]

theorem rsvdField_toNat (w : Word) : (rsvdField w).toNat = w.toNat / 256 := by
  rw [rsvdField, BitVec.extractLsb'_toNat, Nat.shiftRight_eq_div_pow]
  exact Nat.mod_eq_of_lt (by omega)

theorem rsvdField_eq_zero_iff (w : Word) : rsvdField w = 0#24 ↔ w.toNat / 256 = 0 := by
  rw [← rsvdField_toNat]
  exact ⟨fun h => by rw [h]; rfl, fun h => BitVec.eq_of_toNat_eq h⟩

/-- A word whose RSVD is 0 is its OP, zero-extended (R120, R140). -/
theorem eq_setWidth_opField {w : Word} (h : rsvdField w = 0#24) : w = (opField w).setWidth 32 := by
  have hr := (rsvdField_eq_zero_iff w).mp h
  apply BitVec.eq_of_toNat_eq
  rw [BitVec.toNat_setWidth, opField_toNat]
  omega

/-! ### The opcode map -/

theorem eq_opcode_of_lookup {op : Byte} {i : Instr} (h : opcodeMap.lookup op = some i) : op = opcode i := by
  have hrows : ∀ row ∈ opcodeMap, row.1 = opcode row.2 := by decide
  obtain ⟨before, after, hmap, -⟩ := List.lookup_eq_some_iff.mp h
  exact hrows (op, i) (by simp [hmap])

theorem lookup_opcodeMap_eq_none_iff (op : Byte) : opcodeMap.lookup op = none ↔ op.toNat ∉ opNumbers := by
  have hnumbers : opNumbers = opcodeMap.map fun row => row.1.toNat := rfl
  simp only [List.lookup_eq_none_iff, bne_iff_ne, hnumbers, List.mem_map, not_exists, not_and, BitVec.toNat_inj, Ne,
    eq_comm (a := op)]

/-! ### The decoder -/

/-- The decoder accepts exactly the words with RSVD at 0 and a listed OP (R122, R123). -/
theorem decode_eq_command {w : Word} {i : Instr} :
    decode w = .command i ↔ rsvdField w = 0#24 ∧ opcodeMap.lookup (opField w) = some i := by
  by_cases hr : rsvdField w = 0#24
  · cases hop : opcodeMap.lookup (opField w) <;> simp [decode, hr, hop]
  · simp [decode, hr]

/-- The decoder rejects exactly the other words (R122, R124). -/
theorem decode_rejects_iff {w : Word} :
    (∃ r, decode w = .rejected r) ↔ rsvdField w ≠ 0#24 ∨ opcodeMap.lookup (opField w) = none := by
  by_cases hr : rsvdField w = 0#24
  · cases hop : opcodeMap.lookup (opField w) <;> simp [decode, hr, hop]
  · simp [decode, hr]

@[simp] theorem decode_encode (i : Instr) : decode (encode i) = .command i := by cases i <;> rfl

theorem eq_encode_of_decode {w : Word} {i : Instr} (h : decode w = .command i) : w = encode i := by
  obtain ⟨hr, hop⟩ := decode_eq_command.mp h
  rw [encode, ← eq_opcode_of_lookup hop]
  exact eq_setWidth_opField hr

/-- Settles O1: each word of R123's table is evaluated. -/
theorem commandWordsDecode : Obligations.CommandWordsDecode := by
  unfold Obligations.CommandWordsDecode
  decide

/-- Settles O2: a command's word has RSVD at 0 and the command's OP, and no other word has. -/
theorem decodeInvertsEncode : Obligations.DecodeInvertsEncode := by
  refine ⟨fun w i => ⟨eq_encode_of_decode, ?_⟩, fun w => ?_⟩
  · rintro rfl
    exact decode_encode i
  · rw [decode_rejects_iff, lookup_opcodeMap_eq_none_iff, opField_toNat, Ne, rsvdField_eq_zero_iff]
    rfl

end Sys2Proof.Machine
end

section
/-! The container PACK writes: its length, its bits, and that PACK finds the code of every symbol (R130-R138, R230-R234). -/

namespace Sys2Proof.Machine

/-! ### The length of the container -/

/-- A code of at most MAXLEN bits fits its slot, so an entry has the width of R131. -/
theorem entryOf_length (mode : BitVec 2) {maxLen : Nat} {e : CodeEntry} (h : e.code.length ≤ maxLen) :
    (entryOf mode maxLen e).length = entryBits mode maxLen := by
  have hslot : e.code.length ≤ codeSlotBits maxLen := by unfold codeSlotBits; omega
  simp only [entryOf, entryBits, List.length_append, bin_length, zeros_length]
  omega

theorem treeRegion_length (mode : BitVec 2) {maxLen : Nat} {tab : List CodeEntry} (h : ∀ e ∈ tab, e.code.length ≤ maxLen) :
    (treeRegion mode maxLen tab).length = tab.length * entryBits mode maxLen := by
  induction tab with
  | nil => simp [treeRegion]
  | cons e tab ih =>
    obtain ⟨he, htab⟩ := List.forall_mem_cons.mp h
    rw [treeRegion, List.flatMap_cons, List.length_append, entryOf_length mode he, ← treeRegion, ih htab, List.length_cons]
    ring

/-- The payload region is the sentinel, the codes and the filler (R135). -/
theorem payloadRegion_length (cs : List BitStr) :
    (payloadRegion cs).length = 1 + cs.flatten.length + fillerBits cs.flatten.length := by
  simp only [payloadRegion, List.length_append, zeros_length, List.length_cons, List.length_nil]
  omega

theorem trailerBits_length (nsym : BitVec 8) (maxLen : BitVec 6) (mode : BitVec 2) :
    (trailerBits nsym maxLen mode).length = 16 := by simp [trailerBits]

/-- An entry is whole bytes (R131, R132). -/
theorem entryBits_eq (mode : BitVec 2) (maxLen : Nat) :
    entryBits mode maxLen = 8 * (charBytes mode + 1 + codeSlotBits maxLen / 8) := by
  unfold entryBits codeSlotBits
  omega

/-- The filler makes the payload region whole bytes (R135). -/
theorem payloadBits_mod_eight (n : Nat) : (1 + n + fillerBits n) % 8 = 0 := by
  unfold fillerBits
  omega

/-- The size formula (R138). -/
def containerSize (count : Nat) (mode : BitVec 2) (maxLen payloadBits : Nat) : Nat :=
  count * (charBytes mode + 1 + codeSlotBits maxLen / 8) + (1 + payloadBits + fillerBits payloadBits) / 8 + 2

/-- The bit string of the container (R130). -/
def containerBits (nsym : BitVec 8) (maxLen : BitVec 6) (mode : BitVec 2) (tab : List CodeEntry) (cs : List BitStr) : BitStr :=
  treeRegion mode maxLen.toNat tab ++ payloadRegion cs ++ trailerBits nsym maxLen mode

section
variable {nsym : BitVec 8} {maxLen : BitVec 6} {mode : BitVec 2} {tab : List CodeEntry} {cs : List BitStr}
  (h : ∀ e ∈ tab, e.code.length ≤ maxLen.toNat)
include h

/-- The three regions are 8 times as many bits as the size formula counts bytes (R138). -/
theorem containerBits_length : (containerBits nsym maxLen mode tab cs).length =
    8 * containerSize tab.length mode maxLen.toNat cs.flatten.length := by
  have hpayload := payloadBits_mod_eight cs.flatten.length
  rw [containerBits, List.length_append, List.length_append, treeRegion_length mode h, payloadRegion_length, trailerBits_length,
    entryBits_eq, Nat.mul_left_comm, containerSize]
  omega

theorem containerOf_length :
    (containerOf nsym maxLen mode tab cs).length = containerSize tab.length mode maxLen.toNat cs.flatten.length := by
  have hlen := containerBits_length (nsym := nsym) (mode := mode) (cs := cs) h
  rw [containerOf, ← containerBits, bytes_length _ (by omega)]
  omega

theorem bits_containerOf : bits (containerOf nsym maxLen mode tab cs) = containerBits nsym maxLen mode tab cs := by
  have hlen := containerBits_length (nsym := nsym) (mode := mode) (cs := cs) h
  exact bits_bytes _ (by rw [← containerBits]; omega)

end

/-! ### PACK's success -/

/-- A list maps to values throughout exactly when each element does. -/
theorem mapM_eq_some_iff {α β : Type} {g : α → Option β} {xs : List α} {ys : List β} :
    xs.mapM g = some ys ↔ xs.map g = ys.map some := by
  induction xs generalizing ys with
  | nil => simp
  | cons x xs ih =>
    rw [List.mapM_cons, List.map_cons]
    cases ys with
    | nil => simp [Option.bind_eq_some_iff]
    | cons y ys => simp [Option.bind_eq_some_iff, ih]

/-- PACK finds the codes of a readable input all of whose symbols have one (R230, R232). -/
theorem payloadCodes_of_mapM {s : State} {tab : List CodeEntry} {n : Nat} {xs : List Word} {cs : List BitStr}
    (hread : s.symbols n = some xs) (hcodes : xs.mapM (codeFor tab) = some cs) :
    payloadCodes tab s.symIn 0 n = .ok cs := by
  obtain ⟨hlen, hsym⟩ := State.symbols_eq_some.mp hread
  have hmap := mapM_eq_some_iff.mp hcodes
  have hcount : xs.length = cs.length := by simpa using congrArg List.length hmap
  refine payloadCodes_eq_ok.mpr ⟨by omega, fun k hk => ?_⟩
  have hxs : xs[k]? = some xs[k] := List.getElem?_eq_getElem (by omega)
  have hcs : cs[k]? = some cs[k] := List.getElem?_eq_getElem (by omega)
  refine ⟨xs[k], by rw [Nat.zero_add, hsym k hk, hxs], ?_⟩
  have hk := congrArg (·[k]?) hmap
  simpa only [List.getElem?_map, hxs, hcs, Option.map_some, Option.some.injEq] using hk

/-- PACK in phase with a container that fits: the command's whole effect (R230, R292). -/
theorem exec_pack_of_packBytes {s : State} {out : List Byte} (hp : s.phase ∈ [Phase.coded, .packed])
    (h : packBytes s = .ok out) : exec .pack s = .next (completeOk (afterPack out s)) := by
  have hstage : stageOf .pack s = .ok (afterPack out s) :=
    (requirePhase_of_mem hp packStage).trans (packStage_eq_ok.mpr ⟨out, h, rfl⟩)
  rw [exec_eq_complete, hstage, complete_ok]

/-- Settles O34: PACK finds every code, and the container of the codes has the size the formula gives. -/
theorem packWritesContainer : Obligations.PackWritesContainer := by
  intro s xs cs size hcaps hp htab hlens hread hcodes hsize hfits
  have hcount : s.codes.length = s.nsym.toNat := List.length_take_of_le htab
  have hle : ∀ e ∈ s.codes, e.code.length ≤ s.maxLen.toNat := fun e he => (hlens e he).2
  have hout : (s.container cs).length = size := by
    rw [State.container, containerOf_length hle, hcount, hsize]; rfl
  have hpack : packBytes s = .ok (s.container cs) :=
    packBytes_eq_ok.mpr ⟨cs, payloadCodes_of_mapM hread hcodes, rfl, hout ▸ hfits⟩
  refine ⟨Memory.writeBytes s.mem byteOutBase (s.container cs), s.container cs, ?_, hout, ?_, fun j hj => ?_, fun a ha => ?_⟩
  · rw [exec_pack_of_packBytes (by simpa using hp) hpack, ← hout]; rfl
  · exact bits_containerOf hle
  · exact byteOut_afterPack (hout ▸ hj)
  · exact (afterPack_outside (s.container cs) s).2 a (hout ▸ ha)

end Sys2Proof.Machine
end

section
/-! RUN and POLL: the accepted command, the early reads of STATUS, the engine's turn and the read after it (R141, R291, R292). -/

namespace Sys2Proof.Machine

/-! ### Runs -/

/-- A run that completes took a first step, and the rest of the run completes too. -/
theorem run_succ_eq_next {M : Host.Core} {s u : M.State} {n : Nat} (h : M.run (n + 1) s = .next u) :
    ∃ t, M.step s = .next t ∧ M.run n t = .next u := by
  rw [Host.Core.run] at h
  split at h
  · next t ht => exact ⟨t, ht, h⟩
  · cases h
  · cases h

/-- The rest of a run whose first step is known. -/
theorem run_after_step {s t u : State} {n : Nat} (h : step s = .next t)
    (hrun : Host.Core.run Sys2Proof.core (n + 1) s = .next u) : Host.Core.run Sys2Proof.core n t = .next u := by
  obtain ⟨v, hv, hrest⟩ := run_succ_eq_next hrun
  cases h.symm.trans hv
  exact hrest

/-! ### The steps of RUN -/

/-- A completed command leaves DONE = 1 and BUSY = 0, and keeps CMD and the events to come (R292). -/
theorem exec_completes {i : Instr} {s t : State} (h : exec i s = .next t) :
    t.status.busy = false ∧ t.status.done = true ∧ t.cmd = s.cmd ∧ t.host = s.host := by
  obtain ⟨u, hu, ⟨hin, -⟩⟩ := exec_leaves h
  have hsame := (hu s.SameInputs (stageOf_sameInputs i s)).trans hin
  have hstatus : t.status.busy = false ∧ t.status.done = true := by
    rcases exec_eq_next h with ⟨v, -, rfl⟩ | rfl | ⟨e, v, -, -, rfl⟩ <;> exact ⟨rfl, rfl⟩
  exact ⟨hstatus.1, hstatus.2, hsame.cmd, hsame.host⟩

/-- The write of RUN: the word is accepted (R141, R291). -/
theorem step_runCmd {s : State} {i : Instr} {early : Nat} {rest : List HostEvent} (hidle : s.status.busy = false)
    (hh : s.host = runCmd i early ++ rest) :
    step s = .next (accept (encode i) { s with host := poll early ++ rest }) := by
  have hword : BitVec.ofNat 32 (encode i).toNat = encode i := BitVec.ofNat_toNat ..
  have hwrite : step s = writeAt .w32 0x004 (encode i) { s with host := poll early ++ rest } :=
    step_write32 (by rw [hh, runCmd, w32, hword]; rfl) (by decide) (by decide)
  have hcsr : State.region { s with host := poll early ++ rest } 0x004 = .csr := (region_low _ _).1 (by decide)
  rw [hwrite, writeAt, hcsr]
  show Host.Outcome.next (cmdWrite _ _) = _
  rw [cmdWrite, if_neg (by simp [hidle])]

theorem step_readStatus {s : State} {rest : List HostEvent} (hh : s.host = r32 offStatus :: rest) :
    step s = .next (afterRead rest s.status.word s) :=
  step_readCsr hh rfl (by decide) (by decide)

/-- POLL on a pending command: each early read keeps it pending, the engine's turn completes it, and the last read sees that
(R141, R292). -/
theorem poll_sees_done {s u : State} {i : Instr} {early : Nat} {rest : List HostEvent} (hb : s.status.busy = true)
    (hi : s.cmd = encode i) (hh : s.host = poll early ++ rest)
    (hrun : Host.Core.run Sys2Proof.core (early + 2) s = .next u) :
    u.host = rest ∧ u.cmd = encode i ∧ ∃ w : Word, u.lastRead = some w ∧ w.getLsbD 1 = true ∧ w.getLsbD 0 = false := by
  induction early generalizing s with
  | zero =>
    have hturn : step s = exec i { s with host := r32 offStatus :: rest } :=
      (step_engineMoves (.inl hh)).trans (engineTurn_command hb (by rw [hi, decode_encode]))
    obtain ⟨t, ht, hrun⟩ := run_succ_eq_next hrun
    obtain ⟨hidle, hdone, hcmd, hhost⟩ := exec_completes (hturn.symm.trans ht)
    obtain ⟨hbit0, hbit1, -⟩ := t.status.word_fields
    cases run_after_step (step_readStatus hhost) hrun
    exact ⟨rfl, hcmd.trans hi, t.status.word, rfl, hbit1.trans hdone, hbit0.trans hidle⟩
  | succ early ih =>
    have hread : step s = .next (afterRead (poll early ++ rest) s.status.word s) := step_readStatus hh
    rw [Nat.add_right_comm] at hrun
    exact ih (s := afterRead (poll early ++ rest) s.status.word s) hb hi rfl (run_after_step hread hrun)

/-- Settles O54: RUN's word is accepted, and POLL follows. -/
theorem pollSeesDone : Obligations.PollSeesDone := by
  intro s u i early rest hidle hh hrun
  exact poll_sees_done rfl rfl rfl (run_after_step (step_runCmd hidle hh) hrun)

end Sys2Proof.Machine
end

section
/-! SORT as the source's repeated extraction of the maximum (R172, R173). -/

namespace Sys2Proof.Machine

/-! ### The sort -/

theorem sortDesc_stable {α : Type} (key : α → Nat) (xs : List α) : StableDesc key xs (sortDesc key xs) :=
  ⟨sortDesc_perm key xs, sortDesc_pairwise key xs, sortDesc_filter key xs⟩

section
variable {α : Type} (key : α → Nat)

theorem takeMax_cons (x y : α) (ys : List α) : takeMax key x (y :: ys) =
    if key x < key (takeMax key y ys).1 then ((takeMax key y ys).1, x :: (takeMax key y ys).2) else (x, y :: ys) := rfl

theorem takeMax_length (x : α) (xs : List α) : (takeMax key x xs).2.length = xs.length := by
  induction xs generalizing x with
  | nil => rfl
  | cons y ys ih =>
    rw [takeMax_cons]
    split
    · rw [List.length_cons, ih, List.length_cons]
    · rfl

/-- The stable sort starts with the record the source extracts, and goes on with the sort of the others (R173). -/
theorem sortDesc_takeMax (x : α) (xs : List α) :
    sortDesc key (x :: xs) = (takeMax key x xs).1 :: sortDesc key (takeMax key x xs).2 := by
  induction xs generalizing x with
  | nil => rfl
  | cons y ys ih =>
    rw [takeMax_cons, sortDesc]
    by_cases hlt : key x < key (takeMax key y ys).1
    · rw [if_pos hlt, ih, insertDesc, if_neg (by omega), sortDesc]
    · rw [if_neg hlt, ih, insertDesc, if_pos (by omega)]

/-- The stable sort is the repeated extraction of the maximum (R173). -/
theorem repeatedMax_eq_sortDesc (xs : List α) : repeatedMax key xs.length xs = sortDesc key xs := by
  generalize hn : xs.length = n
  induction n generalizing xs with
  | zero => rw [List.length_eq_zero_iff.mp hn]; rfl
  | succ n ih =>
    cases xs with
    | nil => cases hn
    | cons x xs =>
      have hlen : (takeMax key x xs).2.length = n := by rw [takeMax_length]; simpa using hn
      rw [sortDesc_takeMax, ← ih _ hlen]; rfl

end

/-! ### The command -/

/-- In PHASE 1 SORT succeeds (R172, R294). -/
theorem exec_sort_counted {s : State} (h : s.phase = .counted) : exec .sort s = complete (sortStage s) := by
  rw [exec_eq_complete, stageOf, requirePhase_of_mem (by simp [h])]

/-- Settles O25: the stage's table is the stable sort of FREQ_TAB[0..NSYM). -/
theorem sortOrdersByCount : Obligations.SortOrdersByCount := by
  intro s
  refine ⟨fun hp => ⟨sortDesc FreqRecord.key s.records, exec_sort_counted hp, sortDesc_stable _ _⟩, fun hp => ?_⟩
  rw [exec_eq_complete]
  exact complete_requirePhase_of_not_mem (by simpa using hp) sortStage

/-- Settles O26: the extraction takes from the records what the stable sort puts first, again and again. -/
theorem sortIsRepeatedExtraction : Obligations.SortIsRepeatedExtraction := by
  intro s t hp h
  rw [exec_sort_counted hp] at h
  cases h
  exact ⟨(repeatedMax_eq_sortDesc _ s.records).symm, sortDesc_pairwise FreqRecord.key s.records⟩

end Sys2Proof.Machine
end

section
/-! FREQ's records in closed form: one for each distinct symbol in order of first appearance, with its count and first index
(R54, R170). -/

namespace Sys2Proof.Machine

/-! ### Order of first appearance -/

/-- The distinct symbols of an input, in order of first appearance (R170). -/
def firsts (p : List Sym) : List Sym := p.reverse.dedup.reverse

@[simp] theorem mem_firsts {p : List Sym} {x : Sym} : x ∈ firsts p ↔ x ∈ p := by simp [firsts]

theorem firsts_nodup (p : List Sym) : (firsts p).Nodup := List.nodup_reverse.mpr (List.nodup_dedup _)

@[simp] theorem firsts_length (p : List Sym) : (firsts p).length = p.dedup.length := by
  rw [firsts, List.length_reverse, (List.reverse_perm p).dedup.length_eq]

/-- A symbol seen before adds nothing. -/
theorem firsts_concat_of_mem {p : List Sym} {x : Sym} (h : x ∈ p) : firsts (p ++ [x]) = firsts p := by
  simp [firsts, List.dedup_cons_of_mem (List.mem_reverse.mpr h)]

/-- A new symbol comes last. -/
theorem firsts_concat_of_notMem {p : List Sym} {x : Sym} (h : x ∉ p) : firsts (p ++ [x]) = firsts p ++ [x] := by
  simp [firsts, List.dedup_cons_of_notMem (mt List.mem_reverse.mp h)]

/-- The first indexes rise along the order of first appearance. -/
theorem firsts_pairwise (p : List Sym) : (firsts p).Pairwise fun a b => p.idxOf a < p.idxOf b := by
  induction p using List.reverseRecOn with
  | nil => exact .nil
  | append_singleton p x ih =>
    have hold : (firsts p).Pairwise fun a b => (p ++ [x]).idxOf a < (p ++ [x]).idxOf b :=
      ih.imp_of_mem fun {a b} ha hb hab => by
        rwa [List.idxOf_append_of_mem (mem_firsts.mp ha), List.idxOf_append_of_mem (mem_firsts.mp hb)]
    by_cases hx : x ∈ p
    · rwa [firsts_concat_of_mem hx]
    · rw [firsts_concat_of_notMem hx]
      refine List.pairwise_append.mpr ⟨hold, List.pairwise_singleton _ _, fun a ha b hb => ?_⟩
      have ha := mem_firsts.mp ha
      rw [List.mem_singleton.mp hb, List.idxOf_append_of_mem ha, List.idxOf_append_of_notMem hx]
      exact Nat.lt_add_right _ (List.idxOf_lt_length_of_mem ha)

/-! ### The records of the symbols read so far -/

/-- The record of the symbol y after the input p (R54). -/
def recordAfter (p : List Sym) (y : Sym) : FreqRecord := ⟨y, BitVec.ofNat 32 (p.count y), BitVec.ofNat 18 (p.idxOf y)⟩

theorem recordAfter_concat_self {p : List Sym} {x : Sym} (h : x ∈ p) :
    recordAfter (p ++ [x]) x = { recordAfter p x with count := (recordAfter p x).count + 1 } := by
  simp [recordAfter, List.count_append, List.idxOf_append_of_mem h, BitVec.ofNat_add]

theorem recordAfter_concat_other {p : List Sym} {x y : Sym} (hy : y ∈ p) (h : y ≠ x) :
    recordAfter (p ++ [x]) y = recordAfter p y := by
  simp [recordAfter, List.count_append, List.idxOf_append_of_mem hy, h.symm]

theorem recordAfter_concat_new {p : List Sym} {x : Sym} (h : x ∉ p) :
    recordAfter (p ++ [x]) x = ⟨x, 1, BitVec.ofNat 18 p.length⟩ := by
  simp [recordAfter, List.count_append, List.idxOf_append_of_notMem h, List.count_eq_zero_of_not_mem h]

/-- A symbol without a record gets one at the end (R170). -/
theorem countOne_of_notMem {x : Sym} {t : List FreqRecord} (i : Nat) (h : x ∉ t.map FreqRecord.sym) :
    countOne x i t = t ++ [⟨x, 1, BitVec.ofNat 18 i⟩] := by
  induction t with
  | nil => rfl
  | cons r rs ih =>
    obtain ⟨hr, hrs⟩ := not_or.mp (mt List.mem_cons.mpr h)
    rw [countOne, if_neg (Ne.symm hr), ih hrs, List.cons_append]

/-- A symbol with a record has the count of that one record, and nothing else, go up (R170). -/
theorem countOne_map_of_mem {f g : Sym → FreqRecord} {x : Sym} {l : List Sym} (i : Nat) (hsym : ∀ y, (f y).sym = y)
    (hself : g x = { f x with count := (f x).count + 1 }) (hother : ∀ y ∈ l, y ≠ x → g y = f y) (hnodup : l.Nodup)
    (hx : x ∈ l) : countOne x i (l.map f) = l.map g := by
  induction l with
  | nil => cases hx
  | cons y ys ih =>
    obtain ⟨hy, hys⟩ := List.nodup_cons.mp hnodup
    obtain ⟨hhead, htail⟩ := List.forall_mem_cons.mp hother
    by_cases h : y = x
    · subst h
      rw [List.map_cons, countOne, if_pos (hsym y), List.map_cons, hself,
        List.map_congr_left fun z hz => htail z hz (ne_of_mem_of_not_mem hz hy)]
    · rw [List.map_cons, countOne, if_neg (by rwa [hsym]), List.map_cons, hhead h,
        ih htail hys ((List.mem_cons.mp hx).resolve_left (Ne.symm h))]

/-- FREQ_TAB after the input p (R170). -/
def recordsAfter (p : List Sym) : List FreqRecord := (firsts p).map (recordAfter p)

/-- One more symbol (R170). -/
theorem countOne_recordsAfter (p : List Sym) (x : Sym) : countOne x p.length (recordsAfter p) = recordsAfter (p ++ [x]) := by
  unfold recordsAfter
  by_cases hx : x ∈ p
  · rw [firsts_concat_of_mem hx]
    exact countOne_map_of_mem _ (fun _ => rfl) (recordAfter_concat_self hx)
      (fun y hy => recordAfter_concat_other (mem_firsts.mp hy)) (firsts_nodup p) (mem_firsts.mpr hx)
  · have hnew : x ∉ ((firsts p).map (recordAfter p)).map FreqRecord.sym := by simpa [recordAfter] using hx
    have hold : (firsts p).map (recordAfter (p ++ [x])) = (firsts p).map (recordAfter p) :=
      List.map_congr_left fun y hy =>
        have hy := mem_firsts.mp hy
        recordAfter_concat_other hy (ne_of_mem_of_not_mem hy hx)
    rw [countOne_of_notMem _ hnew, firsts_concat_of_notMem hx, List.map_append, hold, List.map_singleton,
      recordAfter_concat_new hx]

/-- The rest of the input. -/
theorem countFrom_recordsAfter (p xs : List Sym) : countFrom p.length (recordsAfter p) xs = recordsAfter (p ++ xs) := by
  induction xs generalizing p with
  | nil => rw [List.append_nil]; rfl
  | cons x xs ih => simpa [countFrom, countOne_recordsAfter] using ih (p ++ [x])

/-- FREQ's loop counts every symbol of the input (R170). -/
theorem recordsOf_eq (xs : List Word) : recordsOf xs = recordsAfter (xs.map toSym) :=
  countFrom_recordsAfter [] (xs.map toSym)

/-! ### Symbols as 32-bit words -/

theorem symWord_injective : Function.Injective symWord :=
  Function.LeftInverse.injective (g := toSym) fun y => by simp [symWord, toSym]

/-- A word up to 0xFFFFFF is its symbol's word (R50). -/
theorem symWord_toSym {x : Word} (h : x.toNat ≤ 0xFFFFFF) : symWord (toSym x) = x := by
  apply BitVec.eq_of_toNat_eq
  simp only [symWord, toSym, BitVec.toNat_setWidth]
  omega

/-- An input of words up to 0xFFFFFF is made of its symbols' words. -/
theorem map_symWord_toSym {xs : List Word} (h : ∀ x ∈ xs, x.toNat ≤ 0xFFFFFF) : (xs.map toSym).map symWord = xs := by
  rw [List.map_map]
  exact (List.map_congr_left fun x hx => symWord_toSym (h x hx)).trans (List.map_id xs)

theorem idxOf_map_symWord (p : List Sym) (y : Sym) : (p.map symWord).idxOf (symWord y) = p.idxOf y := by
  induction p with
  | nil => rfl
  | cons z zs ih => rw [List.map_cons, List.idxOf_cons, List.idxOf_cons, ih, symWord_injective.beq_eq]

end Sys2Proof.Machine
end

section
/-! The FREQ command: its records, its errors in their order and the mode it selects (R170, R171, R322, R324). -/

namespace Sys2Proof.Machine

/-! ### The records of an input -/

section
variable {xs : List Word} (h : ∀ x ∈ xs, x.toNat ≤ 0xFFFFFF)
include h

theorem recordsOf_length : (recordsOf xs).length = xs.dedup.length := by
  rw [recordsOf_eq, recordsAfter, List.length_map, firsts_length, ← List.length_map symWord,
    ← List.dedup_map_of_injective symWord_injective, map_symWord_toSym h]

/-- Every symbol of the input has a record. -/
theorem exists_mem_recordsOf {x : Word} (hx : x ∈ xs) : ∃ r ∈ recordsOf xs, symWord r.sym = x := by
  refine ⟨recordAfter (xs.map toSym) (toSym x), ?_, symWord_toSym (h x hx)⟩
  rw [recordsOf_eq]
  exact List.mem_map_of_mem (mem_firsts.mpr (List.mem_map_of_mem hx))

/-- A record is that of a symbol of the input, with its count and first index, where both fit their fields (R54, R170). -/
theorem mem_recordsOf {r : FreqRecord} (hlen : xs.length ≤ 2 ^ 18) (hr : r ∈ recordsOf xs) :
    symWord r.sym ∈ xs ∧ r.count.toNat = xs.count (symWord r.sym) ∧ r.first.toNat = xs.idxOf (symWord r.sym) := by
  rw [recordsOf_eq] at hr
  obtain ⟨y, hy, rfl⟩ := List.mem_map.mp hr
  have hmem : symWord y ∈ xs := map_symWord_toSym h ▸ List.mem_map_of_mem (mem_firsts.mp hy)
  have hcount : (xs.map toSym).count y = xs.count (symWord y) := by
    rw [← List.count_map_of_injective _ symWord symWord_injective, map_symWord_toSym h]
  have hfirst : (xs.map toSym).idxOf y = xs.idxOf (symWord y) := by
    rw [← idxOf_map_symWord, map_symWord_toSym h]
  have hle := List.count_le_length (a := symWord y) (l := xs)
  have hlt := List.idxOf_lt_length_of_mem hmem
  refine ⟨hmem, ?_, ?_⟩
  · rw [recordAfter, hcount]; exact Nat.mod_eq_of_lt (by omega)
  · rw [recordAfter, hfirst]; exact Nat.mod_eq_of_lt (by omega)

/-- The records stand in order of first appearance (R170). -/
theorem recordsOf_pairwise (hlen : xs.length ≤ 2 ^ 18) :
    (recordsOf xs).Pairwise fun a b => a.first.toNat < b.first.toNat := by
  have hrising : (recordsOf xs).Pairwise fun a b => (xs.map toSym).idxOf a.sym < (xs.map toSym).idxOf b.sym := by
    rw [recordsOf_eq]
    exact List.pairwise_map.mpr (firsts_pairwise _)
  refine hrising.imp_of_mem fun {a b} ha hb hab => ?_
  obtain ⟨-, -, hfirsta⟩ := mem_recordsOf h hlen ha
  obtain ⟨-, -, hfirstb⟩ := mem_recordsOf h hlen hb
  rw [hfirsta, hfirstb]
  rwa [← idxOf_map_symWord, ← idxOf_map_symWord, map_symWord_toSym h] at hab

end

/-! ### The mode -/

/-- The limits of R171, written out. -/
theorem modeLimit_eq (m : BitVec 2) : modeLimit m = [127, 255, 65535, 16777215].getD m.toNat 0 := by
  revert m; decide

theorem covered_eq_true_iff {xs : List Word} {m : BitVec 2} : covered xs m = true ↔ ∀ x ∈ xs, x.toNat ≤ modeLimit m := by
  simp [covered]

theorem covered_eq_false_iff {xs : List Word} {m : BitVec 2} : covered xs m = false ↔ ∃ x ∈ xs, modeLimit m < x.toNat := by
  simp [covered]

/-- The selected mode covers the input when any mode does (R171). -/
theorem covered_selectMode {xs : List Word} (h : covered xs 3 = true) : covered xs (selectMode xs) = true := by
  unfold selectMode
  split
  · assumption
  split
  · assumption
  split
  · assumption
  · exact h

/-- Every mode that covers the input is at least the selected one (R171). -/
theorem selectMode_le {xs : List Word} {m : BitVec 2} (h : covered xs m = true) : selectMode xs ≤ m := by
  have hne {k : BitVec 2} (hk : ¬ covered xs k = true) : m ≠ k := fun e => hk (e ▸ h)
  unfold selectMode
  split
  · exact Nat.zero_le _
  next h0 =>
  have := hne h0
  split
  · bv_omega
  next h1 =>
  have := hne h1
  split
  · bv_omega
  next h2 =>
  have := hne h2
  bv_omega

/-! ### The stage -/

section
variable {s : State}

theorem freqStage_inputLength (h : s.symCap < s.inLen.toNat) : freqStage s = .raised .inputLength s := by
  unfold freqStage; rw [if_pos h]

theorem freqStage_emptyInput (hcap : s.inLen.toNat ≤ s.symCap) (h : s.inLen = 0) : freqStage s = .raised .emptyInput s := by
  unfold freqStage; rw [if_neg (by omega), if_pos (by simp [h])]

/-- Past the two length checks a readable input decides (R170, R324). -/
theorem freqStage_eq_freqOf {xs : List Word} (hpos : 1 ≤ s.inLen.toNat) (hcap : s.inLen.toNat ≤ s.symCap)
    (hxs : s.symbols s.inLen.toNat = some xs) : freqStage s = freqOf xs s := by
  unfold freqStage; rw [if_neg (by omega), if_neg (by omega), hxs]

variable {xs : List Word}

theorem freqOf_unknownMode (h : ∃ x ∈ xs, 0xFFFFFF < x.toNat) : freqOf xs s = .raised .unknownMode s := by
  unfold freqOf; rw [covered_eq_false_iff.mpr h]; rfl

theorem freqOf_alphabetOverflow (h : ∀ x ∈ xs, x.toNat ≤ 0xFFFFFF) (hn : 255 < (recordsOf xs).length) :
    freqOf xs s = .raised .alphabetOverflow s := by
  unfold freqOf; rw [if_pos (covered_eq_true_iff.mpr h), if_pos hn]

end

/-! ### The statements -/

/-- Settles O22: the records are those of the symbols in order of first appearance, and the capacity bounds their fields. -/
theorem freqCountsSymbols : Obligations.FreqCountsSymbols := by
  intro s xs hcaps hpos hcap hxs hle hn
  have hlen : xs.length ≤ 2 ^ 18 := by
    obtain ⟨⟨-, hmax⟩, -⟩ := (capsOk_iff _ _).mp hcaps
    rw [(State.symbols_eq_some.mp hxs).1]; omega
  have hrecs := recordsOf_length hle
  have hstage : freqStage s = .ok (afterFreq xs (recordsOf xs) s) := freqStage_eq_ok.mpr
    ⟨xs, hcap, by omega, hxs, covered_eq_true_iff.mpr hle, by omega, rfl⟩
  refine ⟨recordsOf xs, BitVec.ofNat 8 (recordsOf xs).length, selectMode xs, ?_, hrecs, ?_,
    fun x hx => exists_mem_recordsOf hle hx, fun r hr => mem_recordsOf hle hlen hr, recordsOf_pairwise hle hlen⟩
  · rw [exec_eq_complete, stageOf, hstage]; rfl
  · rw [hrecs]; exact Nat.mod_eq_of_lt (by omega)

/-- Settles O23: the checks in the order of the stage, each of whose errors clears the results. -/
theorem freqErrorsInOrder : Obligations.FreqErrorsInOrder := by
  intro s
  have hfails {e : Err} (h : freqStage s = .raised e s) (he : e.isProtocol = false) :
      exec .freq s = .next (failedState e.code s) := by
    rw [exec_eq_complete, stageOf, h, complete_raised, raiseError_of_failure he]
  refine ⟨fun h => hfails (freqStage_inputLength h) rfl, fun hcap h => hfails (freqStage_emptyInput hcap h) rfl,
    fun xs hpos hcap hxs => ?_⟩
  have hstage := freqStage_eq_freqOf hpos hcap hxs
  refine ⟨fun h => hfails (hstage.trans (freqOf_unknownMode h)) rfl, fun hle hn => ?_⟩
  exact hfails (hstage.trans (freqOf_alphabetOverflow hle (by rwa [recordsOf_length hle]))) rfl

/-- Settles O24: the mode FREQ leaves is the selected one. -/
theorem freqSelectsSmallestMode : Obligations.FreqSelectsSmallestMode := by
  intro s t xs hxs h herr
  obtain ⟨u, hu, rfl⟩ := exec_succeeded h herr
  obtain ⟨xs', -, -, hxs', hcovered, -, rfl⟩ := freqStage_eq_ok.mp hu
  cases hxs.symm.trans hxs'
  simp only [completeOk_eq, afterFreq_mode]
  refine ⟨?_, fun m hm => ?_⟩
  · rw [← modeLimit_eq]
    exact covered_eq_true_iff.mp (covered_selectMode hcovered)
  · have hword : (BitVec.ofNat 2 m).toNat = m := Nat.mod_eq_of_lt (hm.trans (selectMode xs).isLt)
    have hnot : covered xs (BitVec.ofNat 2 m) = false := Bool.eq_false_iff.mpr fun hc =>
      absurd (BitVec.le_def.mp (selectMode_le hc)) (by rw [hword]; exact Nat.not_le.mpr hm)
    simpa only [modeLimit_eq, hword] using covered_eq_false_iff.mp hnot

end Sys2Proof.Machine
end

section
/-! The merge loop followed turn by turn: which nodes it makes and who owns them (R200-R204). -/

namespace Sys2Proof.Machine

/-! ### The merge loop as a relation -/

/-- What the merge loop does, one constructor for its end and one for a turn (R200): from the nodes and the queue it starts
with to those it ends with. -/
inductive Merges : List Node → List QEntry → List Node → List QEntry → Prop where
  /-- fewer than three entries are left -/
  | done {nodes : List Node} {q : List QEntry} (short : q.length < 3) : Merges nodes q nodes q
  /-- the two entries at the tail become one -/
  | turn {nodes nodes' : List Node} {q q' : List QEntry} {b a : QEntry} (some_left : q ≠ [])
      (more : Merges (nodes ++ [mergedNode b a]) (insertDesc QEntry.key ⟨nodes.length, a.freq + b.freq⟩ q) nodes' q') :
      Merges nodes (q ++ [b, a]) nodes' q'

/-- With fuel for its turns the loop does what the relation says. -/
theorem mergeLoop_merges {fuel : Nat} (nodes : List Node) {q : List QEntry} (h : q.length ≤ fuel + 2) :
    Merges nodes q (mergeLoop fuel nodes q).1 (mergeLoop fuel nodes q).2 := by
  induction fuel generalizing nodes q with
  | zero => exact .done (by omega)
  | succ fuel ih =>
    by_cases h3 : q.length < 3
    · rw [mergeLoop_short _ _ h3]
      exact .done h3
    · obtain ⟨r, b, a, rfl⟩ := exists_tail (q := q) (by omega)
      have hr : r ≠ [] := by rintro rfl; simp at h3
      rw [mergeLoop_turn _ _ _ _ hr]
      exact .turn hr (ih _ (by simpa using h))

theorem mem_insertDesc_key {x e : QEntry} {q : List QEntry} : e ∈ insertDesc QEntry.key x q ↔ e = x ∨ e ∈ q := by
  rw [(insertDesc_perm QEntry.key x q).mem_iff, List.mem_cons]

section
variable {nodes nodes' : List Node} {q q' : List QEntry} {b a : QEntry}

/-- The nodes the loop starts with stay in place. -/
theorem Merges.keeps_nodes (h : Merges nodes q nodes' q') : nodes <+: nodes' := by
  induction h with
  | done => exact List.prefix_rfl
  | turn _ _ ih => exact (List.prefix_append _ _).trans ih

/-- One or two entries are left, as many as there were where there were fewer than three. -/
theorem Merges.length_left (h : Merges nodes q nodes' q') : q'.length = min q.length 2 := by
  induction h with
  | done short => omega
  | turn some_left _ ih =>
    have := List.length_pos_iff.mpr some_left
    simp at ih ⊢
    omega

/-! ### Every node has one owner -/

/-- The ids of a node's children, right before left. -/
def Node.childIds (x : Node) : List Nat := (x.right.toList ++ x.left.toList).map BitVec.toNat

/-- The forest the loop works on (R204): each node so far is a child of exactly one node or stands in the queue exactly once, and
every id to come fits a child field's 9 bits (R55). -/
structure Forest (nodes : List Node) (q : List QEntry) : Prop where
  size : nodes.length + q.length ≤ 512
  owned : (nodes.flatMap Node.childIds ++ q.map QEntry.id).Perm (List.range nodes.length)

theorem Forest.id_lt (h : Forest nodes q) {e : QEntry} (he : e ∈ q) : e.id < nodes.length :=
  List.mem_range.mp (h.owned.mem_iff.mp (List.mem_append_right _ (List.mem_map_of_mem he)))

theorem Forest.ids_nodup (h : Forest nodes q) : (q.map QEntry.id).Nodup :=
  (h.owned.nodup_iff.mpr List.nodup_range).of_append_right

theorem Forest.id_lt_512 (h : Forest nodes q) {e : QEntry} (he : e ∈ q) : e.id < 512 := by
  have := h.id_lt he
  have := h.size
  omega

/-- The last two ids of the queue differ from each other and from the others. -/
theorem Forest.tail_ids (h : Forest nodes (q ++ [b, a])) : b.id ≠ a.id ∧ ∀ e ∈ q, e.id ≠ b.id ∧ e.id ≠ a.id := by
  have hids := h.ids_nodup
  simp only [List.map_append, List.map_cons, List.map_nil, List.nodup_append, List.nodup_cons, List.mem_singleton] at hids
  obtain ⟨-, ⟨hba, -⟩, hq⟩ := hids
  exact ⟨hba, fun e he => ⟨hq _ (List.mem_map_of_mem he) _ (by simp), hq _ (List.mem_map_of_mem he) _ (by simp)⟩⟩

/-- The children of the node that merges b and a. -/
theorem childIds_mergedNode (hb : b.id < 512) (ha : a.id < 512) : (mergedNode b a).childIds = [b.id, a.id] := by
  simp [Node.childIds, mergedNode, childId, Nat.mod_eq_of_lt hb, Nat.mod_eq_of_lt ha]

/-- A turn moves b and a from the queue to the new node, and puts the new node in the queue. -/
theorem Forest.turn (h : Forest nodes (q ++ [b, a])) :
    Forest (nodes ++ [mergedNode b a]) (insertDesc QEntry.key ⟨nodes.length, a.freq + b.freq⟩ q) where
  size := by simpa [Nat.add_assoc, Nat.add_comm 1] using h.size
  owned := by
    have hids : (mergedNode b a).childIds = [b.id, a.id] :=
      childIds_mergedNode (h.id_lt_512 (by simp)) (h.id_lt_512 (by simp))
    have hq := (insertDesc_perm QEntry.key ⟨nodes.length, a.freq + b.freq⟩ q).map QEntry.id
    have howned := h.owned
    simp only [List.map_append, List.map_cons, List.map_nil] at howned hq
    simp only [List.flatMap_append, List.flatMap_singleton, hids, List.length_append, List.length_singleton, List.range_succ]
    refine (hq.append_left _).trans (.trans ?_ (howned.append_right [nodes.length]))
    refine List.perm_iff_count.mpr fun k => ?_
    simp only [List.count_append, List.count_cons, List.count_nil]
    omega

theorem leafQueue_ids (rs : List FreqRecord) : (leafQueue 0 rs).map QEntry.id = List.range rs.length := by
  rw [leafQueue_eq, List.map_map, List.range_eq_range']
  exact List.zipIdx_map_snd 0 rs

/-- The leaves and their queue: no node has a child yet. -/
theorem forest_leaves {rs : List FreqRecord} (h : rs.length ≤ 256) : Forest (rs.map leafOf) (leafQueue 0 rs) where
  size := by simp; omega
  owned := by
    have hleaf : (rs.map leafOf).flatMap Node.childIds = [] := by simp [List.flatMap_map, Node.childIds, leafOf]
    rw [hleaf, leafQueue_ids, List.length_map]
    exact .refl _

/-- What the loop ends with is a forest still. -/
theorem Merges.forest (h : Merges nodes q nodes' q') (hf : Forest nodes q) : Forest nodes' q' := by
  induction h with
  | done => exact hf
  | turn _ _ ih => exact ih hf.turn

/-! ### The nodes the loop makes -/

/-- The frequencies beside the ids of the queue are those of the nodes (R200). -/
def Weighed (nodes : List Node) (q : List QEntry) : Prop := ∀ e ∈ q, (slotOf nodes e.id).freq = e.freq

theorem slotOf_prefix {nodes nodes' : List Node} {k : Nat} (h : nodes <+: nodes') (hk : k < nodes.length) :
    slotOf nodes' k = slotOf nodes k := by
  obtain ⟨ys, rfl⟩ := h
  simp [slotOf, List.getD, List.getElem?_append_left hk]

theorem Weighed.turn (hf : Forest nodes (q ++ [b, a])) (hw : Weighed nodes (q ++ [b, a])) :
    Weighed (nodes ++ [mergedNode b a]) (insertDesc QEntry.key ⟨nodes.length, a.freq + b.freq⟩ q) := by
  intro e he
  rcases mem_insertDesc_key.mp he with rfl | he
  · rw [slotOf_of_prefix List.prefix_rfl]; rfl
  · have he' : e ∈ q ++ [b, a] := List.mem_append_left _ he
    rw [slotOf_prefix (List.prefix_append _ _) (hf.id_lt he')]
    exact hw e he'

/-- Node k joins two earlier nodes (R200, R202). -/
def JoinsAt (nodes : List Node) (k : Nat) : Prop :=
  ∃ l r : BitVec 9, l.toNat < k ∧ r.toNat < k ∧
    nodes[k]? = some ⟨.internal, (slotOf nodes l.toNat).freq + (slotOf nodes r.toNat).freq, 0, some l, some r⟩

/-- The node of a turn, in any list of nodes that goes on from there. -/
theorem joinsAt_turn {final : List Node} (hf : Forest nodes (q ++ [b, a])) (hw : Weighed nodes (q ++ [b, a]))
    (hpre : nodes ++ [mergedNode b a] <+: final) : JoinsAt final nodes.length := by
  have child (e : QEntry) (he : e ∈ q ++ [b, a]) : ∃ c, childId e.id = some c ∧ c.toNat < nodes.length ∧
      (slotOf final c.toNat).freq = e.freq := by
    have hlt := hf.id_lt he
    obtain ⟨c, hc, hn⟩ := childId_toNat (hf.id_lt_512 he)
    refine ⟨c, hc, by omega, ?_⟩
    rw [hn, slotOf_prefix ((List.prefix_append _ _).trans hpre) hlt]
    exact hw e he
  obtain ⟨l, hl, hllt, hlfreq⟩ := child a (by simp)
  obtain ⟨r, hr, hrlt, hrfreq⟩ := child b (by simp)
  refine ⟨l, r, hllt, hrlt, ?_⟩
  obtain ⟨ys, rfl⟩ := hpre
  rw [hlfreq, hrfreq]
  simp [mergedNode, hl, hr]

/-- Every node the loop makes joins two earlier ones. -/
theorem Merges.joinsAt (h : Merges nodes q nodes' q') (hf : Forest nodes q) (hw : Weighed nodes q) {final : List Node}
    (hpre : nodes' <+: final) {k : Nat} (hlo : nodes.length ≤ k) (hhi : k < nodes'.length) : JoinsAt final k := by
  induction h with
  | done => omega
  | turn _ more ih =>
    rcases Nat.eq_or_lt_of_le hlo with rfl | hlo
    · exact joinsAt_turn hf hw (more.keeps_nodes.trans hpre)
    · exact ih hf.turn (Weighed.turn hf hw) hpre (by simpa using hlo) hhi

end
end Sys2Proof.Machine
end

section
/-! The codes CODEGEN assigns, followed turn by turn from the root down to the queue of the leaves (R205, R206, R209, R211). -/

namespace Sys2Proof.Machine

/-! ### One visit -/

/-- The code of node k once the nodes from m on are visited, the root first (R205). -/
def codeFrom (nodes : List Node) (m k : Nat) : BitStr := codeAt (assignCodes nodes m (nodes.length - m) []) k

section
variable {nodes : List Node} {m k : Nat} {l r : BitVec 9}

/-- The last of the nodes visited is the lowest. -/
theorem assignCodes_visit (nodes : List Node) (lo n : Nat) (cs : List (Nat × BitStr)) :
    assignCodes nodes lo (n + 1) cs =
      childCodes nodes (assignCodes nodes (lo + 1) n cs) lo ++ assignCodes nodes (lo + 1) n cs := by
  induction n generalizing cs with
  | zero => rfl
  | succ n ih =>
    rw [assignCodes, ih, assignCodes, Nat.add_assoc, Nat.add_comm 1]

theorem assignCodes_from (hm : m < nodes.length) : assignCodes nodes m (nodes.length - m) [] =
    childCodes nodes (assignCodes nodes (m + 1) (nodes.length - (m + 1)) []) m ++
      assignCodes nodes (m + 1) (nodes.length - (m + 1)) [] := by
  rw [← assignCodes_visit, Nat.sub_add_eq, Nat.sub_add_cancel (by omega)]

/-- Before any visit no code is assigned. -/
theorem codeFrom_of_length_le (h : nodes.length ≤ m) : codeFrom nodes m k = [] := by
  rw [codeFrom, Nat.sub_eq_zero_of_le h]; rfl

/-- A visit gives the right child its parent's code and a 1. -/
theorem codeFrom_right (hm : m < nodes.length) (hr : (slotOf nodes m).right = some r) :
    codeFrom nodes m r.toNat = codeFrom nodes (m + 1) m ++ [true] := by
  rw [codeFrom, assignCodes_from hm, codeAt_right hr]; rfl

/-- A visit gives the left child its parent's code and a 0. -/
theorem codeFrom_left (hm : m < nodes.length) (hl : (slotOf nodes m).left = some l)
    (hne : (slotOf nodes m).right ≠ some l) : codeFrom nodes m l.toNat = codeFrom nodes (m + 1) m ++ [false] := by
  rw [codeFrom, assignCodes_from hm]
  cases hr : (slotOf nodes m).right with
  | none => simp [codeFrom, codeAt, childCodes, hl, hr]
  | some r =>
    have hlr : l.toNat ≠ r.toNat := fun h => hne (by rw [hr, BitVec.eq_of_toNat_eq h])
    simp [codeFrom, codeAt, childCodes, hl, hr, List.lookup_cons, beq_false_of_ne hlr]

theorem childCodes_ids (nodes : List Node) (cs : List (Nat × BitStr)) (x : Nat) :
    (childCodes nodes cs x).map Prod.fst = (slotOf nodes x).childIds := by
  unfold childCodes Node.childIds
  rw [List.map_append, List.map_append]
  congr 1
  · cases (slotOf nodes x).right <;> rfl
  · cases (slotOf nodes x).left <;> rfl

/-- A visit gives nothing to any other node. -/
theorem codeFrom_other (hm : m < nodes.length) (hk : k ∉ (slotOf nodes m).childIds) :
    codeFrom nodes m k = codeFrom nodes (m + 1) k := by
  have hlookup (cs : List (Nat × BitStr)) : (childCodes nodes cs m).lookup k = none :=
    List.lookup_eq_none_iff.mpr fun p hp => bne_iff_ne.mpr fun hkp =>
      hk (childCodes_ids nodes cs m ▸ hkp ▸ List.mem_map_of_mem hp)
  rw [codeFrom, assignCodes_from hm, codeAt, List.lookup_append, hlookup]
  rfl

/-- A path continued. -/
theorem descend_append (nodes : List Node) (k : Nat) (s t : BitStr) :
    descend nodes k (s ++ t) = (descend nodes k s).bind fun x => descend nodes x t := by
  induction s generalizing k with
  | nil => rfl
  | cons b s ih =>
    simp only [List.cons_append, descend]
    cases (if b then (slotOf nodes k).right else (slotOf nodes k).left) with
    | none => rfl
    | some c => exact ih c.toNat

/-- One step further on a path. -/
theorem descend_child {root x : Nat} {s : BitStr} {b : Bool} (h : descend nodes root s = some m)
    (hc : (if b then (slotOf nodes m).right else (slotOf nodes m).left) = childId x) (hx : x < 512) :
    descend nodes root (s ++ [b]) = some x := by
  obtain ⟨c, hc', rfl⟩ := childId_toNat hx
  rw [descend_append, h, Option.bind_some, descend, hc, hc']; rfl

end

/-! ### The visit of a turn and of the root -/

section
variable {nodes nodes' final : List Node} {q q' : List QEntry} {b a : QEntry} {m : Nat} {freq : BitVec 32}

/-- A visit to a node over b and a gives b the node's code and a 1, and a the node's code and a 0. -/
theorem codeFrom_pair (hm : m < final.length) (hr : (slotOf final m).right = childId b.id)
    (hl : (slotOf final m).left = childId a.id) (hb : b.id < 512) (ha : a.id < 512) (hne : b.id ≠ a.id) :
    codeFrom final m b.id = codeFrom final (m + 1) m ++ [true] ∧
      codeFrom final m a.id = codeFrom final (m + 1) m ++ [false] := by
  obtain ⟨r, hr', hrb⟩ := childId_toNat hb
  obtain ⟨l, hl', hla⟩ := childId_toNat ha
  rw [hr'] at hr
  rw [hl'] at hl
  have hrl : (slotOf final m).right ≠ some l := by
    rw [hr, ne_eq, Option.some_inj]
    rintro rfl
    omega
  rw [← hrb, ← hla]
  exact ⟨codeFrom_right hm hr, codeFrom_left hm hl hrl⟩

/-- A turn's visit gives b and a, the two entries at the tail, the codes of the new node's children, and the rest of the queue
nothing (R202, R205). -/
theorem codeFrom_turn (hf : Forest nodes (q ++ [b, a])) (hpre : nodes ++ [mergedNode b a] <+: final) :
    (codeFrom final nodes.length b.id = codeFrom final (nodes.length + 1) nodes.length ++ [true] ∧
      codeFrom final nodes.length a.id = codeFrom final (nodes.length + 1) nodes.length ++ [false]) ∧
      ∀ e ∈ q, codeFrom final nodes.length e.id = codeFrom final (nodes.length + 1) e.id := by
  have hm : nodes.length < final.length := by simpa using hpre.length_le
  have hslot := slotOf_of_prefix hpre
  have hb := hf.id_lt_512 (e := b) (by simp)
  have ha := hf.id_lt_512 (e := a) (by simp)
  obtain ⟨hba, hrest⟩ := hf.tail_ids
  refine ⟨codeFrom_pair hm (by rw [hslot]; rfl) (by rw [hslot]; rfl) hb ha hba, fun e he => codeFrom_other hm ?_⟩
  rw [hslot, childIds_mergedNode hb ha]
  simpa using hrest e he

/-- The root's visit gives one entry left the code 1 (R203, R206). -/
theorem codeFrom_root_one (hb : b.id < 512) : codeFrom (nodes ++ [rootOver freq [b]]) nodes.length b.id = [true] := by
  obtain ⟨r, hr, hrb⟩ := childId_toNat hb
  have h := codeFrom_right (nodes := nodes ++ [rootOver freq [b]]) (m := nodes.length) (r := r) (by simp)
    (by rw [slotOf_of_prefix List.prefix_rfl, rootOver, hr])
  rwa [hrb, codeFrom_of_length_le (m := nodes.length + 1) (by simp)] at h

/-- The root's visit gives two entries left the codes 1 and 0 (R203, R206). -/
theorem codeFrom_root_two (hb : b.id < 512) (ha : a.id < 512) (hne : b.id ≠ a.id) :
    codeFrom (nodes ++ [rootOver freq [b, a]]) nodes.length b.id = [true] ∧
      codeFrom (nodes ++ [rootOver freq [b, a]]) nodes.length a.id = [false] := by
  have hslot : slotOf (nodes ++ [rootOver freq [b, a]]) nodes.length = rootOver freq [b, a] := slotOf_of_prefix List.prefix_rfl
  have h := codeFrom_pair (final := nodes ++ [rootOver freq [b, a]]) (m := nodes.length) (by simp) (by rw [hslot]; rfl)
    (by rw [hslot]; rfl) hb ha hne
  rwa [codeFrom_of_length_le (m := nodes.length + 1) (by simp)] at h

/-- At the end of the loop the queue has one entry, or two with different ids, or none where it had none. -/
theorem Forest.end_cases (h : Forest nodes q) (short : q.length < 3) :
    q = [] ∨ (∃ x, q = [x] ∧ x.id < 512) ∨ ∃ x y, q = [x, y] ∧ x.id < 512 ∧ y.id < 512 ∧ x.id ≠ y.id := by
  match q, short with
  | [], _ => exact .inl rfl
  | [x], _ => exact .inr (.inl ⟨x, rfl, h.id_lt_512 (by simp)⟩)
  | [x, y], _ =>
    exact .inr (.inr ⟨x, y, rfl, h.id_lt_512 (by simp), h.id_lt_512 (by simp), by simpa using h.ids_nodup⟩)

/-- The code of a queue entry is a path from the root to its node (R206). -/
theorem Merges.descend_codeFrom (h : Merges nodes q nodes' q') (hf : Forest nodes q)
    (hfinal : final = nodes' ++ [rootOver freq q']) :
    ∀ e ∈ q, descend final nodes'.length (codeFrom final nodes.length e.id) = some e.id := by
  induction h with
  | @done nodes q short =>
    subst hfinal
    have hslot : slotOf (nodes ++ [rootOver freq q]) nodes.length = rootOver freq q := slotOf_of_prefix List.prefix_rfl
    rcases hf.end_cases short with rfl | ⟨x, rfl, hx⟩ | ⟨x, y, rfl, hx, hy, hne⟩
    · simp
    · rw [List.forall_mem_singleton, codeFrom_root_one hx]
      exact descend_child (s := []) rfl (by rw [hslot]; rfl) hx
    · obtain ⟨hcx, hcy⟩ := codeFrom_root_two (nodes := nodes) (freq := freq) hx hy hne
      rw [List.forall_mem_cons, List.forall_mem_singleton, hcx, hcy]
      exact ⟨descend_child (s := []) rfl (by rw [hslot]; rfl) hx, descend_child (s := []) rfl (by rw [hslot]; rfl) hy⟩
  | @turn nodes nodes' q q' b a some_left more ih =>
    have hpre : nodes ++ [mergedNode b a] <+: final := hfinal ▸ more.keeps_nodes.trans (List.prefix_append _ _)
    have hslot := slotOf_of_prefix hpre
    obtain ⟨⟨hb, ha⟩, hrest⟩ := codeFrom_turn hf hpre
    have ih := ih hf.turn hfinal
    simp only [List.length_append, List.length_singleton] at ih
    have hnew := ih ⟨nodes.length, a.freq + b.freq⟩ (mem_insertDesc_key.mpr (.inl rfl))
    intro e he
    rcases List.mem_append.mp he with hq | hq
    · rw [hrest e hq]
      exact ih e (mem_insertDesc_key.mpr (.inr hq))
    · have hlt := hf.id_lt_512 he
      rcases List.mem_pair.mp hq with rfl | rfl
      · rw [hb]
        exact descend_child hnew (by rw [hslot]; rfl) hlt
      · rw [ha]
        exact descend_child hnew (by rw [hslot]; rfl) hlt

/-- The share of the code space a code takes: 2^(-len) (R209). -/
def share (s : BitStr) : ℚ := (1 / 2) ^ s.length

theorem share_concat (s : BitStr) (b : Bool) : share (s ++ [b]) = share s / 2 := by
  rw [share, List.length_append, List.length_singleton, pow_succ, mul_one_div, share]

/-- The entries of the queue share the code space out; a lone entry has half of it (R209). -/
theorem Merges.share_sum (h : Merges nodes q nodes' q') (hf : Forest nodes q) (hq : q ≠ [])
    (hfinal : final = nodes' ++ [rootOver freq q']) :
    (q.map fun e => share (codeFrom final nodes.length e.id)).sum = if q.length = 1 then 1 / 2 else 1 := by
  induction h with
  | @done nodes q short =>
    rcases hf.end_cases short with rfl | ⟨x, rfl, hx⟩ | ⟨x, y, rfl, hx, hy, hne⟩
    · contradiction
    · simp [share, hfinal, codeFrom_root_one hx]
    · obtain ⟨hcx, hcy⟩ := codeFrom_root_two (nodes := nodes) (freq := freq) hx hy hne
      norm_num [share, hfinal, hcx, hcy]
  | @turn nodes nodes' q q' b a some_left more ih =>
    have hpre : nodes ++ [mergedNode b a] <+: final := hfinal ▸ more.keeps_nodes.trans (List.prefix_append _ _)
    obtain ⟨⟨hb, ha⟩, hrest⟩ := codeFrom_turn hf hpre
    have ih := ih hf.turn (List.ne_nil_of_length_pos (by simp)) hfinal
    rw [((insertDesc_perm QEntry.key _ q).map _).sum_eq, if_neg (by simpa using some_left)] at ih
    rw [if_neg (by simp), ← ih, List.map_append, List.map_congr_left fun e he => congrArg share (hrest e he)]
    simp only [List.map_cons, List.map_nil, List.sum_append, List.sum_cons, List.sum_nil, hb, ha, share_concat,
      List.length_append, List.length_singleton]
    ring

/-! ### How long a code can be -/

/-- The queue in descending order, its frequencies adding up to `total` (R201). -/
structure Ordered (total : Nat) (q : List QEntry) : Prop where
  descending : q.Pairwise fun x y => y.key ≤ x.key
  sum : (q.map QEntry.key).sum = total

/-- A sum within 32 bits of frequencies: the new node's is the sum of its children's. -/
theorem Ordered.merged_key {total : Nat} (h : Ordered total (q ++ [b, a])) (ht : total < 2 ^ 32) (id : Nat) :
    QEntry.key ⟨id, a.freq + b.freq⟩ = a.key + b.key := by
  have hsum := h.sum
  simp [QEntry.key] at hsum ⊢
  omega

theorem Ordered.turn {total : Nat} (h : Ordered total (q ++ [b, a])) (ht : total < 2 ^ 32) (id : Nat) :
    Ordered total (insertDesc QEntry.key ⟨id, a.freq + b.freq⟩ q) where
  descending := insertDesc_pairwise QEntry.key _ (List.pairwise_append.mp h.descending).1
  sum := by
    rw [((insertDesc_perm QEntry.key _ q).map _).sum_eq, List.map_cons, List.sum_cons, h.merged_key ht, ← h.sum]
    simp
    omega

/-- No entry of the queue is smaller than the two at the tail. -/
theorem Ordered.tail_le {total : Nat} (h : Ordered total (q ++ [b, a])) {d : QEntry} (hd : d ∈ q) :
    a.key ≤ b.key ∧ b.key ≤ d.key := by
  obtain ⟨-, htail, hle⟩ := List.pairwise_append.mp h.descending
  exact ⟨by simpa using htail, hle d hd b (by simp)⟩

/-- An entry with a code of len bits and some other entry bound the total from below, weighted with Fibonacci numbers: the step of
the argument by which a long code needs a large total (R211). -/
def Outweighed (total : Nat) (q : List QEntry) (e : QEntry) (len : Nat) : Prop :=
  ∃ d ∈ q, d.id ≠ e.id ∧ Nat.fib (len + 1) * e.key + Nat.fib len * d.key ≤ total

/-- From the new node to its children, whose codes are one bit longer. -/
theorem Outweighed.children {total id len : Nat} (ho : Ordered total (q ++ [b, a])) (ht : total < 2 ^ 32)
    (hne : b.id ≠ a.id)
    (h : Outweighed total (insertDesc QEntry.key ⟨id, a.freq + b.freq⟩ q) ⟨id, a.freq + b.freq⟩ len) :
    Outweighed total (q ++ [b, a]) b (len + 1) ∧ Outweighed total (q ++ [b, a]) a (len + 1) := by
  obtain ⟨d, hd, hid, hle⟩ := h
  have hdq : d ∈ q := (mem_insertDesc_key.mp hd).resolve_left (by rintro rfl; exact hid rfl)
  obtain ⟨hab, hbd⟩ := ho.tail_le hdq
  have hfb := Nat.mul_le_mul_left (Nat.fib len) hbd
  have hfa := Nat.mul_le_mul_left (Nat.fib len) hab
  rw [ho.merged_key ht] at hle
  refine ⟨⟨a, by simp, hne.symm, ?_⟩, ⟨b, by simp, hne, ?_⟩⟩
  · rw [Nat.fib_add_two]; linarith
  · rw [Nat.fib_add_two]; linarith

/-- For an entry that stays, a child stands in for the new node. -/
theorem Outweighed.other {total id len : Nat} {e : QEntry} (ho : Ordered total (q ++ [b, a])) (ht : total < 2 ^ 32)
    (hne : a.id ≠ e.id) (h : Outweighed total (insertDesc QEntry.key ⟨id, a.freq + b.freq⟩ q) e len) :
    Outweighed total (q ++ [b, a]) e len := by
  obtain ⟨d, hd, hid, hle⟩ := h
  rcases mem_insertDesc_key.mp hd with rfl | hd
  · rw [ho.merged_key ht] at hle
    exact ⟨a, by simp, hne, by linarith [Nat.zero_le (Nat.fib len * b.key)]⟩
  · exact ⟨d, List.mem_append_left _ hd, hid, hle⟩

/-- Every entry of the queue is outweighed at the length of its code (R211). -/
theorem Merges.outweighed {total : Nat} (h : Merges nodes q nodes' q') (hf : Forest nodes q) (ho : Ordered total q)
    (ht : total < 2 ^ 32) (hq : 2 ≤ q.length) (hfinal : final = nodes' ++ [rootOver freq q']) :
    ∀ e ∈ q, Outweighed total q e (codeFrom final nodes.length e.id).length := by
  induction h with
  | @done nodes q short =>
    rcases hf.end_cases short with rfl | ⟨x, rfl, hx⟩ | ⟨x, y, rfl, hx, hy, hne⟩
    · simp
    · simp at hq
    · obtain ⟨hcx, hcy⟩ := codeFrom_root_two (nodes := nodes) (freq := freq) hx hy hne
      have hsum := ho.sum
      simp at hsum
      simp only [List.forall_mem_cons, hfinal, hcx, hcy]
      exact ⟨⟨y, by simp, hne.symm, by simp; omega⟩, ⟨x, by simp, hne, by simp; omega⟩, by simp⟩
  | @turn nodes nodes' q q' b a some_left more ih =>
    have hpre : nodes ++ [mergedNode b a] <+: final := hfinal ▸ more.keeps_nodes.trans (List.prefix_append _ _)
    obtain ⟨⟨hb, ha⟩, hrest⟩ := codeFrom_turn hf hpre
    have hl := List.length_pos_iff.mpr some_left
    have ih := ih hf.turn (ho.turn ht _) (by simp; omega) hfinal
    simp only [List.length_append, List.length_singleton] at ih
    obtain ⟨hba, hae⟩ := hf.tail_ids
    obtain ⟨hnewb, hnewa⟩ := (ih _ (mem_insertDesc_key.mpr (.inl rfl))).children ho ht hba
    intro e he
    rcases List.mem_append.mp he with hmem | hmem
    · rw [hrest e hmem]
      exact (ih e (mem_insertDesc_key.mpr (.inr hmem))).other ho ht (hae e hmem).2.symm
    · rcases List.mem_pair.mp hmem with rfl | rfl
      · rw [hb, List.length_append]
        exact hnewb
      · rw [ha, List.length_append]
        exact hnewa

end
end Sys2Proof.Machine
end

section
/-! BUILD's tree and CODEGEN's codes as a whole: one owner for each node, the codes as paths, their Kraft sum and their length
(R200-R211). -/

namespace Sys2Proof.Machine

/-! ### The tree -/

section
variable {rs : List FreqRecord}

theorem weighed_leaves (rs : List FreqRecord) : Weighed (rs.map leafOf) (leafQueue 0 rs) := by
  intro e he
  rw [leafQueue_eq] at he
  obtain ⟨⟨r, k⟩, hr, rfl⟩ := List.mem_map.mp he
  have hk : rs[k]? = some r := by simpa using List.mem_zipIdx_iff_getElem?.mp hr
  simp [slotOf, List.getD, hk, leafOf]

/-- The built tree, taken apart: the loop's nodes and the root over the queue the loop ends with (R200, R203). -/
theorem buildNodes_merges (rs : List FreqRecord) : ∃ nodes q,
    mergeLoop rs.length (rs.map leafOf) (leafQueue 0 rs) = (nodes, q) ∧ Merges (rs.map leafOf) (leafQueue 0 rs) nodes q ∧
      buildNodes rs = nodes ++ [rootOver (sumCounts rs) q] :=
  ⟨_, _, rfl, mergeLoop_merges _ (by simp), buildNodes_eq rs⟩

/-- The first nodes are the leaves in record order (R204). -/
theorem buildNodes_leaf {k : Nat} {r : FreqRecord} (h : rs[k]? = some r) : (buildNodes rs)[k]? = some (leafOf r) := by
  obtain ⟨nodes, q, -, hm, hN⟩ := buildNodes_merges rs
  obtain ⟨ys, hys⟩ := hm.keeps_nodes.trans (hN ▸ List.prefix_append nodes _)
  rw [← hys, List.getElem?_append_left (by simpa using (List.getElem?_eq_some_iff.mp h).1), List.getElem?_map, h]
  rfl

/-- The root's children are the entries left in the queue. -/
theorem childIds_rootOver {nodes : List Node} {q : List QEntry} (hf : Forest nodes q) (short : q.length < 3) (freq : BitVec 32) :
    (rootOver freq q).childIds = q.map QEntry.id := by
  rcases hf.end_cases short with rfl | ⟨x, rfl, hx⟩ | ⟨x, y, rfl, hx, hy, -⟩
  · rfl
  · simp [rootOver, Node.childIds, childId, Nat.mod_eq_of_lt hx]
  · simp [rootOver, Node.childIds, childId, Nat.mod_eq_of_lt hx, Nat.mod_eq_of_lt hy]

/-- Every node of a built tree but the root is a child once (R204). -/
theorem childIds_buildNodes (h : rs.length ≤ 256) :
    ((buildNodes rs).flatMap Node.childIds).Perm (List.range ((buildNodes rs).length - 1)) := by
  obtain ⟨nodes, q, -, hm, hN⟩ := buildNodes_merges rs
  have hf := hm.forest (forest_leaves h)
  have short : q.length < 3 := by rw [hm.length_left]; omega
  rw [hN, List.flatMap_append, List.flatMap_singleton, childIds_rootOver hf short]
  simpa using hf.owned

/-- The id of the child of node p on a side, the right one for true. -/
def childOf (nodes : List Node) (p : Nat) (side : Bool) : Option Nat :=
  (if side then (slotOf nodes p).right else (slotOf nodes p).left).map BitVec.toNat

theorem mem_childIds {nodes : List Node} {p k : Nat} :
    k ∈ (slotOf nodes p).childIds ↔ ∃ side, childOf nodes p side = some k := by
  simp [Node.childIds, childOf, or_comm]

/-- A node whose two children differ has each of them on one side. -/
theorem side_unique {nodes : List Node} {p k : Nat} {side side' : Bool} (h : (slotOf nodes p).childIds.Nodup)
    (hs : childOf nodes p side = some k) (hs' : childOf nodes p side' = some k) : side' = side := by
  by_contra hne
  obtain rfl : side' = !side := Bool.eq_not_iff.mpr hne
  obtain ⟨hright, hleft⟩ : childOf nodes p true = some k ∧ childOf nodes p false = some k := by
    cases side
    · exact ⟨hs', hs⟩
    · exact ⟨hs, hs'⟩
  obtain ⟨r, hr, rfl⟩ := Option.map_eq_some_iff.mp hright
  obtain ⟨l, hl, hlr⟩ := Option.map_eq_some_iff.mp hleft
  rw [if_pos rfl] at hr
  rw [if_neg (by simp)] at hl
  simp [Node.childIds, hr, hl, hlr] at h

/-- Where no id is a child twice, a node has one owner and one side of it (R204). -/
theorem owner_unique {nodes : List Node} {p p' k : Nat} {side side' : Bool} (h : (nodes.flatMap Node.childIds).Nodup)
    (hp : p < nodes.length) (hp' : p' < nodes.length) (hs : childOf nodes p side = some k)
    (hs' : childOf nodes p' side' = some k) : p' = p ∧ side' = side := by
  obtain ⟨hnodup, hdisjoint⟩ := List.nodup_flatMap.mp h
  have hslot {i : Nat} (hi : i < nodes.length) : slotOf nodes i = nodes[i] := by simp [slotOf, hi]
  have hmem := mem_childIds.mpr ⟨side, hs⟩
  have hmem' := mem_childIds.mpr ⟨side', hs'⟩
  rw [hslot hp] at hmem
  rw [hslot hp'] at hmem'
  rcases Nat.lt_trichotomy p p' with hlt | rfl | hlt
  · exact absurd hmem' (List.pairwise_iff_getElem.mp hdisjoint p p' hp hp' hlt hmem)
  · exact ⟨rfl, side_unique (hslot hp ▸ hnodup _ (List.getElem_mem hp)) hs hs'⟩
  · exact absurd hmem (List.pairwise_iff_getElem.mp hdisjoint p' p hp' hp hlt hmem')

/-- Every node of a built tree but the root has an owner (R204). -/
theorem exists_owner (h : rs.length ≤ 256) {k : Nat} (hk : k < (buildNodes rs).length - 1) :
    ∃ p < (buildNodes rs).length, ∃ side, childOf (buildNodes rs) p side = some k := by
  obtain ⟨x, hx, hmem⟩ := List.mem_flatMap.mp ((childIds_buildNodes h).mem_iff.mpr (List.mem_range.mpr hk))
  obtain ⟨p, hp, rfl⟩ := List.mem_iff_getElem.mp hx
  refine ⟨p, hp, mem_childIds.mp ?_⟩
  simpa [slotOf, hp] using hmem

/-! ### The codes -/

/-- An entry of the leaves' queue, by its id. -/
theorem exists_mem_leafQueue {k : Nat} (hk : k < rs.length) : ∃ e ∈ leafQueue 0 rs, e.id = k :=
  List.mem_map.mp (leafQueue_ids rs ▸ List.mem_range.mpr hk)

/-- The code of leaf k is a path from the root to it (R206). -/
theorem descend_code (h : rs.length ≤ 256) {k : Nat} (hk : k < rs.length) :
    descend (buildNodes rs) ((buildNodes rs).length - 1) (codeFrom (buildNodes rs) rs.length k) = some k := by
  obtain ⟨nodes, q, -, hm, hN⟩ := buildNodes_merges rs
  obtain ⟨e, he, rfl⟩ := exists_mem_leafQueue hk
  have hlen : (buildNodes rs).length - 1 = nodes.length := by simp [hN]
  have := hm.descend_codeFrom (forest_leaves h) hN e he
  rwa [List.length_map, ← hlen] at this

/-- The codes of two leaves or more share the code space out; one leaf has half of it (R209). -/
theorem share_sum_leaves (h : rs.length ≤ 256) (h0 : rs ≠ []) :
    ((List.range rs.length).map fun k => share (codeFrom (buildNodes rs) rs.length k)).sum =
      if rs.length = 1 then 1 / 2 else 1 := by
  obtain ⟨nodes, q, -, hm, hN⟩ := buildNodes_merges rs
  have hq : leafQueue 0 rs ≠ [] := List.ne_nil_of_length_pos (by simpa using List.length_pos_iff.mpr h0)
  have := hm.share_sum (forest_leaves h) hq hN
  rwa [leafQueue_length, List.length_map, ← Function.comp_def (fun k => share _) QEntry.id, ← List.map_map,
    leafQueue_ids] at this

/-- No leaf lies on the path to another, so no code begins another (R209). -/
theorem code_prefix_free (h : rs.length ≤ 256) {i j : Nat} (hi : i < rs.length) (hj : j < rs.length)
    (hpre : codeFrom (buildNodes rs) rs.length i <+: codeFrom (buildNodes rs) rs.length j) : i = j := by
  obtain ⟨t, ht⟩ := hpre
  have hdi := descend_code h hi
  have hdj := descend_code h hj
  rw [← ht, descend_append, hdi, Option.bind_some] at hdj
  cases t with
  | nil => exact Option.some_inj.mp hdj
  | cons b t =>
    have hleaf : slotOf (buildNodes rs) i = leafOf rs[i] := by
      rw [slotOf, List.getD, buildNodes_leaf (List.getElem?_eq_getElem hi)]; rfl
    simp [descend, hleaf, leafOf] at hdj

theorem leafQueue_keys (k : Nat) (rs : List FreqRecord) : (leafQueue k rs).map QEntry.key = rs.map FreqRecord.key := by
  induction rs generalizing k with
  | nil => rfl
  | cons r rs ih => rw [leafQueue, List.map_cons, ih]; rfl

/-- SORT's records make an ordered queue (R172, R201). -/
theorem ordered_leaves {total : Nat} (hdesc : rs.Pairwise fun a b => b.key ≤ a.key)
    (hsum : (rs.map FreqRecord.key).sum = total) : Ordered total (leafQueue 0 rs) where
  descending := by
    have hkeys : (rs.map FreqRecord.key).Pairwise fun x y => y ≤ x := List.pairwise_map.mpr hdesc
    exact List.pairwise_map.mp (leafQueue_keys 0 rs ▸ hkeys)
  sum := by rw [leafQueue_keys, hsum]

theorem leafQueue_key_pos (hpos : ∀ r ∈ rs, 1 ≤ r.count.toNat) {e : QEntry} (he : e ∈ leafQueue 0 rs) : 1 ≤ e.key := by
  obtain ⟨r, hr, hkey⟩ := List.mem_map.mp (leafQueue_keys 0 rs ▸ List.mem_map_of_mem (f := QEntry.key) he)
  exact hkey ▸ hpos r hr

/-- A single record's leaf has the code 1 (R206). -/
theorem code_single (r : FreqRecord) : codeFrom (buildNodes [r]) 1 0 = [true] :=
  codeFrom_root_one (nodes := [leafOf r]) (b := ⟨0, r.count⟩) (by simp)

/-- Where the least counts are 1, a leaf whose code has len bits needs a total of fib (len + 2) (R211). -/
theorem fib_le_total {total : Nat} (h : rs.length ≤ 256) (h2 : 2 ≤ rs.length) (hcount : RecordsCount rs total)
    (ht : total < 2 ^ 32) (hdesc : rs.Pairwise fun a b => b.key ≤ a.key) {k : Nat} (hk : k < rs.length) :
    Nat.fib ((codeFrom (buildNodes rs) rs.length k).length + 2) ≤ total := by
  obtain ⟨nodes, q, -, hm, hN⟩ := buildNodes_merges rs
  obtain ⟨e, he, rfl⟩ := exists_mem_leafQueue hk
  obtain ⟨d, hd, -, hle⟩ := hm.outweighed (forest_leaves h) (ordered_leaves hdesc hcount.sum) ht (by simpa using h2) hN e he
  rw [List.length_map] at hle
  have hpe := Nat.mul_le_mul_left (Nat.fib ((codeFrom (buildNodes rs) rs.length e.id).length + 1))
    (leafQueue_key_pos hcount.pos he)
  have hpd := Nat.mul_le_mul_left (Nat.fib (codeFrom (buildNodes rs) rs.length e.id).length)
    (leafQueue_key_pos hcount.pos hd)
  rw [Nat.fib_add_two]
  omega

/-- Records in descending order of counts of at least 1 give codes of at most 25 bits, for up to 2^18 symbols (R211). -/
theorem code_length_le {total : Nat} (h : rs.length ≤ 256) (hcount : RecordsCount rs total) (ht : total ≤ 2 ^ 18)
    (hdesc : rs.Pairwise fun a b => b.key ≤ a.key) {k : Nat} (hk : k < rs.length) :
    (codeFrom (buildNodes rs) rs.length k).length ≤ 25 := by
  by_cases h2 : 2 ≤ rs.length
  · have hfib := fib_le_total h h2 hcount (by omega) hdesc hk
    have h28 : Nat.fib 28 = 317811 := by norm_num
    by_contra hlong
    have := Nat.fib_mono (show 28 ≤ (codeFrom (buildNodes rs) rs.length k).length + 2 by omega)
    omega
  · obtain ⟨r, rfl⟩ := List.length_eq_one_iff.mp (show rs.length = 1 by omega)
    obtain rfl : k = 0 := by simpa using hk
    rw [List.length_singleton, code_single]
    decide

end
end Sys2Proof.Machine
end

section
/-! The code table in the invariant: its codes begin one another nowhere, fill the code space, and are short (R209, R211). -/

namespace Sys2Proof.Machine

/-! ### The code table -/

/-- Entry k of the code table is leaf k's symbol and code (R205, R207). -/
theorem codeTableOf_getElem? {nodes : List Node} {n k : Nat} {e : CodeEntry} :
    (codeTableOf nodes n nodes.length)[k]? = some e ↔ k < n ∧ e = ⟨(slotOf nodes k).sym, codeFrom nodes n k⟩ := by
  rw [codeTableOf, List.getElem?_map, Option.map_eq_some_iff]
  constructor
  · rintro ⟨i, hi, rfl⟩
    obtain ⟨hk, rfl⟩ := List.getElem?_eq_some_iff.mp hi
    exact ⟨by simpa using hk, by simp [codeFrom]⟩
  · rintro ⟨hk, rfl⟩
    exact ⟨k, by simp [hk], rfl⟩

theorem mem_codeTableOf {nodes : List Node} {n : Nat} {e : CodeEntry} :
    e ∈ codeTableOf nodes n nodes.length ↔ ∃ k < n, e = ⟨(slotOf nodes k).sym, codeFrom nodes n k⟩ := by
  simp [List.mem_iff_getElem?, codeTableOf_getElem?]

section
variable {s : State}

/-- In a phase in which NODE is valid the state's code table is that of the tree of its records. -/
theorem State.EncodingInv.codeTable_eq (h : s.EncodingInv) (hv : s.phase.nodeValid = true) :
    s.codeTable = codeTableOf (buildNodes s.freqTab) s.freqTab.length (buildNodes s.freqTab).length := by
  obtain ⟨hnodes, hnnodes⟩ := h.tree hv
  rw [State.codeTable, hnnodes, hnodes, h.length]

theorem State.EncodingInv.records_le (h : s.EncodingInv) : s.freqTab.length ≤ 256 := by
  have := s.nsym.isLt
  rw [h.length]
  omega

/-- In the invariant no code is longer than 25 bits (R211). -/
theorem State.EncodingInv.code_le (h : s.EncodingInv) (hv : s.phase.nodeValid = true) :
    ∀ e ∈ s.codeTable, e.code.length ≤ 25 := by
  obtain ⟨⟨-, hcap⟩, -⟩ := (capsOk_iff _ _).mp h.caps
  have hne : s.phase ≠ .counted := by rintro e; simp [e, Phase.nodeValid] at hv
  intro e he
  rw [h.codeTable_eq hv] at he
  obtain ⟨k, hk, rfl⟩ := mem_codeTableOf.mp he
  exact code_length_le h.records_le h.count (h.encN_le.trans hcap) (h.descending hne) hk

end

/-- The share of a code in units of 2^(-64). -/
theorem pow_sub_eq_share {c : BitStr} (h : c.length ≤ 64) : ((2 ^ (64 - c.length) : ℕ) : ℚ) = 2 ^ 64 * share c := by
  rw [Nat.cast_pow, Nat.cast_ofNat, pow_sub₀ 2 two_ne_zero h, share, one_div, inv_pow]

/-- The Kraft sum of a table whose codes fit 64 bits, from the shares of its codes (R209). -/
theorem kraft_sum_eq {tab : List CodeEntry} (h : ∀ e ∈ tab, e.code.length ≤ 64) :
    (((tab.map fun e => 2 ^ (64 - e.code.length)).sum : ℕ) : ℚ) = 2 ^ 64 * (tab.map fun e => share e.code).sum := by
  induction tab with
  | nil => simp
  | cons e tab ih =>
    obtain ⟨he, htab⟩ := List.forall_mem_cons.mp h
    rw [List.map_cons, List.sum_cons, Nat.cast_add, pow_sub_eq_share he, ih htab, List.map_cons, List.sum_cons, mul_add]

/-- The shares of a built tree's codes (R209). -/
theorem share_sum_codeTableOf {rs : List FreqRecord} (h : rs.length ≤ 256) (h0 : rs ≠ []) :
    ((codeTableOf (buildNodes rs) rs.length (buildNodes rs).length).map fun e => share e.code).sum =
      if rs.length = 1 then 1 / 2 else 1 := by
  rw [← share_sum_leaves h h0, codeTableOf, List.map_map]
  rfl

/-- Settles O32: a code is a path to its leaf, where no path goes on, and the codes share the code space out. -/
theorem codesArePrefixFree : Obligations.CodesArePrefixFree := by
  intro s hs hp
  have hv : s.phase.nodeValid = true := by rcases hp with hp | hp <;> rw [hp] <;> rfl
  have h := hs.encodingInv (by rcases hp with hp | hp <;> simp [Phase.encoding, hp])
  have hcode := h.code_le hv
  rw [(h.code hp).1]
  constructor
  · intro i j a b hi hj hne hpre
    rw [h.codeTable_eq hv, codeTableOf_getElem?] at hi hj
    obtain ⟨hi, rfl⟩ := hi
    obtain ⟨hj, rfl⟩ := hj
    exact hne (code_prefix_free h.records_le hi hj hpre)
  · have h1 : s.nsym = 1 ↔ s.freqTab.length = 1 := by rw [h.length, ← BitVec.toNat_inj]; rfl
    apply Nat.cast_injective (R := ℚ)
    rw [kraft_sum_eq fun e he => (hcode e he).trans (by decide), h.codeTable_eq hv,
      share_sum_codeTableOf h.records_le (h.count.ne_nil h.encN_pos)]
    simp only [h1]
    split <;> norm_num

/-- In PHASE 3 CODEGEN succeeds when no code is longer than 63 bits (R205, R294). -/
theorem exec_codegen_tree {s : State} (hp : s.phase = .tree) (h : maxLength s.codeTable ≤ 63) : exec .codegen s = .next { s with
    codeTab := s.codeTable, maxLen := BitVec.ofNat 6 (maxLength s.codeTable), payStart := 0, payEnd := 0, outLen := 0,
    phase := .coded, status := okStatus s } := by
  rw [exec_eq_complete, stageOf, requirePhase_of_mem (by simp [hp]), codegenStage_eq_ok.mpr ⟨h, rfl⟩]; rfl

/-- Settles O33: no code of the invariant's tree is longer than 25 bits. -/
theorem codeLengthOverflowUnreachable : Obligations.CodeLengthOverflowUnreachable := by
  intro s hs hp
  have h := hs.encodingInv (by simp [Phase.encoding, hp])
  have hmax := maxLength_le.mpr (h.code_le (by rw [hp]; rfl))
  exact ⟨_, exec_codegen_tree hp (hmax.trans (by decide)), rfl, (Nat.mod_le _ _).trans hmax⟩

end Sys2Proof.Machine
end

section
/-! The statements about BUILD's loop, BUILD's tree and CODEGEN's table (R200-R208). -/

namespace Sys2Proof.Machine

/-! ### The queue and the loop -/

/-- Where insertion puts an entry: after the larger ones, before the first that is not (R201). -/
theorem insertDesc_split {α : Type} (key : α → Nat) (x : α) (xs : List α) : ∃ before after, xs = before ++ after ∧
    insertDesc key x xs = before ++ x :: after ∧ (∀ y ∈ before, key x < key y) ∧ ∀ y, after.head? = some y → key y ≤ key x := by
  induction xs with
  | nil => exact ⟨[], [], rfl, rfl, by simp, by simp⟩
  | cons y ys ih =>
    unfold insertDesc
    split
    · next hle => exact ⟨[], y :: ys, rfl, rfl, by simp, by simpa using hle⟩
    · next hlt =>
      obtain ⟨before, after, rfl, hins, hbefore, hafter⟩ := ih
      refine ⟨y :: before, after, rfl, by rw [hins]; rfl, List.forall_mem_cons.mpr ⟨by omega, hbefore⟩, hafter⟩

/-- Settles O29: the place insertion takes, and that it keeps the order. -/
theorem queueInsertionPoint : Obligations.QueueInsertionPoint := fun e q =>
  ⟨insertDesc_split QEntry.key e q, insertDesc_pairwise QEntry.key e⟩

/-- Settles O30: one turn, and the end of the loop. -/
theorem mergeTakesTail : Obligations.MergeTakesTail := fun fuel nodes _ b a =>
  ⟨mergeLoop_turn fuel nodes b a, mergeLoop_short fuel nodes⟩

/-! ### BUILD -/

/-- In PHASE 2 with a record BUILD succeeds and leaves the tree of the records (R200, R294). -/
theorem exec_build_sorted {s : State} (hp : s.phase = .sorted) (h : 1 ≤ s.nsym.toNat) : exec .build s = .next { s with
    nodeTab := buildNodes s.records, nnodes := BitVec.ofNat 32 (buildNodes s.records).length, payStart := 0, payEnd := 0,
    outLen := 0, phase := .tree, status := okStatus s } := by
  have hne : s.nsym ≠ 0 := by rintro e; simp [e] at h
  rw [exec_eq_complete, stageOf, requirePhase_of_mem (by simp [hp]), buildStage_eq_ok.mpr ⟨hne, rfl⟩]; rfl

/-- With as many records as NSYM says. -/
theorem State.records_length {s : State} (h : s.nsym.toNat ≤ s.freqTab.length) : s.records.length = s.nsym.toNat := by
  simp [State.records, h]

theorem sumCounts_eq (rs : List FreqRecord) : sumCounts rs = (rs.map FreqRecord.count).sum := by
  induction rs with
  | nil => rfl
  | cons r rs ih => rw [sumCounts, ih, List.map_cons, List.sum_cons]

/-- The root over the entries left: a right child, and a left one where there are two (R203). -/
theorem rootOver_eq {nodes : List Node} {q : List QEntry} (hf : Forest nodes q) (hq : q ≠ []) (short : q.length < 3)
    (freq : BitVec 32) : ∃ (l : Option (BitVec 9)) (r : BitVec 9), rootOver freq q = ⟨.root, freq, 0, l, some r⟩ ∧
      (l.isSome = true ↔ q.length = 2) ∧ q.map QEntry.id = r.toNat :: l.toList.map BitVec.toNat := by
  rcases hf.end_cases short with rfl | ⟨x, rfl, hx⟩ | ⟨x, y, rfl, hx, hy, -⟩
  · contradiction
  · obtain ⟨r, hr, hrx⟩ := childId_toNat hx
    exact ⟨none, r, by rw [rootOver, hr], by simp, by simp [hrx]⟩
  · obtain ⟨r, hr, hrx⟩ := childId_toNat hx
    obtain ⟨l, hl, hly⟩ := childId_toNat hy
    exact ⟨some l, r, by rw [rootOver, hr, hl], by simp, by simp [hrx, hly]⟩

/-- Settles O28: the children of all nodes are the ids below the root's, each once. -/
theorem buildNodesOwnChildren : Obligations.BuildNodesOwnChildren := by
  intro s t hp hn hlen ht k hk
  cases (exec_build_sorted hp hn).symm.trans ht
  have hrs : s.records.length ≤ 256 := by rw [State.records_length hlen]; exact s.nsym.isLt.le
  obtain ⟨p, hplt, side, hchild⟩ := exists_owner hrs hk
  refine ⟨p, side, hplt, fun p' side' hp' => ⟨fun h => ?_, ?_⟩⟩
  · exact owner_unique ((childIds_buildNodes hrs).nodup_iff.mpr List.nodup_range) hplt hp' hchild h
  · rintro ⟨rfl, rfl⟩
    exact hchild

/-- Settles O27: the loop's nodes join earlier ones, and the root stands over the queue the loop ends with. -/
theorem buildMakesTree : Obligations.BuildMakesTree := by
  intro s n hp hn hpos hlen
  have hrs : s.records.length = n := by rw [State.records_length (hn ▸ hlen), hn]
  have h256 : s.records.length ≤ 256 := by have := s.nsym.isLt; omega
  have hsize : (buildNodes s.records).length = if n = 1 then 2 else 2 * n - 1 :=
    hrs ▸ buildNodes_length (List.ne_nil_of_length_pos (by omega))
  obtain ⟨nodes, q, hloop, hm, hN⟩ := buildNodes_merges s.records
  have hf := hm.forest (forest_leaves h256)
  have hl : q.length = min n 2 := by rw [hm.length_left, leafQueue_length, hrs]
  have hlast : (buildNodes s.records).length - 1 = nodes.length := by simp [hN]
  refine ⟨buildNodes s.records, ?_, hsize, ?_, ?_, ?_⟩
  · rw [exec_build_sorted hp (hn ▸ hpos), hsize]
  · intro k r hk hr
    exact buildNodes_leaf (by rw [State.records, List.getElem?_take, if_pos (hn ▸ hk), hr])
  · obtain ⟨l, r, hroot, hleft, hids⟩ :=
      rootOver_eq hf (List.ne_nil_of_length_pos (by omega)) (by omega) (sumCounts s.records)
    have hlt (i : BitVec 9) (hi : i.toNat ∈ r.toNat :: l.toList.map BitVec.toNat) : i.toNat < nodes.length := by
      obtain ⟨e, he, hid⟩ := List.mem_map.mp (hids ▸ hi)
      exact hid ▸ hf.id_lt he
    have htake : s.freqTab.take n = s.records := by rw [hn]; rfl
    rw [hlast, htake, ← sumCounts_eq]
    refine ⟨l, r, by simp [hN, hroot], hleft.trans (by omega), fun i hi => hlt i (by simp [hi]), hlt r (by simp), q, ?_, hids⟩
    have hqueue := leafQueue_eq 0 s.records
    rw [hrs] at hloop
    simp only [← hqueue, hN, List.take_left]
    exact hloop
  · intro k hlo hhi
    exact hm.joinsAt (forest_leaves h256) (weighed_leaves s.records) (hN ▸ List.prefix_append _ _) (by simpa [hrs] using hlo)
      (hlast ▸ hhi)

/-! ### CODEGEN -/

/-- A table with a code that is not empty has an entry of its largest length (R208). -/
theorem exists_length_eq_maxLength {tab : List CodeEntry} (h : 1 ≤ maxLength tab) :
    ∃ e ∈ tab, e.code.length = maxLength tab := by
  by_contra! hne
  have hle : maxLength tab ≤ maxLength tab - 1 := maxLength_le.mpr fun e he => by
    have := maxLength_le.mp le_rfl e he
    have := hne e he
    omega
  omega

/-- In PHASE 3 a code longer than 63 bits fails CODEGEN (R208, R322). -/
theorem exec_codegen_overflow {s : State} (hp : s.phase = .tree) (h : 63 < maxLength s.codeTable) :
    exec .codegen s = .next (failedState 8 s) := by
  have hstage : codegenStage s = .raised .codeLengthOverflow s := if_pos h
  rw [exec_eq_complete, stageOf, requirePhase_of_mem (by simp [hp]), hstage, complete_raised, raiseError_of_failure rfl]
  rfl

/-- Settles O31: the table CODEGEN stores holds the leaves' paths, and MAXLEN its largest length. -/
theorem codegenAssignsPaths : Obligations.CodegenAssignsPaths := by
  intro s hp hpos hlen hnodes hnnodes
  have hn := s.nsym.isLt
  have htab : s.codeTable = codeTableOf s.nodeTab s.nsym.toNat s.nodeTab.length := by rw [State.codeTable, hnnodes]
  refine ⟨fun ⟨e, he, hlong⟩ => exec_codegen_overflow hp ?_, fun hshort => ?_⟩
  · exact hlong.trans_le (maxLength_le.mp le_rfl e he)
  have hmax := maxLength_le.mpr hshort
  have hm : (BitVec.ofNat 6 (maxLength s.codeTable)).toNat = maxLength s.codeTable := Nat.mod_eq_of_lt (by omega)
  have hone : 1 ≤ maxLength s.codeTable := by
    rw [htab, hnodes, ← hlen]
    exact one_le_maxLength (List.ne_nil_of_length_pos (by omega)) (by omega)
  refine ⟨s.codeTable, BitVec.ofNat 6 (maxLength s.codeTable), exec_codegen_tree hp hmax, by simp [htab, codeTableOf], ?_⟩
  rw [hm]
  refine ⟨hone, maxLength_le.mp le_rfl, exists_length_eq_maxLength hone, fun k hk => ?_⟩
  refine ⟨_, by rw [htab, codeTableOf_getElem?]; exact ⟨hk, rfl⟩, rfl, ?_⟩
  rw [hnodes, ← hlen]
  exact descend_code (by omega) (hlen ▸ hk)

end Sys2Proof.Machine
end

section
/-! PACK's lookups, its errors in their order, and COMPRESS on an input in range (R230, R232, R234, R235, R322, R324). -/

namespace Sys2Proof.Machine

/-! ### The lookup -/

/-- A table entry matches a word when their values are the same number (R232). -/
theorem sym_setWidth_beq (e : CodeEntry) (x : Word) : (e.sym.setWidth 32 == x) = decide (e.sym.toNat = x.toNat) := by
  have hsym := e.sym.isLt
  rw [Bool.beq_eq_decide_eq, decide_eq_decide, ← BitVec.toNat_inj, BitVec.toNat_setWidth, Nat.mod_eq_of_lt (by omega)]

/-- The code found is that of the first entry that matches (R232). -/
theorem codeFor_eq_some {tab : List CodeEntry} {x : Word} {c : BitStr} : codeFor tab x = some c ↔
    ∃ before e after, tab = before ++ e :: after ∧ e.sym.toNat = x.toNat ∧ e.code = c ∧
      ∀ p ∈ before, p.sym.toNat ≠ x.toNat := by
  simp only [codeFor, sym_setWidth_beq, Option.map_eq_some_iff, List.find?_eq_some_iff_append, decide_eq_true_eq,
    Bool.not_eq_true', decide_eq_false_iff_not]
  constructor
  · rintro ⟨e, ⟨hsym, before, after, htab, hbefore⟩, hcode⟩
    exact ⟨before, e, after, htab, hsym, hcode, hbefore⟩
  · rintro ⟨before, e, after, htab, hsym, hcode, hbefore⟩
    exact ⟨e, ⟨hsym, before, after, htab, hbefore⟩, hcode⟩

/-- A symbol of the table has 24 bits, so a larger word matches none (R232). -/
theorem codeFor_eq_none_of_large {tab : List CodeEntry} {x : Word} (h : 0xFFFFFF < x.toNat) : codeFor tab x = none := by
  rw [codeFor, Option.map_eq_none_iff, List.find?_eq_none]
  intro e _
  have hsym := e.sym.isLt
  rw [sym_setWidth_beq, decide_eq_true_eq]
  omega

/-- Settles O36: the lookup is the first match, and no entry matches a word of more than 24 bits. -/
theorem packLooksUpFullWord : Obligations.PackLooksUpFullWord := fun _ _ =>
  ⟨fun _ => codeFor_eq_some, codeFor_eq_none_of_large⟩

/-! ### PACK's errors -/

/-- PACK's lookups on a readable input with a symbol that has no code: they neither succeed nor meet an unwritten entry (R232). -/
theorem payloadCodes_unmatched {s : State} {tab : List CodeEntry} {n : Nat} {xs : List Word} (hread : s.symbols n = some xs)
    (h : ∃ x ∈ xs, codeFor tab x = none) : payloadCodes tab s.symIn 0 n = .raised .unmatchedCode := by
  obtain ⟨hlen, hsym⟩ := State.symbols_eq_some.mp hread
  cases hp : payloadCodes tab s.symIn 0 n with
  | ok cs =>
    obtain ⟨hcs, hcodes⟩ := payloadCodes_eq_ok.mp hp
    obtain ⟨x, hx, hnone⟩ := h
    obtain ⟨k, hk, rfl⟩ := List.mem_iff_getElem.mp hx
    obtain ⟨y, hy, hcode⟩ := hcodes k (hlen ▸ hk)
    rw [Nat.zero_add, hsym k (hlen ▸ hk), List.getElem?_eq_getElem hk] at hy
    cases hy
    rw [hnone, List.getElem?_eq_getElem (by omega)] at hcode
    cases hcode
  | raised e => rw [payloadCodes_raised hp]
  | fault f =>
    obtain ⟨-, k, hk, hnone⟩ := payloadCodes_fault hp
    rw [Nat.zero_add, hsym k hk, List.getElem?_eq_getElem (hlen ▸ hk)] at hnone
    cases hnone

/-- PACK in phase with no container to write: the failure of R322 with BYTE_OUT discarded. -/
theorem exec_pack_fails {s : State} {e : Err} (hp : s.phase ∈ [Phase.coded, .packed]) (h : packBytes s = .raised e) :
    FailsDiscarding (exec .pack s) e.code s 0x400000 (0x400000 + s.byteCap) := by
  have hstage : packStage s = .raised e (discardByteOut s) := packStage_eq_raised.mpr ⟨h, rfl⟩
  refine ⟨Memory.forget s.mem byteOutBase (byteOutBase + s.byteCap), ?_, Memory.read_forget _ _ _⟩
  rw [exec_eq_complete, stageOf, requirePhase_of_mem hp, hstage, complete_raised,
    raiseError_of_failure (packStage_failures s e _ hstage)]
  rfl

/-- Settles O35: the lookups raise first, and with all codes found only the size is left to fail. -/
theorem packErrorsInOrder : Obligations.PackErrorsInOrder := by
  intro s xs hp hread
  have hp : s.phase ∈ [Phase.coded, .packed] := by simpa using hp
  refine ⟨fun h => exec_pack_fails (e := .unmatchedCode) hp ?_, fun cs hcodes hlong =>
    exec_pack_fails (e := .outputOverflow) hp ?_⟩
  · rw [packBytes, payloadCodes_unmatched hread h]
  · rw [packBytes, payloadCodes_of_mapM hread hcodes]
    exact if_pos hlong

/-! ### COMPRESS up to PACK -/

/-- The state after FREQ and SORT on the input xs (R170, R172). -/
def afterSort (xs : List Word) (s : State) : State :=
  { afterFreq xs (recordsOf xs) s with freqTab := sortedRecords xs, phase := .sorted }

/-- The state after FREQ, SORT and BUILD on the input xs (R200). -/
def afterBuild (xs : List Word) (s : State) : State :=
  { afterSort xs s with
    nodeTab := buildNodes (sortedRecords xs)
    nnodes := BitVec.ofNat 32 (buildNodes (sortedRecords xs)).length
    phase := .tree }

/-- The state after FREQ, SORT, BUILD and CODEGEN on the input xs (R205). -/
def afterCodegen (xs : List Word) (s : State) : State :=
  { afterBuild xs s with
    codeTab := huffmanTable xs
    maxLen := BitVec.ofNat 6 (maxLength (huffmanTable xs))
    phase := .coded }

theorem sortedRecords_length (xs : List Word) : (sortedRecords xs).length = (recordsOf xs).length := sortDesc_length _ _

section
variable {s : State} {xs : List Word} (hn : (recordsOf xs).length ≤ 255)
include hn

/-- NSYM holds the number of records. -/
theorem nsym_afterFreq : (afterFreq xs (recordsOf xs) s).nsym.toNat = (recordsOf xs).length := Nat.mod_eq_of_lt (by omega)

theorem sortStage_afterFreq : sortStage (afterFreq xs (recordsOf xs) s) = .ok (afterSort xs s) := by
  have hrecords : (afterFreq xs (recordsOf xs) s).records = recordsOf xs :=
    List.take_of_length_le (nsym_afterFreq hn).ge
  unfold sortStage
  rw [hrecords]
  rfl

theorem buildStage_afterSort (hne : recordsOf xs ≠ []) : buildStage (afterSort xs s) = .ok (afterBuild xs s) := by
  have hnsym : (afterSort xs s).nsym.toNat = (recordsOf xs).length := nsym_afterFreq (s := s) hn
  have hrecords : (afterSort xs s).records = sortedRecords xs :=
    List.take_of_length_le (by rw [hnsym]; exact (sortedRecords_length xs).le)
  refine buildStage_eq_ok.mpr ⟨fun h0 => ?_, by rw [hrecords]; rfl⟩
  rw [h0] at hnsym
  exact hne (List.length_eq_zero_iff.mp hnsym.symm)

/-- The code table of the tree is the input's (R205): NSYM and NNODES hold the numbers of leaves and of nodes. -/
theorem codeTable_afterBuild (hne : recordsOf xs ≠ []) : (afterBuild xs s).codeTable = huffmanTable xs := by
  have hnsym : (afterBuild xs s).nsym.toNat = (sortedRecords xs).length :=
    (nsym_afterFreq (s := s) hn).trans (sortedRecords_length xs).symm
  have hlen := sortedRecords_length xs
  have hnnodes : (afterBuild xs s).nnodes.toNat = (buildNodes (sortedRecords xs)).length := by
    refine Nat.mod_eq_of_lt ?_
    rw [buildNodes_length fun h => hne (List.length_eq_zero_iff.mp (by rw [← hlen, h]; rfl))]
    split <;> omega
  rw [State.codeTable, hnsym, hnnodes]
  rfl

theorem codegenStage_afterBuild (hne : recordsOf xs ≠ []) (hcodes : ∀ e ∈ huffmanTable xs, e.code.length ≤ 63) :
    codegenStage (afterBuild xs s) = .ok (afterCodegen xs s) := by
  have htab := codeTable_afterBuild (s := s) hn hne
  refine codegenStage_eq_ok.mpr ⟨by rw [htab]; exact maxLength_le.mpr hcodes, by rw [htab]; rfl⟩

end

theorem huffmanTable_length (xs : List Word) : (huffmanTable xs).length = (recordsOf xs).length := by
  rw [huffmanTable, codeTableOf, List.length_map, List.length_range, sortedRecords_length]

/-- The first four stages of COMPRESS on a readable input in range with codes of at most 63 bits (R235). -/
theorem tableStages_eq_ok {s : State} {xs : List Word} (hpos : 1 ≤ s.inLen.toNat) (hcap : s.inLen.toNat ≤ s.symCap)
    (hread : s.symbols s.inLen.toNat = some xs) (hle : ∀ x ∈ xs, x.toNat ≤ 0xFFFFFF) (hn : (recordsOf xs).length ≤ 255)
    (hcodes : ∀ e ∈ huffmanTable xs, e.code.length ≤ 63) : tableStages s = .ok (afterCodegen xs s) := by
  have hne : recordsOf xs ≠ [] := by
    have hx : xs[0]'(by rw [(State.symbols_eq_some.mp hread).1]; omega) ∈ xs := List.getElem_mem _
    obtain ⟨r, hr, -⟩ := exists_mem_recordsOf hle hx
    exact List.ne_nil_of_mem hr
  have hfreq : freqStage s = .ok (afterFreq xs (recordsOf xs) s) :=
    freqStage_eq_ok.mpr ⟨xs, hcap, by omega, hread, covered_eq_true_iff.mpr hle, hn, rfl⟩
  rw [tableStages, hfreq, Stage.andThen_ok, sortStage_afterFreq hn, Stage.andThen_ok, buildStage_afterSort hn hne,
    Stage.andThen_ok, codegenStage_afterBuild hn hne hcodes]

/-- CODE_TAB[0..NSYM) is then the whole table of the input (R56). -/
theorem codes_afterCodegen {s : State} {xs : List Word} (hn : (recordsOf xs).length ≤ 255) :
    (afterCodegen xs s).codes = huffmanTable xs :=
  List.take_of_length_le ((huffmanTable_length xs).trans (nsym_afterFreq (s := s) hn).symm).le

/-- Settles O37: the first four stages leave the input's table, and PACK's container of it fits. -/
theorem compressCompletes : Obligations.CompressCompletes := by
  intro s xs cs out hcaps hpos hcap hread hle hdistinct hcodes hpayload hout hfits
  have hrecs := recordsOf_length hle
  have hn : (recordsOf xs).length ≤ 255 := hrecs ▸ hdistinct
  have htab : (afterCodegen xs s).codes = huffmanTable xs := codes_afterCodegen hn
  have hcontainer : out = (afterCodegen xs s).container cs := by
    rw [hout, State.container, htab, huffmanTable_length]; rfl
  have hpack : packBytes (afterCodegen xs s) = .ok out :=
    packBytes_eq_ok.mpr ⟨cs, payloadCodes_of_mapM (xs := xs) hread (by rw [htab]; exact hpayload), hcontainer, hfits⟩
  have hstage : compressStage s = .ok (afterPack out (afterCodegen xs s)) := by
    rw [compressStage_eq, tableStages_eq_ok hpos hcap hread hle hn hcodes]
    exact packStage_eq_ok.mpr ⟨out, hpack, rfl⟩
  refine ⟨completeOk (afterPack out (afterCodegen xs s)), ?_, rfl, rfl, outLen_afterPack hcaps hfits, rfl, rfl, ?_, rfl,
    fun j hj => byteOut_afterPack hj, fun a ha => (afterPack_outside out (afterCodegen xs s)).2 a ha⟩
  · rw [exec_eq_complete, stageOf, hstage, complete_ok]
  · exact (nsym_afterFreq (s := s) hn).trans hrecs

end Sys2Proof.Machine
end

section
/-! The combined commands are their stages issued one after the other (R235, R267). -/

namespace Sys2Proof.Machine

/-! ### A stage after a completed command -/

/-- The stage f completes after a command that succeeded as it would have within the same command: of STATUS it reads nothing
and completion keeps only OVR (R62, R292). -/
def Resumes (f : State → Stage) : Prop := ∀ t, complete (f (completeOk t)) = complete (f t)

/-- An error completes the same whether or not an earlier command has completed (R292, R322). -/
theorem complete_raised_completeOk (e : Err) (t : State) : complete (.raised e (completeOk t)) = complete (.raised e t) := by
  rw [complete_raised, complete_raised]
  cases he : e.isProtocol
  · rw [raiseError_of_failure he, raiseError_of_failure he]; rfl
  · rw [raiseError_of_protocol he, raiseError_of_protocol he]; rfl

theorem sortStage_resumes : Resumes sortStage := fun _ => rfl

theorem buildStage_resumes : Resumes buildStage := by
  intro t
  unfold buildStage
  rw [completeOk_nsym]
  by_cases h : t.nsym = 0
  · rw [if_pos h, if_pos h]
    exact complete_raised_completeOk _ t
  · rw [if_neg h, if_neg h]; rfl

theorem codegenStage_resumes : Resumes codegenStage := by
  intro t
  have htab : (completeOk t).codeTable = t.codeTable := rfl
  unfold codegenStage
  rw [htab]
  by_cases h : maxLength t.codeTable > 63
  · rw [if_pos h, if_pos h]
    exact complete_raised_completeOk _ t
  · rw [if_neg h, if_neg h]; rfl

theorem packStage_resumes : Resumes packStage := by
  intro t
  have hbytes : packBytes (completeOk t) = packBytes t := rfl
  unfold packStage
  rw [hbytes]
  cases packBytes t with
  | ok out => rfl
  | raised e => exact complete_raised_completeOk e (discardByteOut t)
  | fault f => rfl

theorem matchStage_resumes : Resumes matchStage := by
  intro t
  have hsymbols : matchSymbols (completeOk t) = matchSymbols t := rfl
  unfold matchStage
  rw [hsymbols]
  cases matchSymbols t with
  | ok out => rfl
  | raised e => exact complete_raised_completeOk e (discardSymOut t)
  | fault f => rfl

/-! ### Commands in turn -/

section
variable {i : Instr} {is : List Instr} {s : State}

/-- A command in phase after one that succeeded completes as its stage would have (R292, R294). -/
theorem exec_after_completeOk {allowed : List Phase} {f : State → Stage} {t : State} (hi : stageOf i = requirePhase allowed f)
    (hp : t.phase ∈ allowed) (hf : Resumes f) : exec i (completeOk t) = complete (f t) := by
  rw [exec_eq_complete, hi, requirePhase_of_mem (s := completeOk t) hp, hf t]

theorem runInTurn_singleton (i : Instr) (s : State) : runInTurn [i] s = exec i s := by
  unfold runInTurn
  cases exec i s with
  | next t => exact ite_self _
  | fault f => rfl
  | refused r => rfl

/-- When the first command completes as the stage r and the others after it as the stage `next`, all complete as r and then
`next`: an error ends both (R235, R267). -/
theorem runInTurn_cons {r : Stage} {next : State → Stage} (hr : exec i s = complete r)
    (hnext : ∀ t, r = .ok t → runInTurn is (completeOk t) = complete (next t)) :
    runInTurn (i :: is) s = complete (r.andThen next) := by
  unfold runInTurn
  rw [hr]
  cases r with
  | ok t => exact (if_neg Bool.false_ne_true).trans (hnext t rfl)
  | raised e t => exact if_pos (by rw [raiseError_status]; rfl)
  | fault f => rfl

end

theorem Stage.andThen_assoc (r : Stage) (f g : State → Stage) :
    (r.andThen f).andThen g = r.andThen fun t => (f t).andThen g := by cases r <;> rfl

/-- COMPRESS is its stages in turn: each leaves the phase the next one asks for (R235, R294). -/
theorem exec_compress_eq_runInTurn (s : State) :
    exec .compress s = runInTurn [.freq, .sort, .build, .codegen, .pack] s := by
  rw [exec_eq_complete, stageOf, compressStage]
  simp only [Stage.andThen_assoc]
  refine (runInTurn_cons (exec_eq_complete .freq s) fun t1 h1 => ?_).symm
  have hp1 : t1.phase = .counted := by obtain ⟨xs, -, -, -, -, -, rfl⟩ := freqStage_eq_ok.mp h1; rfl
  refine runInTurn_cons (exec_after_completeOk rfl (by simp [hp1]) sortStage_resumes) fun t2 h2 => ?_
  have hp2 : t2.phase = .sorted := by cases h2; rfl
  refine runInTurn_cons (exec_after_completeOk rfl (by simp [hp2]) buildStage_resumes) fun t3 h3 => ?_
  have hp3 : t3.phase = .tree := by obtain ⟨-, rfl⟩ := buildStage_eq_ok.mp h3; rfl
  refine runInTurn_cons (exec_after_completeOk rfl (by simp [hp3]) codegenStage_resumes) fun t4 h4 => ?_
  have hp4 : t4.phase = .coded := by obtain ⟨-, rfl⟩ := codegenStage_eq_ok.mp h4; rfl
  rw [runInTurn_singleton]
  exact exec_after_completeOk rfl (by simp [hp4]) packStage_resumes

/-- DECOMPRESS is PARSE, which leaves PHASE 8, and then MATCH (R267). -/
theorem exec_decompress_eq_runInTurn (s : State) : exec .decompress s = runInTurn [.parse, .matchCodes] s := by
  rw [exec_eq_complete, stageOf, decompressStage]
  refine (runInTurn_cons (exec_eq_complete .parse s) fun t h => ?_).symm
  have hp : t.phase = .parsed := by obtain ⟨c, es, -, -, -, -, rfl⟩ := parseStage_eq_ok.mp h; rfl
  rw [runInTurn_singleton]
  exact exec_after_completeOk rfl (by simp [hp]) matchStage_resumes

/-- Settles O42: the first error ends both, and a stage never sees that the one before it has completed. -/
theorem combinedCommandsAreTheirStages : Obligations.CombinedCommandsAreTheirStages := fun s =>
  ⟨exec_compress_eq_runInTurn s, exec_decompress_eq_runInTurn s⟩

end Sys2Proof.Machine
end

section
/-! PARSE: the entries of a tree region one by one, the trailer's two bytes, and the command's success and errors (R260-R263, R270,
R322, R324). -/

namespace Sys2Proof.Machine

/-! ### Results -/

/-- A result with its value changed; what was raised stays raised. -/
def Result.map {α β : Type} (f : α → β) : Result α → Result β
  | .ok a => .ok (f a)
  | .raised e => .raised e
  | .fault g => .fault g

theorem Result.map_map {α β γ : Type} (f : α → β) (g : β → γ) (r : Result α) : (r.map f).map g = r.map (g ∘ f) := by
  cases r <;> rfl

theorem Result.map_id {α : Type} (r : Result α) : r.map (fun a => a) = r := by cases r <;> rfl

/-! ### The tree region -/

section
variable {symBits slot : Nat} {b : BitStr}

/-- The entries after the first are those of the bits after the first. -/
theorem entryBitsAt_succ (b : BitStr) (symBits slot k : Nat) :
    entryBitsAt b symBits slot (k + 1) = entryBitsAt (b.drop (symBits + 8 + slot)) symBits slot k := by
  rw [entryBitsAt, entryBitsAt, List.drop_drop, Nat.succ_mul, Nat.add_comm (k * _)]

theorem skipAt_succ (b : BitStr) (symBits slot k : Nat) :
    skipAt b symBits slot (k + 1) = skipAt (b.drop (symBits + 8 + slot)) symBits slot k := by
  rw [skipAt, skipAt, entryBitsAt_succ]

theorem entryAt_succ (b : BitStr) (symBits slot k : Nat) :
    entryAt b symBits slot (k + 1) = entryAt (b.drop (symBits + 8 + slot)) symBits slot k := by
  rw [entryAt, entryAt, entryBitsAt_succ, skipAt_succ]

/-- The entries of a region are read in order, each as the reference reads it (R131). -/
theorem map_entryAt_succ (b : BitStr) (symBits slot n : Nat) : (List.range (n + 1)).map (entryAt b symBits slot) =
    entryAt b symBits slot 0 :: (List.range n).map (entryAt (b.drop (symBits + 8 + slot)) symBits slot) := by
  rw [List.range_succ_eq_map, List.map_cons, List.map_map]
  exact congrArg _ (List.map_congr_left fun k _ => entryAt_succ b symBits slot k)

theorem entryGood_succ {k : Nat} (h : entryGood b symBits slot (k + 1)) :
    entryGood (b.drop (symBits + 8 + slot)) symBits slot k := by
  obtain ⟨hfit, hskip⟩ := h
  rw [Nat.succ_mul] at hfit
  exact ⟨by rw [List.length_drop]; omega, skipAt_succ b symBits slot k ▸ hskip⟩

/-- A good entry is read, and the rest of the region decides the rest (R260). -/
theorem parseEntries_good (n : Nat) (h : entryGood b symBits slot 0) : parseEntries symBits slot (n + 1) b =
    (parseEntries symBits slot n (b.drop (symBits + 8 + slot))).map (entryAt b symBits slot 0 :: ·) := by
  obtain ⟨hfit, hskip⟩ := h
  unfold entryAt
  unfold skipAt at hskip ⊢
  unfold entryBitsAt at hskip ⊢
  simp only [Nat.zero_mul, List.drop_zero] at hskip ⊢
  rw [parseEntries, if_neg (by rw [List.length_take]; omega), if_neg (by omega)]
  cases parseEntries symBits slot n (b.drop (symBits + 8 + slot)) <;> rfl

/-- An entry that does not fit in the bits left ends the reading (R262). -/
theorem parseEntries_short (n : Nat) (h : b.length < symBits + 8 + slot) :
    parseEntries symBits slot (n + 1) b = .raised .truncatedHeader := by
  rw [parseEntries, if_pos (by rw [List.length_take]; omega)]

/-- A skip count of the slot width or more ends the reading (R262). -/
theorem parseEntries_badSkip (n : Nat) (h : symBits + 8 + slot ≤ b.length) (hskip : slot ≤ skipAt b symBits slot 0) :
    parseEntries symBits slot (n + 1) b = .raised .headerFormat := by
  unfold skipAt entryBitsAt at hskip
  simp only [Nat.zero_mul, List.drop_zero] at hskip
  rw [parseEntries, if_neg (by rw [List.length_take]; omega), if_pos hskip]

/-- Good entries are read one after the other up to the first that is not (R260). -/
theorem parseEntries_goods {k : Nat} (n : Nat) (h : ∀ j < k, entryGood b symBits slot j) :
    parseEntries symBits slot (k + n) b =
      (parseEntries symBits slot n (b.drop (k * (symBits + 8 + slot)))).map
        ((List.range k).map (entryAt b symBits slot) ++ ·) := by
  induction k generalizing b with
  | zero => simp [Result.map_id]
  | succ k ih =>
    rw [Nat.succ_add, parseEntries_good _ (h 0 (Nat.succ_pos k)), ih fun j hj => entryGood_succ (h (j + 1) (by omega)),
      Result.map_map, List.drop_drop, Nat.add_comm (symBits + 8 + slot), ← Nat.succ_mul, map_entryAt_succ]
    rfl

/-- A region of good entries gives its entries (R260, R270). -/
theorem parseEntries_eq_ok {n : Nat} (h : ∀ k < n, entryGood b symBits slot k) :
    parseEntries symBits slot n b = .ok ((List.range n).map (entryAt b symBits slot)) := by
  rw [← Nat.add_zero n, parseEntries_goods 0 h]
  simp [parseEntries, Result.map]

/-- The first bad entry decides: it does not fit (R324). -/
theorem parseEntries_eq_truncated {k n : Nat} (hk : k < n) (hgood : ∀ j < k, entryGood b symBits slot j)
    (h : b.length < (k + 1) * (symBits + 8 + slot)) : parseEntries symBits slot n b = .raised .truncatedHeader := by
  obtain ⟨m, rfl⟩ : ∃ m, n = k + (m + 1) := ⟨n - k - 1, by omega⟩
  rw [Nat.succ_mul] at h
  rw [parseEntries_goods _ hgood, parseEntries_short _ (by rw [List.length_drop]; omega)]
  rfl

/-- The first bad entry decides: its skip count is too large (R324). -/
theorem parseEntries_eq_headerFormat {k n : Nat} (hk : k < n) (hgood : ∀ j < k, entryGood b symBits slot j)
    (hfit : (k + 1) * (symBits + 8 + slot) ≤ b.length) (hskip : slot ≤ skipAt b symBits slot k) :
    parseEntries symBits slot n b = .raised .headerFormat := by
  obtain ⟨m, rfl⟩ : ∃ m, n = k + (m + 1) := ⟨n - k - 1, by omega⟩
  have hfirst : skipAt (b.drop (k * (symBits + 8 + slot))) symBits slot 0 = skipAt b symBits slot k := by
    simp [skipAt, entryBitsAt]
  rw [Nat.succ_mul] at hfit
  rw [parseEntries_goods _ hgood, parseEntries_badSkip _ (by rw [List.length_drop]; omega) (hfirst ▸ hskip)]
  rfl

end

/-! ### The trailer -/

/-- The symbol field's width, written out (R134). -/
theorem charBytes_eq (m : BitVec 2) : charBytes m = [1, 1, 2, 3].getD m.toNat 0 := by revert m; decide

theorem trailerOf_maxLen (b0 b1 : Byte) : (trailerOf b0 b1).maxLen.toNat = b1.toNat / 4 := by
  have := b1.isLt
  simp [trailerOf, Nat.shiftRight_eq_div_pow]
  omega

theorem trailerOf_mode (b0 b1 : Byte) : (trailerOf b0 b1).mode.toNat = b1.toNat % 4 := by simp [trailerOf]

theorem trailerIn_append (c : List Byte) (b0 b1 : Byte) : trailerIn (c ++ [b0, b1]) = trailerOf b0 b1 := by
  simp [trailerIn]

theorem bodyOf_append (c : List Byte) (b0 b1 : Byte) : bodyOf (c ++ [b0, b1]) = c := by simp [bodyOf]

/-! ### The stage -/

section
variable {s : State}

theorem parseStage_inputLength (h : s.byteCap < s.inLen.toNat) : parseStage s = .raised .inputLength s := by
  rw [parseStage, if_pos h]

theorem parseStage_noTrailer (hcap : s.inLen.toNat ≤ s.byteCap) (h : s.inLen.toNat < 2) :
    parseStage s = .raised .truncatedHeader s := by
  rw [parseStage, if_neg (by omega), if_pos h]

variable {c : List Byte} {b0 b1 : Byte} {symBits slot : Nat}

/-- A container that reads whole and has a trailer is as long as IN_LEN says. -/
theorem inLen_of_container (hread : s.inputBytes 0 s.inLen.toNat = some (c ++ [b0, b1])) : s.inLen.toNat = c.length + 2 := by
  simpa using (State.inputBytes_eq_some hread).1.symm

/-- The tree region as the reference reads it (R131, R132, R136). -/
theorem parseTree_eq_entries (c : List Byte) (hsym : symBits = 8 * [1, 1, 2, 3].getD (b1.toNat % 4) 0)
    (hslot : slot = 8 * (b1.toNat / 4 / 8 + 1)) :
    parseTree (trailerIn (c ++ [b0, b1])) (bodyOf (c ++ [b0, b1])) = parseEntries symBits slot b0.toNat (bits c) := by
  rw [trailerIn_append, bodyOf_append, parseTree, charBytes_eq, trailerOf_mode, trailerOf_maxLen, hsym, hslot]
  rfl

section
variable (hcap : s.inLen.toNat ≤ s.byteCap) (hread : s.inputBytes 0 s.inLen.toNat = some (c ++ [b0, b1]))
  (hsym : symBits = 8 * [1, 1, 2, 3].getD (b1.toNat % 4) 0) (hslot : slot = 8 * (b1.toNat / 4 / 8 + 1))
include hcap hread hsym hslot

/-- PARSE succeeds when every entry does (R260). -/
theorem parseStage_of_entries {es : List CodeEntry} (h : parseEntries symBits slot b0.toNat (bits c) = .ok es) :
    parseStage s = .ok (afterParse (trailerOf b0 b1) es s.inLen.toNat s) := by
  have hlen := inLen_of_container hread
  refine parseStage_eq_ok.mpr ⟨c ++ [b0, b1], es, hcap, by omega, hread, (parseTree_eq_entries c hsym hslot).trans h, ?_⟩
  rw [trailerIn_append, List.length_append, hlen]
  rfl

/-- Past the two length checks PARSE fails as the entries do (R260, R324). -/
theorem parseStage_of_badEntry {e : Err} (h : parseEntries symBits slot b0.toNat (bits c) = .raised e) :
    parseStage s = .raised e s := by
  have hlen := inLen_of_container hread
  rw [parseStage, if_neg (by omega), if_neg (by omega), hread]
  simp only [parseOf, (parseTree_eq_entries c hsym hslot).trans h]

end
end

/-! ### The command -/

/-- A failing PARSE clears the results (R322). -/
theorem exec_parse_fails {s : State} {e : Err} (h : parseStage s = .raised e s) :
    exec .parse s = .next (failedState e.code s) := by
  rw [exec_eq_complete, stageOf, h, complete_raised, raiseError_of_failure (parseStage_failures s e s h)]

/-- Where the tree region ends, in bits: it is whole bytes (R137). -/
theorem payStart_afterParse {b0 b1 : Byte} {symBits slot size : Nat} (es : List CodeEntry) (n : Nat) (s : State)
    (hsym : symBits = 8 * [1, 1, 2, 3].getD (b1.toNat % 4) 0) (hslot : slot = 8 * (b1.toNat / 4 / 8 + 1))
    (hle : b0.toNat * (symBits + 8 + slot) ≤ 8 * size) (hsize : size < 2 ^ 32) :
    8 * (afterParse (trailerOf b0 b1) es n s).payStart.toNat = b0.toNat * (symBits + 8 + slot) := by
  have hentry : entryBits (trailerOf b0 b1).mode (trailerOf b0 b1).maxLen.toNat = symBits + 8 + slot := by
    rw [entryBits, charBytes_eq, trailerOf_mode, trailerOf_maxLen, hsym, hslot]; rfl
  have hwhole : 8 ∣ b0.toNat * (symBits + 8 + slot) := Dvd.dvd.mul_left (by omega) _
  show 8 * (b0.toNat * entryBits (trailerOf b0 b1).mode (trailerOf b0 b1).maxLen.toNat / 8 % 2 ^ 32) = _
  rw [hentry]
  omega

/-- PAY_END is where the trailer begins (R260). -/
theorem payEnd_afterParse (t : Trailer) (es : List CodeEntry) (s : State) :
    (afterParse t es s.inLen.toNat s).payEnd.toNat = s.inLen.toNat - 2 := by
  have := s.inLen.isLt
  exact Nat.mod_eq_of_lt (by omega)

/-- Settles O38: every entry is good, so PARSE reads them all, and the table is their stable sort. -/
theorem parseReadsHeader : Obligations.ParseReadsHeader := by
  intro s c b0 b1 symBits slot _ _ hcap hread hsym hslot hgood
  have hlen := inLen_of_container hread
  have hword := s.inLen.isLt
  have hes := parseEntries_eq_ok hgood
  obtain ⟨-, hfit, -⟩ := parseEntries_ok hes
  rw [bits_length] at hfit
  have hexec := (exec_eq_complete .parse s).trans (congrArg complete (parseStage_of_entries hcap hread hsym hslot hes))
  exact ⟨_, _, _, _, _, hexec, trailerOf_maxLen b0 b1, trailerOf_mode b0 b1,
    payStart_afterParse _ _ s hsym hslot hfit (by omega), payEnd_afterParse _ _ s, sortDesc_stable CodeEntry.key _⟩

/-- Settles O39: the two length checks come first, and past them the first bad entry decides. -/
theorem parseErrorsInOrder : Obligations.ParseErrorsInOrder := by
  intro s
  refine ⟨fun h => exec_parse_fails (parseStage_inputLength h), fun hcap h => exec_parse_fails (parseStage_noTrailer hcap h),
    fun c b0 b1 symBits slot k _ hcap hread hsym hslot hk hgood => ⟨fun h => ?_, fun hfit hskip => ?_⟩⟩
  · exact exec_parse_fails (parseStage_of_badEntry hcap hread hsym hslot (parseEntries_eq_truncated hk hgood h))
  · exact exec_parse_fails (parseStage_of_badEntry hcap hread hsym hslot (parseEntries_eq_headerFormat hk hgood hfit hskip))

end Sys2Proof.Machine
end

section
/-! MATCH: the sentinel, the loop against the reference matching, and the command's success and errors (R264-R266, R322, R324). -/

namespace Sys2Proof.Machine

/-! ### The sentinel -/

/-- What stands after zeros and the sentinel (R265). -/
theorem afterSentinel_zeros (z : Nat) (rest : BitStr) : afterSentinel (zeros z ++ [true] ++ rest) = some rest := by
  induction z with
  | zero => rfl
  | succ z ih => exact ih

/-- Without a 1 there is no sentinel (R265). -/
theorem afterSentinel_eq_none {b : BitStr} (h : true ∉ b) : afterSentinel b = none := by
  induction b with
  | nil => rfl
  | cons x b ih =>
    obtain ⟨hx, hb⟩ := not_or.mp (mt List.mem_cons.mpr h)
    obtain rfl : x = false := Bool.eq_false_iff.mpr (Ne.symm hx)
    exact ih hb

/-! ### The loop -/

section
variable {tab : List CodeEntry} {b q : BitStr} {out : List Sym}

/-- The match is the first entry whose code begins the bits (R266). -/
theorem firstMatch_eq_some {e : CodeEntry} : firstMatch tab b = some e ↔
    e.code <+: b ∧ ∃ before after, tab = before ++ e :: after ∧ ∀ p ∈ before, ¬ p.code <+: b := by
  simp [firstMatch, List.find?_eq_some_iff_append, ← List.isPrefixOf_iff_prefix]

theorem firstMatch_eq_none : firstMatch tab b = none ↔ ∀ e ∈ tab, ¬ e.code <+: b := by simp [firstMatch]

/-- One turn of the loop: the match's symbol goes out and its bits are consumed (R266). -/
theorem matchLoop_turn {e : CodeEntry} (room : Nat) (hb : b ≠ []) (h : firstMatch tab b = some e) :
    matchLoop tab (room + 1) b = (matchLoop tab room (b.drop e.code.length)).map (e.sym :: ·) := by
  obtain ⟨x, b, rfl⟩ := List.exists_cons_of_ne_nil hb
  simp only [matchLoop, h]
  cases matchLoop tab room ((x :: b).drop e.code.length) <;> rfl

/-- Without bits the loop ends (R264). -/
theorem matchLoop_nil (tab : List CodeEntry) (room : Nat) : matchLoop tab room [] = .ok [] := by cases room <;> rfl

/-- Where no code begins the bits the loop ends with UNMATCHED_CODE, room or not (R266, R324). -/
theorem matchLoop_unmatched (room : Nat) (hb : b ≠ []) (h : ∀ e ∈ tab, ¬ e.code <+: b) :
    matchLoop tab room b = .raised .unmatchedCode := by
  obtain ⟨x, b, rfl⟩ := List.exists_cons_of_ne_nil hb
  cases room <;> rw [matchLoop, firstMatch_eq_none.mpr h]

/-- A match without room for its symbol is OUTPUT_OVERFLOW (R264, R324). -/
theorem matchLoop_overflow (hb : b ≠ []) (h : ∃ e ∈ tab, e.code <+: b) : matchLoop tab 0 b = .raised .outputOverflow := by
  obtain ⟨x, b, rfl⟩ := List.exists_cons_of_ne_nil hb
  obtain ⟨e, he⟩ : ∃ e, firstMatch tab (x :: b) = some e := by
    rw [← Option.ne_none_iff_exists']
    exact fun hn => h.elim fun e he => firstMatch_eq_none.mp hn e he.1 he.2
  rw [matchLoop, he]

/-- With room for them the loop puts out the symbols of the reference matching, and the bits left decide the rest (R266). -/
theorem matchLoop_part (room : Nat) (h : GreedyPart tab b out q) :
    matchLoop tab (out.length + room) b = (matchLoop tab room q).map (out ++ ·) := by
  induction h with
  | start p => simp [Result.map_id]
  | step before after e rest q out table some_bits first _ ih =>
    have hmatch := firstMatch_eq_some.mpr ⟨List.prefix_append e.code rest, before, after, table, first⟩
    rw [List.length_cons, Nat.succ_add, matchLoop_turn _ some_bits hmatch, List.drop_left, ih, Result.map_map]
    rfl

/-- A matching of all the bits is one that leaves none. -/
theorem Greedy.part (h : Greedy tab b out) : GreedyPart tab b out [] := by
  induction h with
  | done => exact .start []
  | step before after e rest out table some_bits first _ ih => exact .step before after e rest [] out table some_bits first ih

/-- With room for all the symbols of the bits the loop puts them out (R264). -/
theorem matchLoop_eq_ok {room : Nat} (h : Greedy tab b out) (hroom : out.length ≤ room) :
    matchLoop tab room b = .ok out := by
  rw [← Nat.add_sub_cancel' hroom, matchLoop_part _ h.part, matchLoop_nil]
  simp [Result.map]

/-- The first position without a match decides (R324). -/
theorem matchLoop_eq_unmatched {room : Nat} (h : GreedyPart tab b out q) (hroom : out.length ≤ room) (hq : q ≠ [])
    (hnone : ∀ e ∈ tab, ¬ e.code <+: q) : matchLoop tab room b = .raised .unmatchedCode := by
  rw [← Nat.add_sub_cancel' hroom, matchLoop_part _ h, matchLoop_unmatched _ hq hnone]
  rfl

/-- The first symbol without room decides (R324). -/
theorem matchLoop_eq_overflow (h : GreedyPart tab b out q) (hq : q ≠ []) (hsome : ∃ e ∈ tab, e.code <+: q) :
    matchLoop tab out.length b = .raised .outputOverflow := by
  rw [← Nat.add_zero out.length, matchLoop_part _ h, matchLoop_overflow hq hsome]
  rfl

end

/-! ### The stage -/

section
variable {s : State} {p : List Byte} (hread : s.inputBytes s.payStart.toNat s.payEnd.toNat = some p)
include hread

theorem matchSymbols_truncated (h : true ∉ bits p) : matchSymbols s = .raised .truncatedPayload := by
  simp only [matchSymbols, hread, afterSentinel_eq_none h]

/-- After the sentinel the loop decides (R264, R265). -/
theorem matchSymbols_eq_loop {z : Nat} {rest : BitStr} (h : bits p = zeros z ++ [true] ++ rest) :
    matchSymbols s = matchLoop s.codes s.symCap rest := by
  simp only [matchSymbols, hread, h, afterSentinel_zeros]

/-- MATCH succeeds on a payload that decodes to symbols for which there is room (R264). -/
theorem matchStage_of_greedy {z : Nat} {rest : BitStr} {out : List Sym} (h : bits p = zeros z ++ [true] ++ rest)
    (hout : Greedy s.codes rest out) (hcap : out.length ≤ s.symCap) : matchStage s = .ok (afterMatch out s) :=
  matchStage_eq_ok.mpr ⟨out, (matchSymbols_eq_loop hread h).trans (matchLoop_eq_ok hout hcap), rfl⟩

end

/-! ### The command -/

/-- The symbols in SYM_OUT after MATCH, zero-extended (R51, R264). -/
theorem symOut_afterMatch_eq {s : State} {out : List Sym} {i : Nat} {x : Sym} (h : out[i]? = some x) :
    (afterMatch out s).symOut i = some (x.setWidth 32) := by
  obtain ⟨hi, -⟩ := List.getElem?_eq_some_iff.mp h
  rw [symOut_afterMatch hi, List.getElem?_map, h]
  rfl

/-- `zext_32` keeps the value (R51). -/
theorem symWord_toNat (x : Sym) : (symWord x).toNat = x.toNat := by
  have := x.isLt
  rw [symWord, BitVec.toNat_setWidth, Nat.mod_eq_of_lt (by omega)]

/-- MATCH in phase with nothing decoded: the failure of R322 with SYM_OUT discarded. -/
theorem exec_match_fails {s : State} {e : Err} (hp : s.phase ∈ [Phase.parsed, .decoded]) (h : matchSymbols s = .raised e) :
    FailsDiscarding (exec .matchCodes s) e.code s 0x200000 (0x200000 + 4 * s.symCap) := by
  have hstage : matchStage s = .raised e (discardSymOut s) := matchStage_eq_raised.mpr ⟨h, rfl⟩
  refine ⟨Memory.forget s.mem symOutBase (symOutBase + 4 * s.symCap), ?_, Memory.read_forget _ _ _⟩
  rw [exec_eq_complete, stageOf, requirePhase_of_mem hp, hstage, complete_raised,
    raiseError_of_failure (matchStage_failures s e _ hstage)]
  rfl

/-- Settles O40: past the sentinel the loop does what the reference matching does, and its symbols are stored. -/
theorem matchDecodesGreedily : Obligations.MatchDecodesGreedily := by
  intro s p z rest out _ hp hread hbits hout hcap
  refine ⟨(afterMatch out s).mem, ?_, fun i x hx => symOut_afterMatch_eq (s := s) hx, (afterMatch_outside out s).2⟩
  rw [exec_eq_complete, stageOf, requirePhase_of_mem (by simpa using hp), matchStage_of_greedy hread hbits hout hcap, complete_ok]
  rfl

/-- Settles O41: no sentinel, or where the reference matching stops: no code matches, or there is no room for the symbol. -/
theorem matchErrorsInOrder : Obligations.MatchErrorsInOrder := by
  intro s p hp hread
  have hp : s.phase ∈ [Phase.parsed, .decoded] := by simpa using hp
  refine ⟨fun h => exec_match_fails hp (matchSymbols_truncated hread h), fun z rest out q hbits hpart hq => ?_⟩
  have hloop := matchSymbols_eq_loop hread hbits
  refine ⟨fun hcap hnone => exec_match_fails (e := .unmatchedCode) hp ?_, fun hcap hsome =>
    exec_match_fails (e := .outputOverflow) hp ?_⟩
  · exact hloop.trans (matchLoop_eq_unmatched hpart hcap hq hnone)
  · exact hloop.trans (hcap ▸ matchLoop_eq_overflow hpart hq hsome)

end Sys2Proof.Machine
end

section
/-! DECOMPRESS on a well-formed container: PARSE reads the tree region, MATCH the payload region after it (R267). -/

namespace Sys2Proof.Machine

/-! ### One stable order -/

/-- Lists with the same elements of each key have the same elements. -/
theorem mem_iff_of_filter_eq {α : Type} {key : α → Nat} {ys zs : List α}
    (h : ∀ c, ys.filter (fun a => key a == c) = zs.filter fun a => key a == c) (a : α) : a ∈ ys ↔ a ∈ zs := by
  simpa using congrArg (a ∈ ·) (h (key a))

/-- Lists in descending order with the same elements of each key in the same order are equal (R12). -/
theorem eq_of_descending {α : Type} {key : α → Nat} {ys zs : List α} (hys : ys.Pairwise fun a b => key b ≤ key a)
    (hzs : zs.Pairwise fun a b => key b ≤ key a)
    (h : ∀ c, ys.filter (fun a => key a == c) = zs.filter fun a => key a == c) : ys = zs := by
  have hmem := mem_iff_of_filter_eq h
  induction ys generalizing zs with
  | nil => exact (List.eq_nil_iff_forall_not_mem.mpr fun a ha => by simpa using (hmem a).mpr ha).symm
  | cons y ys ih =>
    cases zs with
    | nil => simpa using (hmem y).mp List.mem_cons_self
    | cons z zs =>
      obtain ⟨hy, hys'⟩ := List.pairwise_cons.mp hys
      obtain ⟨hz, hzs'⟩ := List.pairwise_cons.mp hzs
      have hyz : key y ≤ key z := (List.mem_cons.mp ((hmem y).mp List.mem_cons_self)).elim (fun e => e ▸ le_rfl) (hz y)
      have hzy : key z ≤ key y := (List.mem_cons.mp ((hmem z).mpr List.mem_cons_self)).elim (fun e => e ▸ le_rfl) (hy z)
      have hkey : key z = key y := le_antisymm hzy hyz
      obtain ⟨rfl, -⟩ : y = z ∧ _ := by simpa [List.filter_cons, hkey] using h (key y)
      have htail (c : Nat) : ys.filter (fun a => key a == c) = zs.filter fun a => key a == c := by
        have hc := h c
        rw [List.filter_cons, List.filter_cons] at hc
        split at hc
        · exact (List.cons.inj hc).2
        · exact hc
      rw [ih hys' hzs' htail (mem_iff_of_filter_eq htail)]

/-- A list has one stable descending order (R12). -/
theorem StableDesc.eq_sortDesc {α : Type} {key : α → Nat} {xs ys : List α} (h : StableDesc key xs ys) : ys = sortDesc key xs :=
  have ⟨_, hdesc, hfilter⟩ := h
  eq_of_descending hdesc (sortDesc_pairwise key xs) fun c => (hfilter c).trans (sortDesc_filter key xs c).symm

/-! ### The regions of a container -/

/-- What follows the entries does not change them (R130). -/
theorem entryBitsAt_append {b : BitStr} {symBits slot k : Nat} (h : (k + 1) * (symBits + 8 + slot) ≤ b.length) (rest : BitStr) :
    entryBitsAt (b ++ rest) symBits slot k = entryBitsAt b symBits slot k := by
  rw [Nat.succ_mul] at h
  rw [entryBitsAt, entryBitsAt, List.drop_append_of_le_length (by omega),
    List.take_append_of_le_length (by rw [List.length_drop]; omega)]

/-- A tree region that its entries fill, all of whose skip counts are below the slot width, is read whatever follows it (R262). -/
theorem parseEntries_tree {b rest : BitStr} {symBits slot n : Nat} (hlen : b.length = n * (symBits + 8 + slot))
    (hskip : ∀ k < n, skipAt b symBits slot k < slot) :
    parseEntries symBits slot n (b ++ rest) = .ok ((List.range n).map (entryAt b symBits slot)) := by
  have hfit (k : Nat) (hk : k < n) : (k + 1) * (symBits + 8 + slot) ≤ b.length := hlen ▸ Nat.mul_le_mul_right _ hk
  have hbits (k : Nat) (hk : k < n) := entryBitsAt_append (hfit k hk) rest
  rw [parseEntries_eq_ok fun k hk => ⟨by rw [List.length_append]; exact Nat.le_add_right_of_le (hfit k hk), by
    rw [skipAt, hbits k hk]; exact hskip k hk⟩]
  refine congrArg _ (List.map_congr_left fun k hk => ?_)
  rw [entryAt, entryAt, skipAt, skipAt, hbits k (List.mem_range.mp hk)]

/-- A part of the bytes of BYTE_IN. -/
theorem State.inputBytes_part {s : State} {n : Nat} {xs ys zs : List Byte} (h : s.inputBytes 0 n = some (xs ++ ys ++ zs)) :
    s.inputBytes xs.length (xs.length + ys.length) = some ys := by
  obtain ⟨hlen, hget⟩ := State.inputBytes_eq_some h
  simp only [List.length_append] at hlen
  refine collect_eq_some.mpr ⟨by omega, fun k hk => ?_⟩
  rw [hget _ (by omega), List.getElem?_append_left (by simp; omega), List.getElem?_append_right (by omega),
    Nat.add_sub_cancel_left]

/-- CODE_TAB[0..NSYM) after PARSE is the whole sorted table (R263). -/
theorem codes_afterParse {t : Trailer} {es : List CodeEntry} (h : es.length = t.count.toNat) (n : Nat) (s : State) :
    (afterParse t es n s).codes = sortDesc CodeEntry.key es :=
  List.take_of_length_le ((sortDesc_length _ _).trans h).le

/-- Settles O43: PARSE reads the table of the tree region and latches the bounds of the payload region, which MATCH decodes. -/
theorem decompressCompletes : Obligations.DecompressCompletes := by
  intro s tree pay b0 b1 symBits slot z tab rest out hcaps hcap hread hsym hslot htree hskip hstable hpay hout hroom
  obtain rfl := hstable.eq_sortDesc
  have hlen := inLen_of_container hread
  have hword := s.inLen.isLt
  rw [List.length_append] at hlen
  have hes : parseEntries symBits slot b0.toNat (bits (tree ++ pay)) = _ :=
    bits_append tree pay ▸ parseEntries_tree ((bits_length tree).trans htree) hskip
  generalize hentries : (List.range b0.toNat).map (entryAt (bits tree) symBits slot) = es at hes hout
  have hparse := parseStage_of_entries hcap hread hsym hslot hes
  have hcodes : (afterParse (trailerOf b0 b1) es s.inLen.toNat s).codes = sortDesc CodeEntry.key es :=
    codes_afterParse (by simp [← hentries, trailerOf]) _ s
  have hstart : (afterParse (trailerOf b0 b1) es s.inLen.toNat s).payStart.toNat = tree.length := by
    have := payStart_afterParse (size := tree.length) es s.inLen.toNat s hsym hslot htree.ge (by omega)
    omega
  have hend := payEnd_afterParse (trailerOf b0 b1) es s
  have hmatch : matchStage (afterParse (trailerOf b0 b1) es s.inLen.toNat s) =
      .ok (afterMatch out (afterParse (trailerOf b0 b1) es s.inLen.toNat s)) := by
    refine matchStage_of_greedy ?_ hpay (hcodes ▸ hout) hroom
    rw [hstart, hend, show s.inLen.toNat - 2 = tree.length + pay.length by omega]
    exact State.inputBytes_part hread
  refine ⟨completeOk (afterMatch out (afterParse (trailerOf b0 b1) es s.inLen.toNat s)), ?_, rfl, rfl,
    outLen_afterMatch hcaps hroom, rfl, rfl, hstart, hend, fun i x hx => symOut_afterMatch_eq hx, ?_⟩
  · rw [exec_eq_complete, stageOf, decompressStage, hparse, Stage.andThen_ok, hmatch, complete_ok]
  · exact (afterMatch_outside out (afterParse (trailerOf b0 b1) es s.inLen.toNat s)).2

end Sys2Proof.Machine
end

section
/-! A container read back: its regions as bytes, its entries, and its codes taken apart by a table no code of which begins
another (R130-R136, R268). -/

namespace Sys2Proof.Machine

/-! ### The container as bytes -/

/-- The last byte of a container (R136). -/
def trailerByte (maxLen : BitVec 6) (mode : BitVec 2) : Byte := BitVec.ofNat 8 (maxLen.toNat * 4 + mode.toNat)

theorem trailerByte_toNat (maxLen : BitVec 6) (mode : BitVec 2) :
    (trailerByte maxLen mode).toNat = maxLen.toNat * 4 + mode.toNat := Nat.mod_eq_of_lt (by omega)

theorem bits_trailer (nsym : BitVec 8) (maxLen : BitVec 6) (mode : BitVec 2) :
    bits [nsym, trailerByte maxLen mode] = trailerBits nsym maxLen mode := by
  have hval : val (bin 6 maxLen.toNat ++ bin 2 mode.toNat) = (trailerByte maxLen mode).toNat := by
    rw [val_append, val_bin maxLen.isLt, val_bin mode.isLt, bin_length, trailerByte_toNat]
    rfl
  have hbin := bin_val (bin 6 maxLen.toNat ++ bin 2 mode.toNat)
  rw [hval, List.length_append, bin_length, bin_length] at hbin
  rw [bits_cons, bits_cons, bits_nil, List.append_nil, hbin, trailerBits, List.append_assoc]

/-- A table entry that the container holds exactly: its code is not empty and at most MAXLEN bits long, and its symbol fits the
mode's symbol field (R131, R134). -/
structure CodeEntry.Fits (mode : BitVec 2) (maxLen : Nat) (e : CodeEntry) : Prop where
  pos : 1 ≤ e.code.length
  le : e.code.length ≤ maxLen
  sym_lt : e.sym.toNat < 2 ^ (8 * charBytes mode)

section
variable {nsym : BitVec 8} {maxLen : BitVec 6} {mode : BitVec 2} {tab : List CodeEntry}

theorem treeRegion_mod_eight {maxLen : Nat} (h : ∀ e ∈ tab, e.Fits mode maxLen) :
    (treeRegion mode maxLen tab).length % 8 = 0 := by
  rw [treeRegion_length mode fun e he => (h e he).le, entryBits_eq, Nat.mul_left_comm, Nat.mul_mod_right]

theorem payloadRegion_mod_eight (cs : List BitStr) : (payloadRegion cs).length % 8 = 0 := by
  rw [payloadRegion_length, payloadBits_mod_eight]

/-- The container is the bytes of its regions (R130). -/
theorem containerOf_eq (h : ∀ e ∈ tab, e.Fits mode maxLen.toNat) (cs : List BitStr) : containerOf nsym maxLen mode tab cs =
    bytes (treeRegion mode maxLen.toNat tab) ++ bytes (payloadRegion cs) ++ [nsym, trailerByte maxLen mode] := by
  have htree := treeRegion_mod_eight h
  have hpayload := payloadRegion_mod_eight cs
  rw [containerOf, bytes_append _ _ (by rw [List.length_append]; omega), bytes_append _ _ htree, ← bits_trailer, bytes_bits]

end

/-! ### The entries of the tree region -/

section
variable {mode : BitVec 2} {maxLen : Nat} {tab : List CodeEntry} {b : BitStr} {k : Nat} {e : CodeEntry}

/-- Entry k of the tree region is that of table entry k (R231). -/
theorem entryBitsAt_treeRegion (h : ∀ e ∈ tab, e.Fits mode maxLen) (hk : tab[k]? = some e) :
    entryBitsAt (treeRegion mode maxLen tab) (8 * charBytes mode) (codeSlotBits maxLen) k = entryOf mode maxLen e := by
  induction tab generalizing k with
  | nil => cases hk
  | cons d tab ih =>
    obtain ⟨hd, htab⟩ := List.forall_mem_cons.mp h
    have hlen : (entryOf mode maxLen d).length = 8 * charBytes mode + 8 + codeSlotBits maxLen := entryOf_length mode hd.le
    rw [treeRegion, List.flatMap_cons, ← treeRegion]
    cases k with
    | zero =>
      cases hk
      rw [entryBitsAt, Nat.zero_mul, List.drop_zero, List.take_left' hlen]
    | succ k => rw [entryBitsAt_succ, List.drop_left' hlen, ih htab hk]

/-- The skip count is read back (R131). -/
theorem skipAt_of_entryOf (hmax : maxLen ≤ 63)
    (hbits : entryBitsAt b (8 * charBytes mode) (codeSlotBits maxLen) k = entryOf mode maxLen e) :
    skipAt b (8 * charBytes mode) (codeSlotBits maxLen) k = codeSlotBits maxLen - e.code.length := by
  have hslot : codeSlotBits maxLen - e.code.length < 2 ^ 8 := by unfold codeSlotBits; omega
  rw [skipAt, hbits, entryOf, List.append_assoc, List.append_assoc, List.drop_left' (bin_length _ _),
    List.take_left' (bin_length _ _), val_bin hslot]

/-- The symbol and the code are read back (R131, R268). -/
theorem entryAt_of_entryOf (h : e.Fits mode maxLen) (hmax : maxLen ≤ 63)
    (hbits : entryBitsAt b (8 * charBytes mode) (codeSlotBits maxLen) k = entryOf mode maxLen e) :
    entryAt b (8 * charBytes mode) (codeSlotBits maxLen) k = e := by
  have hcode : (bin (8 * charBytes mode) e.sym.toNat ++ bin 8 (codeSlotBits maxLen - e.code.length) ++
      zeros (codeSlotBits maxLen - e.code.length)).length =
        8 * charBytes mode + 8 + (codeSlotBits maxLen - e.code.length) := by simp [Nat.add_assoc]
  rw [entryAt, skipAt_of_entryOf hmax hbits, hbits, entryOf, List.drop_left' hcode, List.append_assoc, List.append_assoc,
    List.take_left' (bin_length _ _), val_bin h.sym_lt, BitVec.ofNat_toNat, BitVec.setWidth_eq]

/-- Every skip count of the tree region is below the slot width (R268). -/
theorem skipAt_treeRegion_lt (h : ∀ e ∈ tab, e.Fits mode maxLen) (hmax : maxLen ≤ 63) (hk : k < tab.length) :
    skipAt (treeRegion mode maxLen tab) (8 * charBytes mode) (codeSlotBits maxLen) k < codeSlotBits maxLen := by
  have hpos := (h _ (List.getElem_mem hk)).pos
  rw [skipAt_of_entryOf hmax (entryBitsAt_treeRegion h (List.getElem?_eq_getElem hk))]
  unfold codeSlotBits
  omega

/-- The reference reading of the tree region is the table (R268). -/
theorem map_entryAt_treeRegion (h : ∀ e ∈ tab, e.Fits mode maxLen) (hmax : maxLen ≤ 63) :
    (List.range tab.length).map (entryAt (treeRegion mode maxLen tab) (8 * charBytes mode) (codeSlotBits maxLen)) = tab := by
  refine List.ext_getElem (by simp) fun k _ hk => ?_
  rw [List.getElem_map, List.getElem_range]
  exact entryAt_of_entryOf (h _ (List.getElem_mem hk)) hmax (entryBitsAt_treeRegion h (List.getElem?_eq_getElem hk))

end

/-! ### Codes one after the other -/

/-- Neither code begins the other (R209). -/
def CodeEntry.Apart (a b : CodeEntry) : Prop := ¬ a.code <+: b.code ∧ ¬ b.code <+: a.code

/-- Greedy matching takes a string of codes apart when no code of the table begins another, whatever the table's order (R263,
R268). -/
theorem greedy_codes {tab tab' : List CodeEntry} {xs : List Word} {cs : List BitStr} (hperm : tab'.Perm tab)
    (hapart : tab.Pairwise CodeEntry.Apart) (hpos : ∀ e ∈ tab, 1 ≤ e.code.length)
    (hcodes : List.Forall₂ (fun x c => codeFor tab x = some c) xs cs) : Greedy tab' cs.flatten (xs.map toSym) := by
  induction hcodes with
  | nil => exact .done
  | @cons x c xs cs hx _ ih =>
    obtain ⟨before, e, after, htab, hsym, rfl, -⟩ := codeFor_eq_some.mp hx
    have he : e ∈ tab := by simp [htab]
    have hxe : toSym x = e.sym := BitVec.eq_of_toNat_eq (by
      rw [toSym, BitVec.toNat_setWidth, ← hsym, Nat.mod_eq_of_lt e.sym.isLt])
    obtain ⟨pre, post, hsplit⟩ := List.append_of_mem (hperm.mem_iff.mpr he)
    have hapart' := hapart.perm hperm.symm fun h => And.symm h
    rw [hsplit] at hapart'
    obtain ⟨-, -, hpre⟩ := List.pairwise_append.mp hapart'
    rw [List.map_cons, hxe, List.flatten_cons]
    refine .step pre post e cs.flatten _ hsplit (fun hnil => ?_) (fun p hp hpc => ?_) ih
    · have := hpos e he
      rw [(List.append_eq_nil_iff.mp hnil).1] at this
      simp at this
    · obtain ⟨hpe, hep⟩ := hpre p hp e List.mem_cons_self
      rcases List.prefix_or_prefix_of_prefix hpc (List.prefix_append e.code cs.flatten) with h | h
      · exact hpe h
      · exact hep h

/-! ### DECOMPRESS of a container -/

/-- DECOMPRESS of the container of a table no code of which begins another, with codes of it, gives the codes' symbols (R268). -/
theorem exec_decompress_container {u : State} {nsym : BitVec 8} {maxLen : BitVec 6} {mode : BitVec 2} {tab : List CodeEntry}
    {xs : List Word} {cs : List BitStr} (hcaps : capsOk u.symCap u.byteCap = true) (hcap : u.inLen.toNat ≤ u.byteCap)
    (hread : u.inputBytes 0 u.inLen.toNat = some (containerOf nsym maxLen mode tab cs)) (hn : nsym.toNat = tab.length)
    (hfits : ∀ e ∈ tab, e.Fits mode maxLen.toNat) (hapart : tab.Pairwise CodeEntry.Apart)
    (hcodes : List.Forall₂ (fun x c => codeFor tab x = some c) xs cs) (hroom : xs.length ≤ u.symCap) :
    ∃ v, exec .decompress u = .next v ∧ v.status = okStatus u ∧ v.outLen.toNat = xs.length ∧
      ∀ i x, (xs.map toSym)[i]? = some x → v.symOut i = some (symWord x) := by
  have hmax : maxLen.toNat ≤ 63 := by omega
  have hbyte := trailerByte_toNat maxLen mode
  have hmode : (trailerByte maxLen mode).toNat % 4 = mode.toNat := by omega
  have hlen : (trailerByte maxLen mode).toNat / 4 = maxLen.toNat := by omega
  have htree := bits_bytes _ (treeRegion_mod_eight hfits)
  have hsize : 8 * (bytes (treeRegion mode maxLen.toNat tab)).length =
      nsym.toNat * (8 * charBytes mode + 8 + codeSlotBits maxLen.toNat) := by
    rw [← bits_length, htree, treeRegion_length mode fun e he => (hfits e he).le, hn]; rfl
  have htable := map_entryAt_treeRegion hfits hmax
  rw [← htree, ← hn] at htable
  have hgreedy := greedy_codes (sortDesc_perm CodeEntry.key tab) hapart (fun e he => (hfits e he).pos) hcodes
  rw [containerOf_eq hfits] at hread
  obtain ⟨v, hv, hstatus, -, hout, -, -, -, -, hsyms, -⟩ := decompressCompletes u _ _ nsym (trailerByte maxLen mode)
    (8 * charBytes mode) (codeSlotBits maxLen.toNat) _ (sortDesc CodeEntry.key tab) _ _ hcaps hcap hread
    (by rw [hmode, charBytes_eq]) (by rw [hlen]; rfl) hsize
    (fun k hk => by rw [htree]; exact skipAt_treeRegion_lt hfits hmax (hn ▸ hk))
    (htable.symm ▸ sortDesc_stable CodeEntry.key tab) (bits_bytes _ (payloadRegion_mod_eight cs)) hgreedy (by simpa using hroom)
  exact ⟨v, hv, hstatus, by simpa using hout, hsyms⟩

end Sys2Proof.Machine
end

section
/-! The round trip: the input's own Huffman table fits its container and no code of it begins another, so DECOMPRESS undoes
COMPRESS (R209, R211, R235, R268). -/

namespace Sys2Proof.Machine

/-! ### The Huffman table of an input -/

/-- A mode's limit is the largest value of its symbol field (R134, R171). -/
theorem modeLimit_lt (m : BitVec 2) : modeLimit m < 2 ^ (8 * charBytes m) := by revert m; decide

section
variable {xs : List Word}

theorem mem_huffmanTable {e : CodeEntry} : e ∈ huffmanTable xs ↔ ∃ k < (sortedRecords xs).length,
    e = ⟨(slotOf (buildNodes (sortedRecords xs)) k).sym, codeFrom (buildNodes (sortedRecords xs)) (sortedRecords xs).length k⟩ :=
  mem_codeTableOf

theorem sortedRecords_descending (xs : List Word) : (sortedRecords xs).Pairwise fun a b => b.key ≤ a.key :=
  sortDesc_pairwise FreqRecord.key _

/-- A leaf of the tree holds its record's symbol (R204). -/
theorem slotOf_buildNodes_leaf {rs : List FreqRecord} {k : Nat} (hk : k < rs.length) :
    slotOf (buildNodes rs) k = leafOf rs[k] := by
  rw [slotOf, List.getD, buildNodes_leaf (List.getElem?_eq_getElem hk)]
  rfl

/-- The symbols of the table are symbols of the input (R207). -/
theorem huffmanTable_sym (hle : ∀ x ∈ xs, x.toNat ≤ 0xFFFFFF) (hlen : xs.length ≤ 2 ^ 18) {e : CodeEntry}
    (he : e ∈ huffmanTable xs) : symWord e.sym ∈ xs := by
  obtain ⟨k, hk, rfl⟩ := mem_huffmanTable.mp he
  rw [slotOf_buildNodes_leaf hk]
  exact (mem_recordsOf hle hlen ((sortDesc_perm FreqRecord.key _).mem_iff.mp (List.getElem_mem hk))).1

section
variable (hn : (recordsOf xs).length ≤ 255)
include hn

theorem sortedRecords_length_le : (sortedRecords xs).length ≤ 256 := by
  rw [sortedRecords_length]
  omega

/-- No code of the table is empty: the path to a leaf leaves the root (R206). -/
theorem huffmanTable_code_pos {e : CodeEntry} (he : e ∈ huffmanTable xs) : 1 ≤ e.code.length := by
  obtain ⟨k, hk, rfl⟩ := mem_huffmanTable.mp he
  have hpath := descend_code (sortedRecords_length_le hn) hk
  refine List.length_pos_iff.mpr fun hnil => ?_
  rw [show codeFrom (buildNodes (sortedRecords xs)) (sortedRecords xs).length k = [] from hnil] at hpath
  have hroot : (buildNodes (sortedRecords xs)).length - 1 = k := Option.some.inj hpath
  rw [buildNodes_length (List.ne_nil_of_length_pos (by omega))] at hroot
  split at hroot <;> omega

/-- No code of the table is longer than 25 bits (R211). -/
theorem huffmanTable_code_le (hlen : xs.length ≤ 2 ^ 18) {e : CodeEntry} (he : e ∈ huffmanTable xs) : e.code.length ≤ 25 := by
  obtain ⟨k, hk, rfl⟩ := mem_huffmanTable.mp he
  exact code_length_le (sortedRecords_length_le hn)
    ((recordsOf_count (by omega)).perm (sortDesc_perm FreqRecord.key (recordsOf xs))) hlen (sortedRecords_descending xs) hk

/-- No code of the table begins another (R209). -/
theorem huffmanTable_apart : (huffmanTable xs).Pairwise CodeEntry.Apart := by
  have h256 := sortedRecords_length_le hn
  rw [List.pairwise_iff_getElem]
  intro i j hi hj hij
  have hget {k : Nat} (hk : k < (huffmanTable xs).length) := codeTableOf_getElem?.mp (List.getElem?_eq_getElem hk)
  obtain ⟨hi', hei⟩ := hget hi
  obtain ⟨hj', hej⟩ := hget hj
  rw [hei, hej]
  exact ⟨fun h => hij.ne (code_prefix_free h256 hi' hj' h), fun h => hij.ne' (code_prefix_free h256 hj' hi' h)⟩

/-- Every entry fits the container of the input's mode and largest code length (R131, R134, R208). -/
theorem huffmanTable_fits (hle : ∀ x ∈ xs, x.toNat ≤ 0xFFFFFF) (hlen : xs.length ≤ 2 ^ 18) {e : CodeEntry}
    (he : e ∈ huffmanTable xs) : e.Fits (selectMode xs) (maxLength (huffmanTable xs)) where
  pos := huffmanTable_code_pos hn he
  le := maxLength_le.mp le_rfl e he
  sym_lt := by
    have hcovered := covered_eq_true_iff.mp (covered_selectMode (covered_eq_true_iff.mpr hle)) _ (huffmanTable_sym hle hlen he)
    exact (symWord_toNat e.sym ▸ hcovered).trans_lt (modeLimit_lt _)

end
end

/-! ### What COMPRESS wrote -/

/-- PACK's codes are those of the input's symbols, one by one (R232). -/
theorem codes_of_payloadCodes {s : State} {tab : List CodeEntry} {n : Nat} {xs : List Word} {cs : List BitStr}
    (hread : s.symbols n = some xs) (h : payloadCodes tab s.symIn 0 n = .ok cs) :
    List.Forall₂ (fun x c => codeFor tab x = some c) xs cs := by
  obtain ⟨hlen, hsym⟩ := State.symbols_eq_some.mp hread
  obtain ⟨hcs, hcodes⟩ := payloadCodes_eq_ok.mp h
  refine List.forall₂_iff_get.mpr ⟨by omega, fun i hi hi' => ?_⟩
  obtain ⟨x, hx, hcode⟩ := hcodes i (hlen ▸ hi)
  rw [Nat.zero_add, hsym i (hlen ▸ hi), List.getElem?_eq_getElem hi] at hx
  cases hx
  rwa [List.getElem?_eq_getElem hi'] at hcode

/-- Where the first four stages ran, FREQ did (R235). -/
theorem freqStage_of_tableStages {s t : State} (h : tableStages s = .ok t) : ∃ u, freqStage s = .ok u := by
  obtain ⟨_, h, -⟩ := Stage.andThen_eq_ok.mp h
  obtain ⟨_, h, -⟩ := Stage.andThen_eq_ok.mp h
  obtain ⟨u, h, -⟩ := Stage.andThen_eq_ok.mp h
  exact ⟨u, h⟩

/-- Everything a successful COMPRESS did (R235): it read an input in range and wrote the container of the input's own table. -/
theorem exec_compress_succeeded {s t : State} (hcaps : capsOk s.symCap s.byteCap = true) (h : exec .compress s = .next t)
    (herr : t.status.err = false) : ∃ xs cs, s.inLen.toNat ≤ s.symCap ∧ s.symbols s.inLen.toNat = some xs ∧
      (∀ x ∈ xs, x.toNat ≤ 0xFFFFFF) ∧ (recordsOf xs).length ≤ 255 ∧
      List.Forall₂ (fun x c => codeFor (huffmanTable xs) x = some c) xs cs ∧
      ((afterCodegen xs s).container cs).length ≤ s.byteCap ∧
      t = completeOk (afterPack ((afterCodegen xs s).container cs) (afterCodegen xs s)) := by
  obtain ⟨u, hu, rfl⟩ := exec_succeeded h herr
  obtain ⟨w, htable, hpack⟩ := Stage.andThen_eq_ok.mp ((compressStage_eq s).symm.trans hu)
  obtain ⟨⟨-, hmax⟩, -⟩ := (capsOk_iff _ _).mp hcaps
  obtain ⟨v, hfreq⟩ := freqStage_of_tableStages htable
  obtain ⟨xs, hcap, hpos, hread, hcovered, hn, -⟩ := freqStage_eq_ok.mp hfreq
  have hle := covered_eq_true_iff.mp hcovered
  have hlen := (State.symbols_eq_some.mp hread).1
  have hcodes (e : CodeEntry) (he : e ∈ huffmanTable xs) : e.code.length ≤ 63 :=
    (huffmanTable_code_le hn (by omega) he).trans (by decide)
  cases (tableStages_eq_ok (by omega) hcap hread hle hn hcodes).symm.trans htable
  obtain ⟨out, hout, rfl⟩ := packStage_eq_ok.mp hpack
  obtain ⟨cs, hcs, rfl, hfits⟩ := packBytes_eq_ok.mp hout
  rw [codes_afterCodegen hn] at hcs
  exact ⟨xs, cs, hcap, hread, hle, hn, codes_of_payloadCodes hread hcs, hfits, rfl⟩

/-- Settles O44: COMPRESS wrote the container of the input's own table, no code of which begins another, and DECOMPRESS reads that
container back. -/
theorem compressDecompressRoundTrip : Obligations.CompressDecompressRoundTrip := by
  intro s t u hcaps hrun herr hsymCap hbyteCap hinLen hcopy
  obtain ⟨xs, cs, hcap, hread, hle, hn, hcodes, hfit, rfl⟩ := exec_compress_succeeded hcaps hrun herr
  obtain ⟨hlen, hsym⟩ := State.symbols_eq_some.mp hread
  obtain ⟨⟨-, hmax⟩, -⟩ := (capsOk_iff _ _).mp hcaps
  have hshort : maxLength (huffmanTable xs) ≤ 25 :=
    maxLength_le.mpr fun e he => huffmanTable_code_le hn (by omega) he
  have hmaxLen : (afterCodegen xs s).maxLen.toNat = maxLength (huffmanTable xs) := Nat.mod_eq_of_lt (by omega)
  have hnsym : (afterCodegen xs s).nsym.toNat = (huffmanTable xs).length :=
    (nsym_afterFreq (s := s) hn).trans (huffmanTable_length xs).symm
  have hsize : u.inLen.toNat = ((afterCodegen xs s).container cs).length :=
    hinLen ▸ outLen_afterPack (s := afterCodegen xs s) hcaps hfit
  have hbytes : u.inputBytes 0 u.inLen.toNat = some ((afterCodegen xs s).container cs) :=
    collect_eq_some.mpr ⟨hsize.symm, fun j hj => by
      rw [Nat.zero_add, hcopy j (hinLen ▸ hj)]
      exact byteOut_afterPack (hsize ▸ hj)⟩
  rw [State.container, codes_afterCodegen hn] at hbytes hfit hsize
  obtain ⟨v, hv, hstatus, hout, hsyms⟩ := exec_decompress_container (hsymCap ▸ hbyteCap ▸ hcaps) (by omega) hbytes hnsym
    (fun e he => hmaxLen ▸ huffmanTable_fits hn hle (by omega) he) (huffmanTable_apart hn) hcodes (by omega)
  refine ⟨v, hv, by rw [hstatus]; rfl, BitVec.eq_of_toNat_eq (hout.trans hlen), fun i hi => ?_⟩
  have hx : xs[i]? = some xs[i] := List.getElem?_eq_getElem (hlen ▸ hi)
  rw [hsyms i (toSym xs[i]) (by rw [List.getElem?_map, hx]; rfl), symWord_toSym (hle _ (List.getElem_mem _)), hsym i hi, hx]

end Sys2Proof.Machine
end

section
/-! A command behind its prerequisite check, and the STATUS of every completion (R292, R294, R295, R323). -/

namespace Sys2Proof.Machine

/-! ### The prerequisite check -/

/-- What a command does once its prerequisite is met (R123, R294). -/
def bodyStage : Instr → State → Stage
  | .freq => freqStage
  | .sort => sortStage
  | .build => buildStage
  | .codegen => codegenStage
  | .pack => packStage
  | .compress => compressStage
  | .parse => parseStage
  | .matchCodes => matchStage
  | .decompress => decompressStage
  | .clear => fun s => .ok (clearResults s)

/-- Every command is its body behind the check of R294's table; a command the table lists in every phase passes it always. -/
theorem stageOf_eq_requirePhase (i : Instr) (s : State) : stageOf i s = requirePhase (prerequisite i) (bodyStage i) s := by
  have hall : s.phase ∈ [Phase.idle, .counted, .sorted, .tree, .coded, .packed, .parsed, .decoded] := by
    cases s.phase <;> decide
  cases i with
  | sort | build | codegen | pack | matchCodes => rfl
  | freq | compress | parse | decompress | clear => exact (requirePhase_of_mem hall _).symm

/-- Past the check no command raises SEQUENCE or ILLEGAL_COMMAND (R320). -/
theorem bodyStage_failures (i : Instr) (s : State) : (bodyStage i s).RaisesFailures := by
  cases i with
  | freq => exact freqStage_failures s
  | sort => exact sortStage_failures s
  | build => exact buildStage_failures s
  | codegen => exact codegenStage_failures s
  | pack => exact packStage_failures s
  | compress => exact (tableStages_failures s).andThen packStage_failures
  | parse => exact parseStage_failures s
  | matchCodes => exact matchStage_failures s
  | decompress => exact (parseStage_failures s).andThen matchStage_failures
  | clear => exact fun e t h => by cases h

/-- Settles O5: out of phase the check raises SEQUENCE on the state as it was, and in phase only the body can raise. -/
theorem phasePrerequisites : Obligations.PhasePrerequisites := by
  intro i s
  rw [exec_eq_complete, stageOf_eq_requirePhase]
  refine ⟨fun hp => complete_requirePhase_of_not_mem hp _, fun hp t h => ?_⟩
  rw [requirePhase_of_mem hp] at h
  rcases complete_eq_next.mp h with ⟨u, -, rfl⟩ | ⟨e, u, hu, rfl⟩
  · exact show (0 : BitVec 4) ≠ 12 by decide
  · rw [raiseError_status]
    intro hcode
    have hfailure := bodyStage_failures i s e u hu
    rw [Err.code_eq_twelve.mp hcode] at hfailure
    cases hfailure

/-! ### Completion -/

/-- A completed command's STATUS is that of a success or of an error, with the OVR of before (R62, R292). -/
theorem exec_status {i : Instr} {s t : State} (h : exec i s = .next t) :
    t.status = okStatus s ∨ ∃ e : Err, t.status = errStatus e.code s := by
  have hsame := stageOf_sameInputs i s
  rw [exec_eq_complete] at h
  rcases complete_eq_next.mp h with ⟨u, hu, rfl⟩ | ⟨e, u, hu, rfl⟩
  · exact .inl (by rw [okStatus, ← (hsame.of_ok hu).status]; rfl)
  · exact .inr ⟨e, by rw [raiseError_status, errStatus, (hsame.of_raised hu).status]; rfl⟩

/-- Settles O47: both forms of STATUS have BUSY = 0 and DONE = 1, and no error has code 0. -/
theorem completionWritesStatus : Obligations.CompletionWritesStatus := by
  intro i s t h
  rcases exec_status h with hst | ⟨e, hst⟩ <;> rw [hst]
  · exact ⟨rfl, rfl, rfl, by simp [okStatus]⟩
  · exact ⟨rfl, rfl, rfl, iff_of_true rfl e.code_ne_zero⟩

/-- Settles O46: CLEAR is the completion of the cleared state. -/
theorem clearDiscardsResults : Obligations.ClearDiscardsResults := fun s =>
  congrArg Host.Outcome.next (completeOk_eq (clearResults s))

end Sys2Proof.Machine
end

section
/-! CMD writes, accepted or dropped, words that spell no command, and OVR beside a pending command (R290, R291, R293, R296). -/

namespace Sys2Proof.Machine

/-! ### The step of a CMD write -/

/-- A 32-bit write of CMD is always permitted and reaches the latch (R83, R290). -/
theorem step_writeCmd {s : State} {v : Word} {rest : List HostEvent} (hh : s.host = .write .w32 0x004 v :: rest) :
    step s = .next (cmdWrite v { s with host := rest }) := by
  have hcsr : State.region { s with host := rest } 0x004 = .csr := (region_low _ _).1 (by decide)
  rw [step_write32 hh (by decide) (by decide), writeAt, hcsr]
  rfl

/-- Settles O6: while idle the latch accepts the word. -/
theorem commandAcceptance : Obligations.CommandAcceptance := by
  intro s v rest hidle hh
  rw [step_writeCmd hh, cmdWrite, if_neg (by simp [hidle])]
  rfl

/-! ### Words that spell no command -/

/-- The engine's turn with a rejected word fails with ILLEGAL_COMMAND, which changes STATUS only (R296, R323). -/
theorem engineTurn_rejected {s : State} {r : Rejection} (hb : s.status.busy = true) (hr : decode s.cmd = .rejected r) :
    engineTurn s = .next { s with status := errStatus 13 s } := by
  have hfetch : fetch s = .rejected r := hr
  rw [engineTurn, if_pos hb, hfetch]
  exact congrArg Host.Outcome.next (raiseError_of_protocol (e := .illegalCommand) rfl s)

/-- Settles O4: the decoder rejects exactly the illegal words. -/
theorem illegalCommandFailsAlone : Obligations.IllegalCommandFailsAlone := by
  intro s rest hb hw hm
  obtain ⟨-, hrejects⟩ := decodeInvertsEncode
  obtain ⟨r, hr⟩ := (hrejects s.cmd).mpr hw
  exact (step_engineMoves hm).trans (engineTurn_rejected hb hr)

/-! ### OVR is no input of a stage -/

/-- A stage that ends in the state g makes of its own. -/
def Stage.map (g : State → State) : Stage → Stage
  | .ok s => .ok (g s)
  | .raised e s => .raised e (g s)
  | .fault f => .fault f

/-- The stage f does not see that OVR was set: it ends as it would have, with OVR set beside it (R293). -/
def IgnoresOverrun (f : State → Stage) : Prop := ∀ s, f (overrun s) = (f s).map overrun

theorem IgnoresOverrun.andThen {f g : State → Stage} (hf : IgnoresOverrun f) (hg : IgnoresOverrun g) :
    IgnoresOverrun fun s => (f s).andThen g := by
  intro s
  show (f (overrun s)).andThen g = ((f s).andThen g).map overrun
  rw [hf s]
  cases f s with
  | ok t => exact hg t
  | raised e t => rfl
  | fault e => rfl

theorem IgnoresOverrun.requirePhase {f : State → Stage} (hf : IgnoresOverrun f) (allowed : List Phase) :
    IgnoresOverrun (requirePhase allowed f) := by
  intro s
  by_cases hp : s.phase ∈ allowed
  · rw [requirePhase_of_mem hp, requirePhase_of_mem (s := overrun s) hp]
    exact hf s
  · rw [requirePhase_of_not_mem hp, requirePhase_of_not_mem (s := overrun s) hp]
    rfl

theorem freqOf_overrun (xs : List Word) : IgnoresOverrun (freqOf xs) := by
  intro s
  unfold freqOf
  rw [apply_ite (Stage.map overrun), apply_ite (Stage.map overrun)]
  rfl

theorem freqStage_overrun : IgnoresOverrun freqStage := by
  intro s
  have hread : (overrun s).symbols (overrun s).inLen.toNat = s.symbols s.inLen.toNat := rfl
  unfold freqStage
  rw [hread, apply_ite (Stage.map overrun), apply_ite (Stage.map overrun)]
  refine if_congr Iff.rfl rfl (if_congr Iff.rfl rfl ?_)
  cases s.symbols s.inLen.toNat with
  | none => rfl
  | some xs => exact freqOf_overrun xs s

theorem buildStage_overrun : IgnoresOverrun buildStage := by
  intro s
  unfold buildStage
  rw [apply_ite (Stage.map overrun)]
  rfl

theorem codegenStage_overrun : IgnoresOverrun codegenStage := by
  intro s
  unfold codegenStage
  rw [apply_ite (Stage.map overrun)]
  rfl

theorem packStage_overrun : IgnoresOverrun packStage := by
  intro s
  have hbytes : packBytes (overrun s) = packBytes s := rfl
  unfold packStage
  rw [hbytes]
  cases packBytes s <;> rfl

theorem parseOf_overrun (c : List Byte) : IgnoresOverrun (parseOf c) := by
  intro s
  unfold parseOf
  cases parseTree (trailerIn c) (bodyOf c) <;> rfl

theorem parseStage_overrun : IgnoresOverrun parseStage := by
  intro s
  have hread : (overrun s).inputBytes 0 (overrun s).inLen.toNat = s.inputBytes 0 s.inLen.toNat := rfl
  unfold parseStage
  rw [hread, apply_ite (Stage.map overrun), apply_ite (Stage.map overrun)]
  refine if_congr Iff.rfl rfl (if_congr Iff.rfl rfl ?_)
  cases s.inputBytes 0 s.inLen.toNat with
  | none => rfl
  | some c => exact parseOf_overrun c s

theorem matchStage_overrun : IgnoresOverrun matchStage := by
  intro s
  have hsyms : matchSymbols (overrun s) = matchSymbols s := rfl
  unfold matchStage
  rw [hsyms]
  cases matchSymbols s <;> rfl

/-- No command reads or writes OVR before it completes (R62, R293). -/
theorem bodyStage_overrun (i : Instr) : IgnoresOverrun (bodyStage i) := by
  cases i with
  | freq => exact freqStage_overrun
  | sort => exact fun _ => rfl
  | build => exact buildStage_overrun
  | codegen => exact codegenStage_overrun
  | pack => exact packStage_overrun
  | compress =>
    exact (((freqStage_overrun.andThen fun _ => rfl).andThen buildStage_overrun).andThen codegenStage_overrun).andThen
      packStage_overrun
  | parse => exact parseStage_overrun
  | matchCodes => exact matchStage_overrun
  | decompress => exact parseStage_overrun.andThen matchStage_overrun
  | clear => exact fun _ => rfl

/-! ### The engine's turn with OVR set -/

/-- o' is the outcome o with OVR set beside it, and the same fault where o is one (R293). -/
structure OverrunBeside (o o' : Host.Outcome State Fault Refusal) : Prop where
  next : ∀ t, o = .next t → o' = .next (overrun t)
  fault : ∀ f, o = .fault f → o' = .fault f

/-- Completion leaves OVR (R62, R292). -/
theorem complete_map_overrun (r : Stage) : OverrunBeside (complete r) (complete (r.map overrun)) := by
  cases r with
  | ok s => exact ⟨fun t h => by cases h; rfl, nofun⟩
  | raised e s =>
    refine ⟨fun t h => ?_, nofun⟩
    cases h
    show Host.Outcome.next (raiseError e (overrun s)) = _
    cases he : e.isProtocol
    · rw [raiseError_of_failure he, raiseError_of_failure he]; rfl
    · rw [raiseError_of_protocol he, raiseError_of_protocol he]; rfl
  | fault f => exact ⟨nofun, fun g h => by cases h; rfl⟩

theorem exec_overrun (i : Instr) (s : State) : OverrunBeside (exec i s) (exec i (overrun s)) := by
  rw [exec_eq_complete, exec_eq_complete, stageOf_eq_requirePhase, stageOf_eq_requirePhase,
    (bodyStage_overrun i).requirePhase]
  exact complete_map_overrun _

/-- The engine's turn does with OVR set what it would have done without (R293). -/
theorem engineTurn_overrun (s : State) : OverrunBeside (engineTurn s) (engineTurn (overrun s)) := by
  cases hb : s.status.busy with
  | false =>
    rw [engineTurn_idle hb, engineTurn_idle (s := overrun s) hb]
    exact ⟨fun t h => by cases h; rfl, nofun⟩
  | true =>
    cases hw : decode s.cmd with
    | command i =>
      rw [engineTurn_command hb hw, engineTurn_command (s := overrun s) hb hw]
      exact exec_overrun i s
    | rejected r =>
      rw [engineTurn_rejected hb hw, engineTurn_rejected (s := overrun s) hb hw]
      exact ⟨fun t h => by cases h; rfl, nofun⟩

/-- Settles O7: a dropped write is `overrun`, and no stage reads or writes OVR. -/
theorem commandDroppedWhileBusy : Obligations.CommandDroppedWhileBusy := by
  refine ⟨fun s v rest hb hh => ?_, fun s => (engineTurn_overrun s).next, fun s => (engineTurn_overrun s).fault⟩
  rw [step_writeCmd hh, cmdWrite, if_pos hb]
  rfl

end Sys2Proof.Machine
end

section
/-! From a state of the invariant the engine's turn completes when its input has been written (R57, R93, R211, R292). -/

namespace Sys2Proof.Machine

/-! ### When a stage faults -/

section
variable {s : State} {f : Fault}

/-- PACK faults only on an entry of SYM_IN below ENC_N never written (R93, R230). -/
theorem packStage_eq_fault (h : packStage s = .fault f) : ∃ k < s.encN.toNat, s.symIn k = none := by
  unfold packStage at h
  split at h
  · cases h
  · cases h
  next g hg =>
  unfold packBytes at hg
  split at hg
  · cases hg
  · next hcodes =>
    obtain ⟨-, k, hk, hnone⟩ := payloadCodes_fault hcodes
    exact ⟨k, hk, by rwa [Nat.zero_add] at hnone⟩
  · split at hg <;> cases hg

/-- PARSE faults only on a byte of BYTE_IN below IN_LEN never written, with IN_LEN in range (R93, R260). -/
theorem parseStage_eq_fault (h : parseStage s = .fault f) :
    s.inLen.toNat ≤ s.byteCap ∧ ∃ k < s.inLen.toNat, s.byteIn k = none := by
  unfold parseStage at h
  split at h
  · cases h
  split at h
  · cases h
  split at h
  · next hcap _ hnone =>
    obtain ⟨k, hk, hread⟩ := collect_eq_none.mp hnone
    exact ⟨by omega, k, hk, by rwa [Nat.zero_add] at hread⟩
  · unfold parseOf at h
    split at h
    · cases h
    · cases h
    · next hg => exact absurd hg parseEntries_fault

/-- MATCH faults only on a byte of the payload region never written (R93, R264). -/
theorem matchStage_eq_fault (h : matchStage s = .fault f) :
    ∃ j, s.payStart.toNat ≤ j ∧ j < s.payEnd.toNat ∧ s.byteIn j = none := by
  unfold matchStage at h
  split at h
  · cases h
  · cases h
  next g hg =>
  unfold matchSymbols at hg
  split at hg
  · next hnone =>
    obtain ⟨k, hk, hread⟩ := collect_eq_none.mp hnone
    exact ⟨s.payStart.toNat + k, by omega, by omega, hread⟩
  split at hg
  · cases hg
  · exact absurd hg matchLoop_fault

end

/-! ### Stages that complete -/

/-- The stage ends, and not with DEGENERATE_TREE. -/
def Stage.Completes : Stage → Prop
  | .ok _ => True
  | .raised e _ => e ≠ .degenerateTree
  | .fault _ => False

theorem Stage.completes_of {r : Stage} (herr : ∀ e t, r = .raised e t → e ≠ .degenerateTree)
    (hfault : ∀ f, r ≠ .fault f) : r.Completes := by
  cases r with
  | ok t => trivial
  | raised e t => exact herr e t rfl
  | fault f => exact hfault f rfl

/-- A stage that completes and ends well, then one that completes on the states it leaves. -/
theorem Stage.Completes.andThen {p : Phase} {r : Stage} {f : State → Stage} (hr : r.Completes) (hgood : r.Good p)
    (hf : ∀ t, t.Inv → t.phase = p → (f t).Completes) : (r.andThen f).Completes := by
  cases r with
  | ok t => exact hf t hgood.1 hgood.2
  | raised e t => exact hr
  | fault g => exact hr

theorem Stage.Completes.requirePhase {allowed : List Phase} {f : State → Stage} {s : State}
    (hf : s.phase ∈ allowed → (f s).Completes) : (requirePhase allowed f s).Completes := by
  rcases requirePhase_cases allowed f s with ⟨hp, e⟩ | e <;> rw [e]
  · exact hf hp
  · exact nofun

/-- A stage that completes completes its command (R292). -/
theorem Stage.Completes.exists_next {r : Stage} (h : r.Completes) :
    ∃ t, complete r = .next t ∧ t.status.busy = false ∧ t.status.done = true ∧ t.status.errCode ≠ 7 := by
  cases r with
  | ok t => exact ⟨_, rfl, rfl, rfl, show (0 : BitVec 4) ≠ 7 by decide⟩
  | raised e t =>
    have hcode : e.code ≠ 7 := by
      cases e with
      | degenerateTree => exact absurd rfl h
      | _ => decide
    refine ⟨_, rfl, ?_⟩
    rw [raiseError_status]
    exact ⟨rfl, rfl, hcode⟩
  | fault f => exact h.elim

/-! ### Every stage from a state of the invariant -/

section
variable {s : State}

/-- FREQ completes on a written input (R170). -/
theorem freqStage_completes (hin : s.inLen.toNat ≤ s.symCap → ∀ k < s.inLen.toNat, (s.symIn k).isSome = true) :
    (freqStage s).Completes := by
  refine Stage.completes_of (fun e t h => ?_) fun f h => ?_
  · rintro rfl
    obtain ⟨-, hmem⟩ := freqStage_eq_raised h
    simp at hmem
  · obtain ⟨-, hcap, k, hk, hnone⟩ := freqStage_eq_fault h
    simpa [hnone] using hin hcap k hk

/-- PARSE completes on a written input (R260). -/
theorem parseStage_completes (hin : s.inLen.toNat ≤ s.byteCap → ∀ k < s.inLen.toNat, (s.byteIn k).isSome = true) :
    (parseStage s).Completes := by
  refine Stage.completes_of (fun e t h => ?_) fun f h => ?_
  · rintro rfl
    obtain ⟨-, hmem⟩ := parseStage_eq_raised h
    simp at hmem
  · obtain ⟨hcap, k, hk, hnone⟩ := parseStage_eq_fault h
    simpa [hnone] using hin hcap k hk

/-- SORT raises nothing (R172). -/
theorem sortStage_completes (s : State) : (sortStage s).Completes := trivial

/-- CODEGEN raises at most CODE_LENGTH_OVERFLOW (R205). -/
theorem codegenStage_completes (s : State) : (codegenStage s).Completes := by
  unfold codegenStage
  split
  · exact nofun
  · trivial

/-- In PHASE 2 there is a record, so BUILD makes a tree (R54, R200). -/
theorem buildStage_completes (hs : s.Inv) (hp : s.phase = .sorted) : (buildStage s).Completes := by
  have hpos := (hs.encodingInv (by simp [Phase.encoding, hp])).nsym_pos
  have hne : s.nsym ≠ 0 := by rintro h; simp [h] at hpos
  rw [buildStage_eq_ok.mpr ⟨hne, rfl⟩]
  trivial

/-- In PHASE 4 and 5 the input FREQ read is still there, so PACK completes (R47, R93). -/
theorem packStage_completes (hs : s.Inv) (hp : s.phase = .coded ∨ s.phase = .packed) : (packStage s).Completes := by
  have h := hs.encodingInv (by rcases hp with hp | hp <;> simp [Phase.encoding, hp])
  refine Stage.completes_of (fun e t hraised => ?_) fun f hfault => ?_
  · rcases packBytes_raised (packStage_eq_raised.mp hraised).1 with rfl | rfl <;> exact nofun
  · obtain ⟨k, hk, hnone⟩ := packStage_eq_fault hfault
    simpa [hnone] using h.input k hk

/-- In PHASE 8 and 9 the payload PARSE read is still there, so MATCH completes (R46, R93). -/
theorem matchStage_completes (hs : s.Inv) (hp : s.phase = .parsed ∨ s.phase = .decoded) : (matchStage s).Completes := by
  have h := hs.decodingInv (by rcases hp with hp | hp <;> simp [Phase.decoding, hp])
  refine Stage.completes_of (fun e t hraised => ?_) fun f hfault => ?_
  · rcases matchSymbols_raised (matchStage_eq_raised.mp hraised).1 with rfl | rfl | rfl <;> exact nofun
  · obtain ⟨j, hlo, hhi, hnone⟩ := matchStage_eq_fault hfault
    simpa [hnone] using h.input j hlo hhi

/-- COMPRESS completes on a written input: each stage leaves the next a state of the invariant (R235). -/
theorem compressStage_completes (hs : s.Inv)
    (hin : s.inLen.toNat ≤ s.symCap → ∀ k < s.inLen.toNat, (s.symIn k).isSome = true) : (compressStage s).Completes := by
  have hfreq := freqStage_good hs
  have hsort := hfreq.andThen fun _ h hp => sortStage_good h hp
  have hbuild := hsort.andThen fun _ h hp => buildStage_good h hp
  have hcodegen := hbuild.andThen fun _ h hp => codegenStage_good h hp
  have hsorted := (freqStage_completes hin).andThen hfreq fun t _ _ => sortStage_completes t
  have hbuilt := hsorted.andThen hsort fun _ h hp => buildStage_completes h hp
  have hcoded := hbuilt.andThen hbuild fun t _ _ => codegenStage_completes t
  exact hcoded.andThen hcodegen fun _ h hp => packStage_completes h (.inl hp)

/-- In phase, every command completes from a state of the invariant whose input has been written. -/
theorem bodyStage_completes {i : Instr} (hs : s.Inv) (hp : s.phase ∈ prerequisite i)
    (hsym : i = .freq ∨ i = .compress → s.inLen.toNat ≤ s.symCap → ∀ k < s.inLen.toNat, (s.symIn k).isSome = true)
    (hbyte : i = .parse ∨ i = .decompress → s.inLen.toNat ≤ s.byteCap → ∀ k < s.inLen.toNat, (s.byteIn k).isSome = true) :
    (bodyStage i s).Completes := by
  cases i with
  | freq => exact freqStage_completes (hsym (.inl rfl))
  | sort => exact sortStage_completes s
  | build => exact buildStage_completes hs (by simpa [prerequisite] using hp)
  | codegen => exact codegenStage_completes s
  | pack => exact packStage_completes hs (by simpa [prerequisite] using hp)
  | compress => exact compressStage_completes hs (hsym (.inr rfl))
  | parse => exact parseStage_completes (hbyte (.inl rfl))
  | matchCodes => exact matchStage_completes hs (by simpa [prerequisite] using hp)
  | decompress =>
    exact (parseStage_completes (hbyte (.inr rfl))).andThen (parseStage_good hs) fun _ h hp => matchStage_completes h (.inl hp)
  | clear => trivial

end

/-- Settles O59: the invariant holds the input the staged commands read, the hypotheses that of the others, and an illegal word
fails with ILLEGAL_COMMAND. -/
theorem engineTurnCompletes : Obligations.EngineTurnCompletes := by
  intro s hs hb hsym hbyte
  cases hw : decode s.cmd with
  | command i =>
    rw [engineTurn_command hb hw, exec_eq_complete, stageOf_eq_requirePhase]
    exact (Stage.Completes.requirePhase fun hp => bodyStage_completes hs hp (hsym i hw) (hbyte i hw)).exists_next
  | rejected r => exact ⟨_, engineTurn_rejected hb hw, rfl, rfl, show (13 : BitVec 4) ≠ 7 by decide⟩

end Sys2Proof.Machine
end

section
/-! The errors each command can raise, and the memory a failed command leaves (R320, R322, R324, R335). -/

namespace Sys2Proof.Machine

/-! ### The errors of the stages -/

/-- FREQ's errors (R324). -/
def freqErrors : List Err := [.inputLength, .emptyInput, .unknownMode, .alphabetOverflow]

/-- The errors of COMPRESS before its PACK stage: FREQ's and CODEGEN's (R235, R324). -/
def tableErrors : List Err := .codeLengthOverflow :: freqErrors

/-- PARSE's errors (R324). -/
def parseErrors : List Err := [.inputLength, .truncatedHeader, .headerFormat]

/-- FREQ's errors are in its row of R320. -/
theorem code_of_mem_freqErrors : ∀ e ∈ freqErrors, e.code ∈ codesOf .freq := by decide

/-- The errors before the PACK stage are in COMPRESS's row of R320, and none is one of PACK's. -/
theorem code_of_mem_tableErrors : ∀ e ∈ tableErrors, e.code ∈ codesOf .compress ∧ e.code ∉ [6, 10] := by decide

/-- PARSE's errors are in the rows of PARSE and DECOMPRESS of R320, and none is one of MATCH's. -/
theorem code_of_mem_parseErrors :
    ∀ e ∈ parseErrors, e.code ∈ codesOf .parse ∧ e.code ∈ codesOf .decompress ∧ e.code ∉ [4, 6, 10] := by decide

/-! ### The combined commands: which stage raised -/

/-- BUILD never fails behind FREQ and SORT: FREQ rejects an empty input, so there is a record (R203, R211). -/
theorem buildStage_after_freq_sort {s t : State} (h : (freqStage s).andThen sortStage = .ok t) :
    ∃ u, buildStage t = .ok u := by
  obtain ⟨v, hfreq, hsort⟩ := Stage.andThen_eq_ok.mp h
  obtain ⟨xs, -, hpos, hread, -, hn, rfl⟩ := freqStage_eq_ok.mp hfreq
  have hlen : xs.length = s.inLen.toNat := (State.symbols_eq_some.mp hread).1
  have hne : recordsOf xs ≠ [] :=
    (recordsOf_count (by rw [hlen]; exact s.inLen.isLt)).ne_nil (by rw [hlen]; exact Nat.one_le_iff_ne_zero.mpr hpos)
  cases (sortStage_afterFreq hn).symm.trans hsort
  exact ⟨_, buildStage_afterSort hn hne⟩

/-- COMPRESS up to its PACK stage raises what FREQ and CODEGEN do, and never DEGENERATE_TREE (R235, R335). -/
theorem tableStages_eq_raised {s t : State} {e : Err} (h : tableStages s = .raised e t) : e ∈ tableErrors := by
  rcases Stage.andThen_eq_raised.mp h with h | ⟨u, -, hcodegen⟩
  · rcases Stage.andThen_eq_raised.mp h with h | ⟨u, hu, hbuild⟩
    · rcases Stage.andThen_eq_raised.mp h with hfreq | ⟨u, -, hsort⟩
      · exact List.mem_cons_of_mem _ (freqStage_eq_raised hfreq).2
      · cases hsort
    · obtain ⟨v, hv⟩ := buildStage_after_freq_sort hu
      cases hv.symm.trans hbuild
  · rw [(codegenStage_eq_raised hcodegen).2.1]
    decide

/-- COMPRESS fails before its PACK stage, with memory as it was, or in it, and BYTE_OUT is discarded (R235, R322). -/
theorem compressStage_eq_raised {s t : State} {e : Err} (h : compressStage s = .raised e t) :
    (e ∈ tableErrors ∧ t.mem = s.mem) ∨
      ((e = .unmatchedCode ∨ e = .outputOverflow) ∧ t.mem = (discardByteOut s).mem) := by
  rcases Stage.andThen_eq_raised.mp ((compressStage_eq s).symm.trans h) with h | ⟨u, hu, hpack⟩
  · exact .inl ⟨tableStages_eq_raised h, ((tableStages_memory s).of_raised h).2⟩
  · have hsame := (tableStages_memory s).of_ok hu
    obtain ⟨hbytes, rfl⟩ := packStage_eq_raised.mp hpack
    exact .inr ⟨packBytes_raised hbytes, by rw [discardByteOut_mem, discardByteOut_mem, hsame.2, hsame.1.byteCap]⟩

/-- DECOMPRESS fails in its PARSE stage, with memory as it was, or in its MATCH stage, and SYM_OUT is discarded (R267, R322). -/
theorem decompressStage_eq_raised {s t : State} {e : Err} (h : decompressStage s = .raised e t) :
    (e ∈ parseErrors ∧ t.mem = s.mem) ∨
      ((e = .truncatedPayload ∨ e = .unmatchedCode ∨ e = .outputOverflow) ∧ t.mem = (discardSymOut s).mem) := by
  rcases Stage.andThen_eq_raised.mp h with h | ⟨u, hu, hmatch⟩
  · exact .inl ⟨(parseStage_eq_raised h).2, ((parseStage_memory s).of_raised h).2⟩
  · have hsame := (parseStage_memory s).of_ok hu
    obtain ⟨hsyms, rfl⟩ := matchStage_eq_raised.mp hmatch
    exact .inr ⟨matchSymbols_raised hsyms, by rw [discardSymOut_mem, discardSymOut_mem, hsame.2, hsame.1.symCap]⟩

/-! ### The codes -/

/-- Past the prerequisite check a command raises only errors of its own row of R320. -/
theorem bodyStage_raised_code {i : Instr} {s t : State} {e : Err} (h : bodyStage i s = .raised e t) :
    e.code ∈ codesOf i := by
  cases i with
  | freq => exact code_of_mem_freqErrors e (freqStage_eq_raised h).2
  | sort => cases h
  | build => rw [(buildStage_eq_raised h).2.1]; decide
  | codegen => rw [(codegenStage_eq_raised h).2.1]; decide
  | pack => rcases packBytes_raised (packStage_eq_raised.mp h).1 with rfl | rfl <;> decide
  | compress =>
    rcases compressStage_eq_raised h with ⟨he, -⟩ | ⟨rfl | rfl, -⟩
    · exact (code_of_mem_tableErrors e he).1
    · decide
    · decide
  | parse => exact (code_of_mem_parseErrors e (parseStage_eq_raised h).2).1
  | matchCodes => rcases matchSymbols_raised (matchStage_eq_raised.mp h).1 with rfl | rfl | rfl <;> decide
  | decompress =>
    rcases decompressStage_eq_raised h with ⟨he, -⟩ | ⟨rfl | rfl | rfl, -⟩
    · exact (code_of_mem_parseErrors e he).2.1
    · decide
    · decide
    · decide
  | clear => cases h

theorem zero_mem_codesOf (i : Instr) : 0 ∈ codesOf i := by cases i <;> decide

/-- A command that can be out of phase can complete with SEQUENCE (R294, R320). -/
theorem sequence_mem_codesOf {i : Instr} {s : State} (h : s.phase ∉ prerequisite i) : 12 ∈ codesOf i := by
  generalize s.phase = p at h
  cases i with
  | sort | build | codegen | pack | matchCodes => decide
  | freq | compress | parse | decompress | clear => exact absurd (by cases p <;> decide) h

/-- Settles O48: a command succeeds, is out of phase, or raises an error of its own. -/
theorem errorCodesOfCommands : Obligations.ErrorCodesOfCommands := by
  intro i s t h
  rw [exec_eq_complete, stageOf_eq_requirePhase] at h
  by_cases hp : s.phase ∈ prerequisite i
  · rw [requirePhase_of_mem hp] at h
    rcases complete_eq_next.mp h with ⟨u, -, rfl⟩ | ⟨e, u, hu, rfl⟩
    · exact zero_mem_codesOf i
    · rw [raiseError_status]
      exact bodyStage_raised_code hu
  · rw [complete_requirePhase_of_not_mem hp] at h
    cases h
    exact sequence_mem_codesOf hp

/-! ### The memory after a failure -/

/-- R322's memory after command i has failed on s with this code: without BYTE_OUT if its PACK stage failed, without SYM_OUT if
its MATCH stage did. -/
def memAfterFailure (i : Instr) (code : BitVec 4) (s : State) : List Host.Cell :=
  if i = .pack ∨ (i = .compress ∧ code ∈ [6, 10]) then (discardByteOut s).mem
  else if i = .matchCodes ∨ (i = .decompress ∧ code ∈ [4, 6, 10]) then (discardSymOut s).mem
  else s.mem

/-- A byte of that memory: no known value in the region of the stage that failed, as it was elsewhere (R322). -/
theorem read_memAfterFailure (i : Instr) (code : BitVec 4) (s : State) (a : Nat) :
    Memory.read (memAfterFailure i code s) a =
      if (i = .pack ∨ (i = .compress ∧ code ∈ [6, 10])) ∧ within a 0x400000 (0x400000 + s.byteCap) then none
      else if (i = .matchCodes ∨ (i = .decompress ∧ code ∈ [4, 6, 10])) ∧
        within a 0x200000 (0x200000 + 4 * s.symCap) then none
      else Memory.read s.mem a := by
  unfold memAfterFailure
  by_cases hpack : i = .pack ∨ (i = .compress ∧ code ∈ [6, 10])
  · have hmatch : ¬ (i = .matchCodes ∨ (i = .decompress ∧ code ∈ [4, 6, 10])) := by
      rcases hpack with rfl | ⟨rfl, -⟩ <;> simp
    simp only [hpack, hmatch, true_and, false_and, if_false]
    exact Memory.read_forget _ _ _ _
  · simp only [hpack, false_and, if_false]
    by_cases hmatch : i = .matchCodes ∨ (i = .decompress ∧ code ∈ [4, 6, 10])
    · simp only [hmatch, true_and]
      exact Memory.read_forget _ _ _ _
    · simp only [hmatch, false_and, if_false]

/-- A failing command discards the output region of the stage that failed, and no other byte (R322). -/
theorem bodyStage_raised_mem {i : Instr} {s t : State} {e : Err} (h : bodyStage i s = .raised e t) :
    t.mem = memAfterFailure i e.code s := by
  cases i with
  | freq => rw [(freqStage_eq_raised h).1]; rfl
  | sort => cases h
  | build => rw [(buildStage_eq_raised h).1]; rfl
  | codegen => rw [(codegenStage_eq_raised h).1]; rfl
  | pack => rw [(packStage_eq_raised.mp h).2]; rfl
  | compress =>
    rcases compressStage_eq_raised h with ⟨he, hmem⟩ | ⟨rfl | rfl, hmem⟩
    · obtain ⟨-, hcode⟩ := code_of_mem_tableErrors e he
      rw [hmem, memAfterFailure, if_neg (by simpa using hcode), if_neg (by simp)]
    · exact hmem
    · exact hmem
  | parse => rw [(parseStage_eq_raised h).1]; rfl
  | matchCodes => rw [(matchStage_eq_raised.mp h).2]; rfl
  | decompress =>
    rcases decompressStage_eq_raised h with ⟨he, hmem⟩ | ⟨rfl | rfl | rfl, hmem⟩
    · obtain ⟨-, -, hcode⟩ := code_of_mem_parseErrors e he
      rw [hmem, memAfterFailure, if_neg (by simp), if_neg (by simpa using hcode)]
    · exact hmem
    · exact hmem
    · exact hmem
  | clear => cases h

/-- An error other than SEQUENCE comes from past the prerequisite check (R294). -/
theorem bodyStage_of_failure {i : Instr} {s t : State} {e : Err} (he : e.isProtocol = false)
    (h : stageOf i s = .raised e t) : bodyStage i s = .raised e t := by
  rw [stageOf_eq_requirePhase] at h
  rcases requirePhase_cases (prerequisite i) (bodyStage i) s with ⟨-, hcheck⟩ | hcheck
  · exact hcheck.symm.trans h
  · cases hcheck.symm.trans h
    cases he

/-- Settles O49: of the three ways to complete only a failure past the check is left, and its stage says what memory holds. -/
theorem failureEffects : Obligations.FailureEffects := by
  intro i s t h herr hcode
  rcases exec_eq_next h with ⟨u, -, rfl⟩ | rfl | ⟨e, u, he, hu, rfl⟩
  · cases herr
  · exact absurd rfl hcode
  · have hsame := (stageOf_sameInputs i s).of_raised hu
    refine ⟨rfl, rfl, rfl, rfl, rfl, rfl, rfl, rfl, rfl, rfl, rfl, hsame.inLen, hsame.cmd, fun a => ?_⟩
    have hmem : u.mem = memAfterFailure i e.code s := bodyStage_raised_mem (bodyStage_of_failure he hu)
    show Memory.read u.mem a = _
    rw [hmem]
    exact read_memAfterFailure i e.code s a

end Sys2Proof.Machine
end

section
/-! Reset, the writes that stop a run while a command is pending, and progress of a pending command (R292, R293, R360, R361, R364,
R368). -/

namespace Sys2Proof.Machine

/-! ### The reset input -/

/-- Settles O8: the event's effect is `resetInput`, which leaves nothing pending. -/
theorem resetDiscardsPendingCommand : Obligations.ResetDiscardsPendingCommand := fun _ _ hh =>
  ⟨step_event hh, engineTurn_idle rfl⟩

/-! ### Writes of an input -/

/-- A permitted write to an input is guarded by BUSY, and one to any other target completes (R80, R364). -/
theorem writeAt_by_inputAddr {s : State} (hcaps : capsOk s.symCap s.byteCap = true) (w : Width) (a : Nat) (v : Word) :
    (inputAddr s a ∧ ∃ t, writeAt w a v s = inputWrite s t) ∨ (¬ inputAddr s a ∧ ∃ t, writeAt w a v s = .next t) := by
  obtain ⟨hcsr, -, -, -, hsymIn, -, hbyteIn, -⟩ := region_iff s a hcaps
  unfold inputAddr
  rw [← hsymIn, ← hbyteIn]
  rcases writeAt_cases w a v s with ⟨hr, ha, e⟩ | ⟨-, ha, e⟩ | ⟨hr, e⟩ | ⟨hr, e⟩ | ⟨hsym, hbyte, hother, e⟩
  · exact .inr ⟨by rw [hr, ha]; decide, _, e⟩
  · exact .inl ⟨.inl ha, _, e⟩
  · exact .inl ⟨.inr (.inl hr), _, e⟩
  · exact .inl ⟨.inr (.inr hr), _, e⟩
  · refine .inr ⟨?_, _, e⟩
    rintro (rfl | hr | hr)
    · exact (hother (hcsr.mpr (by decide))).2 rfl
    · exact hsym hr
    · exact hbyte hr

/-- Settles O11: BUSY stops the writes it guards, which are those of the inputs. -/
theorem inputWritesWhileBusyFault : Obligations.InputWritesWhileBusyFault := by
  intro s w a v rest hcaps hp hh
  have hstep : step s = writeAt w a.toNat v { s with host := rest } := by
    rw [step_write hh, hostWrite_ok v ((accessOk_iff { s with host := rest } hcaps w a).mpr hp)]
  rw [hstep]
  rcases writeAt_by_inputAddr (s := { s with host := rest }) hcaps w a.toNat v with ⟨hin, t, e⟩ | ⟨hout, t, e⟩ <;> rw [e]
  · exact ⟨fun hb => iff_of_true (inputWrite_busy hb) hin, fun _ hout => absurd hin hout, fun hidle => ⟨t, inputWrite_idle hidle⟩⟩
  · exact ⟨fun _ => iff_of_false nofun hout, fun _ _ => ⟨t, rfl⟩, fun _ => ⟨t, rfl⟩⟩

/-! ### Progress of a pending command -/

/-- The command of CMD word c is pending, and `rest` are the events still to come (R58, R292). -/
def State.Pending (s : State) (c : Word) (rest : List HostEvent) : Prop :=
  s.status.busy = true ∧ s.cmd = c ∧ s.host = rest

/-- The command of CMD word c has completed (R292). -/
def State.Completed (s : State) (c : Word) : Prop := s.status.busy = false ∧ s.status.done = true ∧ s.cmd = c

/-- An engine's turn on a pending command completes it, whether its word is legal or not (R292, R296). -/
theorem engineTurn_completed {s t : State} (hb : s.status.busy = true) (h : engineTurn s = .next t) : t.Completed s.cmd := by
  cases hw : decode s.cmd with
  | command i =>
    obtain ⟨hidle, hdone, hcmd, -⟩ := exec_completes ((engineTurn_command hb hw).symm.trans h)
    exact ⟨hidle, hdone, hcmd⟩
  | rejected r =>
    cases (engineTurn_rejected hb hw).symm.trans h
    exact ⟨rfl, rfl, rfl⟩

/-- No host write ends or replaces a pending command: a CMD write is dropped (R293). -/
theorem hostWrite_pending {w : Width} {a : Addr} {v : Word} {s t : State} (hb : s.status.busy = true)
    (h : hostWrite w a v s = .next t) : t.Pending s.cmd s.host := by
  rcases hostWrite_eq_next h with rfl | rfl | rfl | ⟨-, -, rfl⟩ | ⟨-, rfl⟩
  · exact ⟨hb, rfl, rfl⟩
  · rw [cmdWrite, if_pos hb]
    exact ⟨hb, rfl, rfl⟩
  · exact ⟨hb, rfl, rfl⟩
  · exact ⟨hb, rfl, rfl⟩
  · exact ⟨hb, rfl, rfl⟩

/-- What an event does to a pending command: it stays pending through a host access, completes at the engine's turn, or is
discarded by a reset (R292, R293, R361). -/
theorem perform_pending {e : HostEvent} {s t : State} (hb : s.status.busy = true) (h : perform e s = .next t) :
    t.Pending s.cmd s.host ∨ t.Completed s.cmd ∨ (e = .reset ∧ t.status.busy = false) := by
  cases e with
  | read w a => cases hostRead_eq_next h; exact .inl ⟨hb, rfl, rfl⟩
  | write w a v => exact .inl (hostWrite_pending hb h)
  | engine => exact .inr (.inl (engineTurn_completed hb h))
  | reset => cases h; exact .inr (.inr ⟨rfl, rfl⟩)

/-- A run whose first step is known goes on from there. -/
theorem run_succ_of_step {M : Host.Core} {s t : M.State} (h : M.step s = .next t) (n : Nat) : M.run (n + 1) s = M.run n t := by
  rw [Host.Core.run, h]

/-- Within as many steps as there are events left and one more the command has completed, unless a reset came before (R368, R361). -/
theorem pending_completes {s t : State} {c : Word} {rest : List HostEvent} (hs : s.Pending c rest)
    (hrun : Host.Core.run Sys2Proof.core (rest.length + 1) s = .next t) :
    ∃ k u, k ≤ rest.length + 1 ∧ Host.Core.run Sys2Proof.core k s = .next u ∧ u.status.busy = false ∧
      (HostEvent.reset ∉ rest.take k → u.status.done = true ∧ u.cmd = c) := by
  induction rest generalizing s with
  | nil =>
    obtain ⟨hb, rfl, hhost⟩ := hs
    obtain ⟨u, hstep, -⟩ := run_succ_eq_next hrun
    have hturn := (step_engineMoves (.inr ⟨hhost, rfl⟩)).symm.trans hstep
    obtain ⟨hidle, hdone, hcmd⟩ := engineTurn_completed (s := { s with host := [] }) hb hturn
    exact ⟨1, u, Nat.le_refl 1, run_succ_of_step hstep 0, hidle, fun _ => ⟨hdone, hcmd⟩⟩
  | cons e rest ih =>
    obtain ⟨hb, rfl, hhost⟩ := hs
    obtain ⟨u, hstep, hrest⟩ := run_succ_eq_next hrun
    have hevent := (step_event hhost).symm.trans hstep
    rcases perform_pending (s := { s with host := rest }) hb hevent with hu | ⟨hidle, hdone, hcmd⟩ | ⟨rfl, hidle⟩
    · obtain ⟨k, v, hk, hv, hidle, hdone⟩ := ih hu hrest
      exact ⟨k + 1, v, Nat.succ_le_succ hk, (run_succ_of_step hstep k).trans hv, hidle,
        fun hreset => hdone fun hmem => hreset (List.mem_cons_of_mem e hmem)⟩
    · exact ⟨1, u, Nat.le_add_left 1 _, run_succ_of_step hstep 0, hidle, fun _ => ⟨hdone, hcmd⟩⟩
    · exact ⟨1, u, Nat.le_add_left 1 _, run_succ_of_step hstep 0, hidle,
        fun hreset => absurd List.mem_cons_self hreset⟩

/-- Settles O53: by induction on the events left. -/
theorem pendingCommandCompletes : Obligations.PendingCommandCompletes := fun _ _ hb hrun =>
  pending_completes ⟨hb, rfl, rfl⟩ hrun

end Sys2Proof.Machine
end
